-- ==== Sys2Proof/Word.lean ====
section
/-!
DEFINITION. The word types of the block: a byte, a 16-bit field, a 32-bit register, the 64-bit response field and
the 72-bit command word (`30_encoding.md` R70, `00_scope.md` R6).
-/

namespace Sys2Proof

/-- A byte on either bus: an opaque u8 (`20_memory.md` R43). -/
abbrev Byte := BitVec 8

/-- A u16: error mask, raw code, poll count, 16-bit header field. -/
abbrev Half := BitVec 16

/-- A 32-bit register of the CSR file (`10_state.md` R12). -/
abbrev Word := BitVec 32

/-- The 64-bit `arg` of a command and `data` of a response (`30_encoding.md` R70, R72). -/
abbrev Data := BitVec 64

/-- A 72-bit command word (`30_encoding.md` R70). -/
abbrev Command := BitVec 72

end Sys2Proof
end

