-- ==== Sys2Proof/Config.lean ====
section
/-!
DEFINITION. What is fixed for the life of a block (the parameters of `00_scope.md` R5) and what the spec leaves open:
the shapes of the environment's answers (`10_state.md` R31) and the free values, constants with no body, that stand
for every answer and every byte the spec does not constrain (`93_implementation_defined.md` U3, U5).
-/

namespace Sys2Proof

/-- The element type, "Immutable after construction" (R5). -/
inductive RtdType where
  | pt100
  | pt1000
  deriving DecidableEq, Repr, Inhabited

/-- The implementation parameters of R5. No command changes one (R34). -/
structure Params where
  /-- `RTD_TYPE`. -/
  rtdType : RtdType
  /-- `RREF` in ohm. -/
  rref : Nat
  /-- `A_NUM`, numerator of `alpha` in ohm per °C. -/
  aNum : Nat
  /-- `A_DEN`, denominator of `alpha`. -/
  aDen : Nat
  /-- `PAGE_LEN` in bytes. -/
  pageLen : Nat
  /-- `FREE_PAGES`. -/
  freePages : Nat
  /-- `NVM_DEV`, an opaque token handed to the Block Transport. -/
  nvmDev : Nat
  /-- `FD_SETTLE_RESET` in ms. -/
  fdSettleReset : Half
  /-- `BLK_ATTEMPT_RESET`. -/
  blkAttemptReset : Half
  /-- `BLK_READY_RESET`. -/
  blkReadyReset : Half
  /-- `BLK_TIMEOUT_RESET` in ms. -/
  blkTimeoutReset : Half
  deriving DecidableEq, Repr, Inhabited

/-- The default column of R5 for a PT100 element. `RREF`, `A_NUM`, `A_DEN` are PRESUMED (the spec marks them general
knowledge, log 5); the four OPEN reset values and `NVM_DEV` are a DESIGN CHOICE, the values the spec's vectors use
(log 4). Unsafe: a claim that leans on one of these numbers holds of a block with these parameters only. -/
def Config.defaults : Params :=
  { rtdType := .pt100, rref := 430, aNum := 385, aDen := 1000
    pageLen := 128, freePages := 499, nvmDev := 0
    fdSettleReset := 10, blkAttemptReset := 3, blkReadyReset := 5, blkTimeoutReset := 100 }

/-- The default column of R5 for a PT1000 element (log 5). -/
def Config.defaultsPt1000 : Params :=
  { Config.defaults with rtdType := .pt1000, rref := 4300, aNum := 3850, aDen := 1000 }

/-- The status of a transfer, `OK` or `FAIL` (R7). -/
inductive Status where
  | ok
  | fail
  deriving DecidableEq, Repr, Inhabited

/-- The environment's answer to a transfer that carries bytes to a device (`Tx`, `BlkWrite`): its status, and for
each payload byte in turn whether the device stored it. Past the end of `landed` a byte is stored exactly when the
status is `OK`. The block sees the status only; what a failed transfer left behind is the device's (U7, U8; log 2). -/
structure PutReply where
  st : Status
  landed : List Bool := []
  deriving DecidableEq, Repr, Inhabited

/-- The environment's answer to a transfer that carries bytes from a device (`Rx`, `BlkRead`): its status and its
bytes. Past the end of `bytes` the answer's byte is what the device holds at that address (log 2). -/
structure GetReply where
  st : Status
  bytes : List Byte := []
  deriving DecidableEq, Repr, Inhabited

/-! The free values (U3, U5; logs 1 and 3). Nothing is known of any of them. -/

/-- The answer to a `Tx` that no script gives, by the running number of free answers. -/
opaque Config.freeTx : Nat → PutReply

/-- The answer to an `Rx` that no script gives. -/
opaque Config.freeRx : Nat → GetReply

/-- The level of the data-ready line where no script gives it. -/
opaque Config.freeDrdy : Nat → Bool

/-- The answer to a `BlkWrite` that no script gives. -/
opaque Config.freeBlkWrite : Nat → PutReply

/-- The answer to a `BlkRead` that no script gives. -/
opaque Config.freeBlkRead : Nat → GetReply

/-- The answer to a `BlkReady` that no script gives. -/
opaque Config.freeBlkReady : Nat → Bool

/-- What an RTD device register holds before anything is known of it, by address (R33). -/
opaque Config.rtdContent : Nat → Byte

/-- What an NVM byte holds before anything is known of it, by address (U5). -/
opaque Config.nvmContent : Nat → Byte

end Sys2Proof
end

