-- ==== Sys2Proof/Syntax.lean ====
section
/-!
DEFINITION. The 26 commands of `30_encoding.md` R74, one constructor per row of the opcode table, with the operands
of R71 in the order R81 writes them. Signed and counting operands (`t`, `index`, `start`, `length`) are numbers, as
R75 uses them; their ranges are checked in `WellFormed`.
-/

namespace Sys2Proof

/-- A command. -/
inductive Instr where
  /-- `CSRR csr`, R91; the `value` field is not an operand (R81). -/
  | csrr (csr : BitVec 8)
  /-- `CSRW csr, value`, R92. -/
  | csrw (csr : BitVec 8) (value : Word)
  /-- `CSRS csr, value`, R93. -/
  | csrs (csr : BitVec 8) (value : Word)
  /-- `CSRC csr, value`, R94. -/
  | csrc (csr : BitVec 8) (value : Word)
  /-- `CONV.C2T raw`, R105. -/
  | convC2t (raw : Half)
  /-- `CONV.T2C t`, R106. -/
  | convT2c (t : Int)
  /-- `RTD.INIT filter`, R114; `true` selects 50 Hz. -/
  | rtdInit (filter : Bool)
  /-- `RTD.READ1`, R115. -/
  | rtdRead1
  /-- `RTD.START`, R116. -/
  | rtdStart
  /-- `RTD.STOP`, R117. -/
  | rtdStop
  /-- `RTD.READ`, R118. -/
  | rtdRead
  /-- `RTD.SETHI t`, R119. -/
  | rtdSethi (t : Int)
  /-- `RTD.SETLO t`, R120. -/
  | rtdSetlo (t : Int)
  /-- `RTD.GETHI`, R121. -/
  | rtdGethi
  /-- `RTD.GETLO`, R122. -/
  | rtdGetlo
  /-- `FD.AUTO`, R146. -/
  | fdAuto
  /-- `FD.MSTART`, R147. -/
  | fdMstart
  /-- `FD.MEND`, R148. -/
  | fdMend
  /-- `FD.RDFAULT`, R149. -/
  | fdRdfault
  /-- `LOG.INIT ts`, R193. -/
  | logInit (ts : Data)
  /-- `LOG.APPEND id, deltaT, payload`, R194. -/
  | logAppend (id : Byte) (deltaT : Half) (payload : Word)
  /-- `LOG.GET index`, R195. -/
  | logGet (index : Nat)
  /-- `LOG.RDCNT`, R196. -/
  | logRdcnt
  /-- `LOG.RDTS`, R197. -/
  | logRdts
  /-- `LOG.RDCAP`, R198. -/
  | logRdcap
  /-- `LOG.ERASE start, length`, R176. -/
  | logErase (start : Nat) (length : Nat)
  deriving DecidableEq, Repr

end Sys2Proof
end

