-- ==== Sys2Proof/Machine/State.lean ====
section
/-!
DEFINITION. The state of RTDLOG as plain data: the registers of `10_state.md` R12 to R25 and the chip-select output
(R33), the environment's answers and contents (R27, R31), the host's command list (R11), the outputs (R56, R72), and
the state after reset (R33, R240).
-/

namespace Sys2Proof.Machine

/-- The fault-detection state machine's state, R21. -/
inductive FdState where
  | idle
  | running
  | finished
  | stuck
  deriving DecidableEq, Repr, Inhabited

/-- The component of a command and of a notification: 0 = RTD unit, 1 = log unit (R73). -/
inductive Comp where
  | rtd
  | log
  deriving DecidableEq, Repr, Inhabited

/-- An event of the observable trace, R56, with its reply. -/
inductive Event where
  /-- `Sel`: chip-select asserted (R44). -/
  | sel
  /-- `Desel`: chip-select deasserted (R44). -/
  | desel
  /-- `Tx(bytes) -> st` (R43). -/
  | tx (bytes : List Byte) (st : Status)
  /-- `Rx(n) -> (bytes, st)` (R43). -/
  | rx (n : Nat) (bytes : List Byte) (st : Status)
  /-- `Drdy() -> level` (R47): `false` is level 0, ready. -/
  | drdy (level : Bool)
  /-- `Delay(ms)` (R231). -/
  | delay (ms : Nat)
  /-- `BlkWrite(addr, bytes, timeout) -> st` on device `dev` (R50). -/
  | blkWrite (dev : Nat) (addr : Nat) (bytes : List Byte) (timeout : Nat) (st : Status)
  /-- `BlkRead(addr, n, timeout) -> (bytes, st)` on device `dev` (R50). -/
  | blkRead (dev : Nat) (addr : Nat) (n : Nat) (timeout : Nat) (bytes : List Byte) (st : Status)
  /-- `BlkReady() -> bit` on device `dev` (R50). -/
  | blkReady (dev : Nat) (bit : Bool)
  /-- `Notify(comp, mask)` (R73, R213). -/
  | notify (comp : Comp) (mask : Half)
  deriving DecidableEq, Repr

/-- The 65-bit response `{ok, data}` of R72. -/
structure Response where
  ok : Bool
  data : Data
  deriving DecidableEq, Repr, Inhabited

/-- A byte memory: the bytes of which something is known, by strictly rising address. An address that is not listed
has no value here (log 3). -/
abbrev Memory := List Host.Cell

/-- The registers of the block. -/
structure Regs where
  /-- CSR `0x00` `CTRL`, R13. -/
  ctrl : Word
  /-- CSR `0x01` `FD_POLL_MAX`, R14. -/
  fdPollMax : Word
  /-- CSR `0x02` `POLL_INTERVAL` in ms, R15. -/
  pollInterval : Word
  /-- CSR `0x03` `FD_SETTLE` in ms, R16. -/
  fdSettle : Word
  /-- CSR `0x04` `OS_POLL_MAX`, R17. -/
  osPollMax : Word
  /-- CSR `0x05` `BLK_ATTEMPT_MAX`, R18. -/
  blkAttemptMax : Word
  /-- CSR `0x06` `BLK_READY_MAX`, R19. -/
  blkReadyMax : Word
  /-- CSR `0x07` `BLK_TIMEOUT`, R20. -/
  blkTimeout : Word
  /-- `FD_STATE`, R21. -/
  fdState : FdState
  /-- `FD_ARMED`, R22. -/
  fdArmed : Bool
  /-- `FD_SAVED`, R23. -/
  fdSaved : Byte
  /-- `FD_POLLS`, R24. -/
  fdPolls : Half
  /-- The chip-select output, `true` when asserted (R33, R44). -/
  cs : Bool
  deriving DecidableEq, Repr, Inhabited

/-- The environment: the coming answers of the two devices (inputs, R31, log 1) and what the devices hold (R27, R45,
R52, log 2). An answer is taken from the head of its script; where a script has run out the answer is a free value,
and `freeIdx` counts the free answers taken. -/
structure Env where
  /-- Answers to `Tx`. -/
  txQ : List PutReply
  /-- Answers to `Rx`. -/
  rxQ : List GetReply
  /-- Levels of the data-ready line. -/
  drdyQ : List Bool
  /-- Answers to `BlkWrite`. -/
  blkWriteQ : List PutReply
  /-- Answers to `BlkRead`. -/
  blkReadQ : List GetReply
  /-- Answers to `BlkReady`. -/
  blkReadyQ : List Bool
  /-- How many free answers have been taken (the model's own). -/
  freeIdx : Nat
  /-- The device's side of a register transfer: the address of the last address byte (R45, R111). -/
  rtdPtr : BitVec 7
  /-- The RTD device registers `0x00` to `0x07` (R45). -/
  rtdRegs : Memory
  /-- The NVM bytes (R52). -/
  nvm : Memory
  deriving DecidableEq, Repr, Inhabited

/-- The state. -/
structure State where
  /-- The parameters of R5, arguments of the step (R34). -/
  params : Params
  /-- The block's registers. -/
  regs : Regs
  /-- The environment. -/
  env : Env
  /-- The host's command list (R11, R79). -/
  program : List Command
  /-- The index of the host's next command (R11). -/
  pc : Nat
  /-- For each coming step, whether the reset input is asserted, and after how many events (R240, R241, log 11). -/
  resets : List (Option Nat)
  /-- The responses so far, oldest first (R72). -/
  responses : List Response
  /-- The trace so far, oldest first (R56). -/
  trace : List Event
  deriving DecidableEq, Repr, Inhabited

/-- Why the machine stops with a fault. There is no way: the block has no trap and no fatal error (R215), and every
command in every state answers (`93_implementation_defined.md`, end of part 1). Safe: nothing is cut off. -/
inductive Fault where
  deriving DecidableEq, Repr

/-- Why a command has no meaning in this model. -/
inductive Refusal where
  /-- Raised by an arm of `exec` whose command is not modelled; no arm is. Safe. -/
  | notModelled (mnemonic : String)
  deriving DecidableEq, Repr

/-- The block's registers after reset (R33, R240), the four unspecified values from the parameters. -/
def Regs.reset (p : Params) : Regs :=
  { ctrl := 0
    fdPollMax := 100
    pollInterval := 1
    fdSettle := p.fdSettleReset.setWidth 32
    osPollMax := 100
    blkAttemptMax := p.blkAttemptReset.setWidth 32
    blkReadyMax := p.blkReadyReset.setWidth 32
    blkTimeout := p.blkTimeoutReset.setWidth 32
    fdState := .idle
    fdArmed := false
    fdSaved := 0
    fdPolls := 0
    cs := false }

/-- An environment of which nothing is known: no scripted answer, no known byte (R33, log 16). -/
def Env.unknown : Env :=
  { txQ := [], rxQ := [], drdyQ := [], blkWriteQ := [], blkReadQ := [], blkReadyQ := []
    freeIdx := 0, rtdPtr := 0, rtdRegs := [], nvm := [] }

/-- The machine right after reset for a block with parameters `p` (R33, R240): no command has been issued, no event
has happened, nothing is known of the devices. -/
def State.resetWith (p : Params) : State :=
  { params := p, regs := Regs.reset p, env := Env.unknown
    program := [], pc := 0, resets := [], responses := [], trace := [] }

/-- The machine right after reset, with the default parameters of R5 (logs 4 and 5). -/
def State.reset : State := State.resetWith Config.defaults

end Sys2Proof.Machine
end

