-- ==== Sys2Proof/Machine/Memory.lean ====
section
/-!
DEFINITION. The byte memories of the environment (RTD device registers, NVM; `10_state.md` R27) in one canonical form:
addresses strictly rising, one entry an address. An unlisted address has no value (log 3), so no entry is redundant.
-/

namespace Sys2Proof.Machine

/-- The byte known at address `a`, if any. -/
def Memory.read (m : Memory) (a : Nat) : Option Byte :=
  match m with
  | [] => none
  | (k, b) :: rest => if k = a then some b else Memory.read rest a

/-- The memory with byte `b` at address `a`. -/
def Memory.write (m : Memory) (a : Nat) (b : Byte) : Memory :=
  match m with
  | [] => [(a, b)]
  | (k, c) :: rest =>
    if a < k then (a, b) :: (k, c) :: rest
    else if a = k then (a, b) :: rest
    else (k, c) :: Memory.write rest a b

/-- Every address of `m` is above `k` and they rise strictly. -/
def Memory.above (k : Nat) (m : Memory) : Bool :=
  match m with
  | [] => true
  | (a, _) :: rest => decide (k < a) && Memory.above a rest

/-- The canonical form: strictly rising addresses. -/
def Memory.wf (m : Memory) : Bool :=
  match m with
  | [] => true
  | (a, _) :: rest => Memory.above a rest

/-- The memory after a device took a transfer of `bytes` to `a`, `a + 1`, ... : a byte is stored where `landed` says
so, and past the end of `landed` where `rest` says so (U8, log 2). -/
def Memory.store (m : Memory) (a : Nat) (bytes : List Byte) (landed : List Bool) (rest : Bool) : Memory :=
  match bytes with
  | [] => m
  | b :: bs =>
    Memory.store (if landed.headD rest then Memory.write m a b else m) (a + 1) bs landed.tail rest

end Sys2Proof.Machine
end

