-- ==== Sys2Proof/Machine/Environment.lean ====
section
/-!
DEFINITION. The environment's side of each transport call (`20_memory.md` R43, R47, R50): how its answer is taken
from the script or, where the script has run out, is a free value (`10_state.md` R31, U3, log 1), and what the call
leaves in the device (log 2).
-/

namespace Sys2Proof.Machine

/-- The answer to the next `Tx`. -/
def Env.takeTx (v : Env) : PutReply × Env :=
  match v.txQ with
  | r :: q => (r, { v with txQ := q })
  | [] => (Config.freeTx v.freeIdx, { v with freeIdx := v.freeIdx + 1 })

/-- The answer to the next `Rx`. -/
def Env.takeRx (v : Env) : GetReply × Env :=
  match v.rxQ with
  | r :: q => (r, { v with rxQ := q })
  | [] => (Config.freeRx v.freeIdx, { v with freeIdx := v.freeIdx + 1 })

/-- The next level of the data-ready line. -/
def Env.takeDrdy (v : Env) : Bool × Env :=
  match v.drdyQ with
  | r :: q => (r, { v with drdyQ := q })
  | [] => (Config.freeDrdy v.freeIdx, { v with freeIdx := v.freeIdx + 1 })

/-- The answer to the next `BlkWrite`. -/
def Env.takeBlkWrite (v : Env) : PutReply × Env :=
  match v.blkWriteQ with
  | r :: q => (r, { v with blkWriteQ := q })
  | [] => (Config.freeBlkWrite v.freeIdx, { v with freeIdx := v.freeIdx + 1 })

/-- The answer to the next `BlkRead`. -/
def Env.takeBlkRead (v : Env) : GetReply × Env :=
  match v.blkReadQ with
  | r :: q => (r, { v with blkReadQ := q })
  | [] => (Config.freeBlkRead v.freeIdx, { v with freeIdx := v.freeIdx + 1 })

/-- The answer to the next `BlkReady`. -/
def Env.takeBlkReady (v : Env) : Bool × Env :=
  match v.blkReadyQ with
  | r :: q => (r, { v with blkReadyQ := q })
  | [] => (Config.freeBlkReady v.freeIdx, { v with freeIdx := v.freeIdx + 1 })

/-- The byte an RTD device register holds: the last one stored, else unknown (R33, log 3). -/
def Env.rtdByte (v : Env) (a : Nat) : Byte :=
  (v.rtdRegs.read a).getD (Config.rtdContent a)

/-- The byte the NVM holds: the last one stored, else unknown (U5, log 3). -/
def Env.nvmByte (v : Env) (a : Nat) : Byte :=
  (v.nvm.read a).getD (Config.nvmContent a)

/-- The `n` bytes of an answer: those the script gives, and past its end what the device holds. -/
def fillReply (r : GetReply) (n : Nat) (held : Nat → Byte) : List Byte :=
  (List.range n).map fun i => r.bytes.getD i (held i)

/-- What the device does with the bytes of a `Tx` it answered with `r`: the first byte is the register address with
the write flag in bit 7; a write takes the payload to that address and the following ones, a read keeps the address
for the `Rx` (R45, R111, R112). -/
def Env.deviceTx (v : Env) (bytes : List Byte) (r : PutReply) : Env :=
  match bytes with
  | [] => v
  | a :: payload =>
    if a.getLsbD 7 then
      { v with rtdRegs := v.rtdRegs.store (a.setWidth 7).toNat payload r.landed (r.st == .ok) }
    else
      { v with rtdPtr := a.setWidth 7 }

/-- `Tx(bytes) -> st` (R43). -/
def Env.tx (v : Env) (bytes : List Byte) : Status × Env :=
  match v.takeTx with
  | (r, v1) => (r.st, v1.deviceTx bytes r)

/-- `Rx(n) -> (bytes, st)` (R43); the byte at position `i` is of register address `a + i` (R111). -/
def Env.rx (v : Env) (n : Nat) : (List Byte × Status) × Env :=
  match v.takeRx with
  | (r, v1) => ((fillReply r n fun i => v.rtdByte (v.rtdPtr.toNat + i), r.st), v1)

/-- `BlkWrite(addr, bytes) -> st` (R50); what a failed one leaves behind is in its answer (U8). -/
def Env.blkWrite (v : Env) (addr : Nat) (bytes : List Byte) : Status × Env :=
  match v.takeBlkWrite with
  | (r, v1) => (r.st, { v1 with nvm := v1.nvm.store addr bytes r.landed (r.st == .ok) })

/-- `BlkRead(addr, n) -> (bytes, st)` (R50). -/
def Env.blkRead (v : Env) (addr : Nat) (n : Nat) : (List Byte × Status) × Env :=
  match v.takeBlkRead with
  | (r, v1) => ((fillReply r n fun i => v.nvmByte (addr + i), r.st), v1)

/-- What one event does to the environment: its answer is taken from the script and what it carries reaches the
device. `Sel`, `Desel`, `Delay` and `Notify` are not answered and reach no device register. -/
def Env.apply (v : Env) (e : Event) : Env :=
  match e with
  | .sel => v
  | .desel => v
  | .tx bytes _ => (v.tx bytes).2
  | .rx n _ _ => (v.rx n).2
  | .drdy _ => v.takeDrdy.2
  | .delay _ => v
  | .blkWrite _ addr bytes _ _ => (v.blkWrite addr bytes).2
  | .blkRead _ addr n _ _ _ => (v.blkRead addr n).2
  | .blkReady _ _ => v.takeBlkReady.2
  | .notify _ _ => v

/-- The environment after a list of events, in order (R57). -/
def Env.replay (v : Env) (es : List Event) : Env :=
  match es with
  | [] => v
  | e :: rest => Env.replay (v.apply e) rest

end Sys2Proof.Machine
end

