-- ==== Sys2Proof/Machine/Operands.lean ====
section
/-!
DEFINITION. The operand forms: the RTD register map and CONFIG masks (`20_memory.md` R45, R46), raw codes (R41, R49),
byte order and record layout (R42, R53, `00_scope.md` R6), the CSR file's read and write forms (`10_state.md` R12 to
R25, `40_csr.md` R90) and the data field of a response (`30_encoding.md` R72, R75).
-/

namespace Sys2Proof.Machine

/-! RTD register addresses (R45; PRESUMED by the spec, log 6). -/

/-- `CONFIG`. -/
def addrConfig : Byte := 0x00
/-- `RTD_MSB`, the data register pair. -/
def addrData : Byte := 0x01
/-- `HFT_MSB`, the upper threshold pair. -/
def addrHigh : Byte := 0x03
/-- `LFT_MSB`, the lower threshold pair. -/
def addrLow : Byte := 0x05
/-- `FAULT_STATUS`. -/
def addrFault : Byte := 0x07
/-- The write flag of an address byte. -/
def writeFlag : Byte := 0x80

/-! `CONFIG` masks (R46; PRESUMED by the spec, log 6). -/

/-- Bias voltage enabled. -/
def cfgVbias : Byte := 0x80
/-- Continuous conversion. -/
def cfgAuto : Byte := 0x40
/-- One-shot trigger. -/
def cfgOneshot : Byte := 0x20
/-- The two cycle bits. -/
def cfgFdcMask : Byte := 0x0C
/-- Fault-status clear. -/
def cfgFclr : Byte := 0x02
/-- 50 Hz filter. -/
def cfgFilt50 : Byte := 0x01

/-! Raw codes. -/

/-- The 16-bit value of a register pair, most significant byte first (R41). -/
def rawOfBytes (msb lsb : Byte) : Half := msb ++ lsb

/-- The byte at position `i` of a received list; a received list has the length that was asked for (R43). -/
def byteAt (bytes : List Byte) (i : Nat) : Byte := bytes.getD i 0

/-- The register pair in a received list of two bytes. -/
def rawOfList (bytes : List Byte) : Half := rawOfBytes (byteAt bytes 0) (byteAt bytes 1)

/-- The byte pair of a raw code, most significant first (R119). -/
def bytesOfRaw (raw : Half) : List Byte := [raw.extractLsb' 8 8, raw.extractLsb' 0 8]

/-- `code15 = raw16[15:1]` (R49). -/
def code15 (raw : Half) : Nat := (raw.extractLsb' 1 15).toNat

/-- `fault_flag = raw16[0]` (R49). -/
def faultFlag (raw : Half) : Bool := raw.getLsbD 0

/-! Byte order of the NVM fields, big-endian (R42, R6). -/

/-- `be16(v)`. -/
def be16 (v : Half) : List Byte := [v.extractLsb' 8 8, v.extractLsb' 0 8]

/-- `be64(v)`. -/
def be64 (v : Data) : List Byte :=
  [v.extractLsb' 56 8, v.extractLsb' 48 8, v.extractLsb' 40 8, v.extractLsb' 32 8,
   v.extractLsb' 24 8, v.extractLsb' 16 8, v.extractLsb' 8 8, v.extractLsb' 0 8]

/-- `ube(bytes)`: the number whose most significant byte is the first. -/
def ube (bytes : List Byte) : Nat := bytes.foldl (fun n b => n * 256 + b.toNat) 0

/-- The 56-bit record number `{id, deltaT, payload}` (R53). -/
def recordNumber (id : Byte) (deltaT : Half) (payload : Word) : BitVec 56 := id ++ deltaT ++ payload

/-- `ser(rec)`: the record's seven bytes, most significant first (R53). -/
def serRecord (r : BitVec 56) : List Byte :=
  [r.extractLsb' 48 8, r.extractLsb' 40 8, r.extractLsb' 32 8, r.extractLsb' 24 8,
   r.extractLsb' 16 8, r.extractLsb' 8 8, r.extractLsb' 0 8]

/-! The response's data field. -/

/-- A temperature as `{0x00000000, T[31:0]}` (R75). -/
def tempData (t : Int) : Data := 0#32 ++ BitVec.ofInt 32 t

/-- A 32-bit value, zero-extended (R72). -/
def wordData (w : Word) : Data := w.setWidth 64

/-- A 16-bit value, zero-extended (R72). -/
def halfData (h : Half) : Data := h.setWidth 64

/-- The unsigned number of received bytes, zero-extended (R72). -/
def bytesData (bytes : List Byte) : Data := BitVec.ofNat 64 (ube bytes)

/-! The CSR file. -/

/-- The nine CSRs (R12). -/
inductive Csr where
  | ctrl
  | fdPollMax
  | pollInterval
  | fdSettle
  | osPollMax
  | blkAttemptMax
  | blkReadyMax
  | blkTimeout
  | fdStatus
  deriving DecidableEq, Repr

/-- The CSR at an address; `0x09` to `0xFF` are unimplemented (R12). -/
def csrAt (a : BitVec 8) : Option Csr :=
  match a.toNat with
  | 0x00 => some .ctrl
  | 0x01 => some .fdPollMax
  | 0x02 => some .pollInterval
  | 0x03 => some .fdSettle
  | 0x04 => some .osPollMax
  | 0x05 => some .blkAttemptMax
  | 0x06 => some .blkReadyMax
  | 0x07 => some .blkTimeout
  | 0x08 => some .fdStatus
  | _ => none

/-- The address of a CSR (R13 to R25). -/
def csrAddr (c : Csr) : BitVec 8 :=
  match c with
  | .ctrl => 0x00
  | .fdPollMax => 0x01
  | .pollInterval => 0x02
  | .fdSettle => 0x03
  | .osPollMax => 0x04
  | .blkAttemptMax => 0x05
  | .blkReadyMax => 0x06
  | .blkTimeout => 0x07
  | .fdStatus => 0x08

/-- `writable(a)`: all but `FD_STATUS` (R90). -/
def csrWritable (c : Csr) : Bool :=
  match c with
  | .fdStatus => false
  | _ => true

/-- `wmask(a)`: the implemented bits of a writable CSR (R90). -/
def csrWmask (c : Csr) : Word :=
  match c with
  | .ctrl => 0x00000007
  | .fdStatus => 0x00000000
  | _ => 0x0000FFFF

/-- The 2-bit encoding of `FD_STATE` (R21). -/
def fdStateCode (f : FdState) : BitVec 2 :=
  match f with
  | .idle => 0
  | .running => 1
  | .finished => 2
  | .stuck => 3

/-- The value `FD_STATUS` reads as (R25). -/
def fdStatusValue (r : Regs) : Word :=
  r.fdPolls ++ r.fdSaved ++ 0#5 ++ BitVec.ofBool r.fdArmed ++ fdStateCode r.fdState

/-- `rd(a)`: the 32-bit read value, reserved bits 0 (R12, R90). -/
def csrValue (c : Csr) (r : Regs) : Word :=
  match c with
  | .ctrl => r.ctrl &&& csrWmask .ctrl
  | .fdPollMax => r.fdPollMax &&& csrWmask .fdPollMax
  | .pollInterval => r.pollInterval &&& csrWmask .pollInterval
  | .fdSettle => r.fdSettle &&& csrWmask .fdSettle
  | .osPollMax => r.osPollMax &&& csrWmask .osPollMax
  | .blkAttemptMax => r.blkAttemptMax &&& csrWmask .blkAttemptMax
  | .blkReadyMax => r.blkReadyMax &&& csrWmask .blkReadyMax
  | .blkTimeout => r.blkTimeout &&& csrWmask .blkTimeout
  | .fdStatus => fdStatusValue r

/-- `csr[a] <- v AND wmask(a)` (R90, R92); a read-only CSR keeps its value. -/
def csrStore (c : Csr) (v : Word) (r : Regs) : Regs :=
  match c with
  | .ctrl => { r with ctrl := v &&& csrWmask .ctrl }
  | .fdPollMax => { r with fdPollMax := v &&& csrWmask .fdPollMax }
  | .pollInterval => { r with pollInterval := v &&& csrWmask .pollInterval }
  | .fdSettle => { r with fdSettle := v &&& csrWmask .fdSettle }
  | .osPollMax => { r with osPollMax := v &&& csrWmask .osPollMax }
  | .blkAttemptMax => { r with blkAttemptMax := v &&& csrWmask .blkAttemptMax }
  | .blkReadyMax => { r with blkReadyMax := v &&& csrWmask .blkReadyMax }
  | .blkTimeout => { r with blkTimeout := v &&& csrWmask .blkTimeout }
  | .fdStatus => r

/-! The CSR fields the commands use: `csr[a][15:0]` as a number and the bits of `CTRL` (R13 to R20). -/

/-- `[15:0]` of a CSR as a number. -/
def lowHalf (w : Word) : Nat := (w.extractLsb' 0 16).toNat

/-- `FD_POLL_MAX`, R14. -/
def Regs.fdPollBound (r : Regs) : Nat := lowHalf r.fdPollMax
/-- `POLL_INTERVAL` in ms, R15. -/
def Regs.pollMs (r : Regs) : Nat := lowHalf r.pollInterval
/-- `FD_SETTLE` in ms, R16. -/
def Regs.settleMs (r : Regs) : Nat := lowHalf r.fdSettle
/-- `OS_POLL_MAX`, R17. -/
def Regs.osPollBound (r : Regs) : Nat := lowHalf r.osPollMax
/-- `BLK_ATTEMPT_MAX`, R18. -/
def Regs.attemptBound (r : Regs) : Nat := lowHalf r.blkAttemptMax
/-- `BLK_READY_MAX`, R19. -/
def Regs.readyBound (r : Regs) : Nat := lowHalf r.blkReadyMax
/-- `BLK_TIMEOUT` in ms, R20. -/
def Regs.timeoutMs (r : Regs) : Nat := lowHalf r.blkTimeout
/-- `CTRL.DRDY_EN`, R13. -/
def Regs.drdyEn (r : Regs) : Bool := r.ctrl.getLsbD 2

/-- `csr[0x00][comp]`: the sink enable bit of a component, `RTD_SINK_EN` or `LOG_SINK_EN` (R13, R213). -/
def Regs.sinkEn (r : Regs) (c : Comp) : Bool :=
  match c with
  | .rtd => r.ctrl.getLsbD 0
  | .log => r.ctrl.getLsbD 1

end Sys2Proof.Machine
end

