-- ==== Sys2Proof/Machine/Flags.lean ====
section
/-!
DEFINITION. The block has no flags (`10_state.md` R11); what stands in their place is the 16-bit error mask of
`60_exceptions.md` R210, one bit a cause, and the decoding of the device's fault status into it (`20_memory.md` R48).
-/

namespace Sys2Proof.Machine

/-- No cause. -/
def eNone : Half := 0x0000
/-- `E_TRANSPORT`. -/
def eTransport : Half := 0x0001
/-- `E_HIGH_THR`. -/
def eHighThr : Half := 0x0002
/-- `E_LOW_THR`. -/
def eLowThr : Half := 0x0004
/-- `E_REFIN_HIGH`. -/
def eRefinHigh : Half := 0x0008
/-- `E_REFIN_LOW`. -/
def eRefinLow : Half := 0x0010
/-- `E_RTDIN_LOW`. -/
def eRtdinLow : Half := 0x0020
/-- `E_OV_UV`. -/
def eOvUv : Half := 0x0040
/-- `E_FD_STUCK`. -/
def eFdStuck : Half := 0x0080
/-- `E_GENERAL_FAULT`. -/
def eGeneralFault : Half := 0x0100
/-- `E_STORAGE_OVERFLOW`. -/
def eStorageOverflow : Half := 0x0200
/-- `E_STORAGE_EMPTY`. -/
def eStorageEmpty : Half := 0x0400
/-- `E_STORAGE_BOUNDS`. -/
def eStorageBounds : Half := 0x0800
/-- `E_STORAGE_OVF_READ`. -/
def eStorageOvfRead : Half := 0x1000

/-- `raise E`, `err <- err OR E` (R211), where the cause holds. -/
def raiseIf (cause : Bool) (e : Half) (err : Half) : Half :=
  if cause then err ||| e else err

/-- `raise E_TRANSPORT` where a transfer answered `FAIL` (R210). -/
def raiseFail (st : Status) (err : Half) : Half :=
  raiseIf (st == .fail) eTransport err

/-- The causes of a fault status byte; bits 1 and 0 are ignored (R48, R149). -/
def faultCauses (f : Byte) (err : Half) : Half :=
  raiseIf (f.getLsbD 2) eOvUv
    (raiseIf (f.getLsbD 3) eRtdinLow
      (raiseIf (f.getLsbD 4) eRefinLow
        (raiseIf (f.getLsbD 5) eRefinHigh
          (raiseIf (f.getLsbD 6) eLowThr
            (raiseIf (f.getLsbD 7) eHighThr err)))))

end Sys2Proof.Machine
end

