-- ==== Sys2Proof/Machine/Ops.lean ====
section
/-!
DEFINITION. The named operations every command is made of: the events of `20_memory.md` R56, one function each; the
framed register transactions `RegRead` and `RegWrite` (`42_rtd_driver.md` R111, R112); how a command ends (`respond`,
`finish`, `60_exceptions.md` R213: the block's one form of reporting a cause, it has no trap, R215); and what reset
does to the registers (`70_reset_and_hazards.md` R240).
-/

namespace Sys2Proof.Machine

/-- One more event at the end of the trace (R56). -/
def State.emit (s : State) (e : Event) : State :=
  { s with trace := s.trace ++ [e] }

/-- The state with another environment. -/
def State.withEnv (s : State) (v : Env) : State :=
  { s with env := v }

/-- The state with other registers. -/
def State.withRegs (s : State) (r : Regs) : State :=
  { s with regs := r }

/-! Events. -/

/-- `Sel` (R44). -/
def sel (s : State) : State :=
  (s.withRegs { s.regs with cs := true }).emit .sel

/-- `Desel` (R44). -/
def desel (s : State) : State :=
  (s.withRegs { s.regs with cs := false }).emit .desel

/-- `Tx(bytes) -> st` (R43). -/
def tx (bytes : List Byte) (s : State) : Status × State :=
  match s.env.tx bytes with
  | (st, v) => (st, (s.withEnv v).emit (.tx bytes st))

/-- `Rx(n) -> (bytes, st)` (R43). -/
def rx (n : Nat) (s : State) : (List Byte × Status) × State :=
  match s.env.rx n with
  | ((bytes, st), v) => ((bytes, st), (s.withEnv v).emit (.rx n bytes st))

/-- `Drdy() -> level` (R47). -/
def drdy (s : State) : Bool × State :=
  match s.env.takeDrdy with
  | (level, v) => (level, (s.withEnv v).emit (.drdy level))

/-- `Delay(ms)` (R231). -/
def delay (ms : Nat) (s : State) : State :=
  s.emit (.delay ms)

/-- `BlkWrite(addr, bytes) -> st` with device `NVM_DEV` and the timeout of CSR `0x07` (R50). -/
def blkWrite (addr : Nat) (bytes : List Byte) (s : State) : Status × State :=
  match s.env.blkWrite addr bytes with
  | (st, v) => (st, (s.withEnv v).emit (.blkWrite s.params.nvmDev addr bytes s.regs.timeoutMs st))

/-- `BlkRead(addr, n) -> (bytes, st)` with device `NVM_DEV` and the timeout of CSR `0x07` (R50). -/
def blkRead (addr n : Nat) (s : State) : (List Byte × Status) × State :=
  match s.env.blkRead addr n with
  | ((bytes, st), v) =>
    ((bytes, st), (s.withEnv v).emit (.blkRead s.params.nvmDev addr n s.regs.timeoutMs bytes st))

/-- `BlkReady() -> bit` with device `NVM_DEV` (R50). -/
def blkReady (s : State) : Bool × State :=
  match s.env.takeBlkReady with
  | (bit, v) => (bit, (s.withEnv v).emit (.blkReady s.params.nvmDev bit))

/-- `Notify(comp, mask)` (R73). -/
def notify (c : Comp) (mask : Half) (s : State) : State :=
  s.emit (.notify c mask)

/-! Framed register transactions. -/

/-- `RegRead(a, n)` (R111); `none` is `FAIL`, whose bytes no rule uses (U4). -/
def regRead (a : Byte) (n : Nat) (s : State) : Option (List Byte) × State :=
  match tx [a] (sel s) with
  | (.fail, s1) => (none, desel s1)
  | (.ok, s1) =>
    match rx n s1 with
    | ((_, .fail), s2) => (none, desel s2)
    | ((bytes, .ok), s2) => (some bytes, desel s2)

/-- `RegWrite(a, bytes)` (R112). -/
def regWrite (a : Byte) (bytes : List Byte) (s : State) : Status × State :=
  match tx ((a ||| writeFlag) :: bytes) (sel s) with
  | (st, s1) => (st, desel s1)

/-- `RegRead(0x00, 1)`: the device's `CONFIG` (R45). -/
def readConfig (s : State) : Option Byte × State :=
  match regRead addrConfig 1 s with
  | (none, s1) => (none, s1)
  | (some bytes, s1) => (some (byteAt bytes 0), s1)

/-- `RegWrite(0x00, [c])`: the device's `CONFIG` (R45). -/
def writeConfig (c : Byte) (s : State) : Status × State :=
  regWrite addrConfig [c] s

/-! How a command ends. -/

/-- `respond(ok, data)`: the command's one response (R72). -/
def respond (ok : Bool) (data : Data) (s : State) : State :=
  { s with responses := s.responses ++ [{ ok := ok, data := data }] }

/-- A refused command: no event, no state change, `ok = 0`, `data = 0` (R8). -/
def refuse (s : State) : State :=
  respond false 0 s

/-- The notification of R213, where a cause was raised and the component's sink is enabled. -/
def notifyIfDue (c : Comp) (err : Half) (s : State) : State :=
  if err ≠ 0 ∧ s.regs.sinkEn c = true then notify c err s else s

/-- `finish(ok, data)` (R213): at most one notification, the command's last event, then the response. -/
def finish (c : Comp) (err : Half) (ok : Bool) (data : Data) (s : State) : State :=
  respond ok data (notifyIfDue c err s)

/-- A command that stops at a failed transfer: `raise E_TRANSPORT; finish(ok = 0, data = 0)` (R110). -/
def finishTransport (c : Comp) (s : State) : State :=
  finish c eTransport false 0 s

/-! Reset. -/

/-- What the reset input does: the registers take their reset values, the chip-select is deasserted; no event; the
devices keep what they hold (R240, R242). -/
def hardReset (s : State) : State :=
  s.withRegs (Regs.reset s.params)

end Sys2Proof.Machine
end

