-- ==== Sys2Proof/Machine/Converter.lean ====
section
/-!
DEFINITION. The fixed-point PT100/PT1000 converter, `41_converter.md` R100 to R107, and its two commands. All
arithmetic is on integers without bound; the one division of each function has a positive divisor for admissible
parameters and rounds toward minus infinity (R102, R107).
-/

namespace Sys2Proof

/-- `R0` in ohm (R101). -/
def Params.r0 (p : Params) : Nat :=
  match p.rtdType with
  | .pt100 => 100
  | .pt1000 => 1000

/-- `C2T(code15)`, R102. -/
def Params.c2t (p : Params) (code : Nat) : Int :=
  (((code : Int) * p.rref - (p.r0 : Int) * 32768) * p.aDen) / (32 * (p.aNum : Int))

/-- `c` of R103: the exact code, rounded to nearest, ties toward plus infinity. -/
def Params.nearestCode (p : Params) (t : Int) : Int :=
  (2 * (t * p.aNum * 32 + (p.r0 : Int) * 32768 * p.aDen) + (p.rref : Int) * p.aDen)
    / (2 * ((p.rref : Int) * p.aDen))

/-- `code15` of R103, saturated. -/
def Params.satCode (p : Params) (t : Int) : Int :=
  min 32767 (max 0 (p.nearestCode t))

/-- `T2C(T)`, R103: `raw16 = code15 << 1`, bit 0 = 0. -/
def Params.t2c (p : Params) (t : Int) : Half :=
  BitVec.ofInt 16 (p.satCode t * 2)

/-- The temperature of a raw code: `C2T(raw[15:1])`. -/
def Params.rawTemp (p : Params) (raw : Half) : Int :=
  p.c2t (Machine.code15 raw)

end Sys2Proof

namespace Sys2Proof.Machine

/-- `CONV.C2T raw`, R105. -/
def execConvC2t (raw : Half) (s : State) : Host.Outcome State Fault Refusal :=
  .next (respond true (tempData (s.params.rawTemp raw)) s)

/-- `CONV.T2C t`, R106. -/
def execConvT2c (t : Int) (s : State) : Host.Outcome State Fault Refusal :=
  .next (respond true (halfData (s.params.t2c t)) s)

end Sys2Proof.Machine
end

