-- ==== Sys2Proof/Machine/Csr.lean ====
section
/-!
DEFINITION. The CSR access commands, `40_csr.md` R90 to R94. They emit no event, raise no cause and never notify.
-/

namespace Sys2Proof.Machine

/-- The common form of `CSRW`, `CSRS`, `CSRC` (R92 to R94): the old value is the result, `f old` is stored. -/
def csrUpdate (a : BitVec 8) (f : Word → Word) (s : State) : State :=
  match csrAt a with
  | none => refuse s
  | some c =>
    if csrWritable c then
      respond true (wordData (csrValue c s.regs)) (s.withRegs (csrStore c (f (csrValue c s.regs)) s.regs))
    else refuse s

/-- `CSRR csr`, R91. -/
def execCsrr (csr : BitVec 8) (s : State) : Host.Outcome State Fault Refusal :=
  .next (match csrAt csr with
    | none => refuse s
    | some c => respond true (wordData (csrValue c s.regs)) s)

/-- `CSRW csr, value`, R92. -/
def execCsrw (csr : BitVec 8) (value : Word) (s : State) : Host.Outcome State Fault Refusal :=
  .next (csrUpdate csr (fun _ => value) s)

/-- `CSRS csr, value`, R93. -/
def execCsrs (csr : BitVec 8) (value : Word) (s : State) : Host.Outcome State Fault Refusal :=
  .next (csrUpdate csr (fun old => old ||| value) s)

/-- `CSRC csr, value`, R94. -/
def execCsrc (csr : BitVec 8) (value : Word) (s : State) : Host.Outcome State Fault Refusal :=
  .next (csrUpdate csr (fun old => old &&& ~~~value) s)

end Sys2Proof.Machine
end

