-- ==== Sys2Proof/Machine/RtdDriver.lean ====
section
/-!
DEFINITION. The RTD driver commands, `42_rtd_driver.md` R110 to R123. A failed transfer ends a command at once with
`E_TRANSPORT`, `ok = 0`, `data = 0`, but for the throwaway read of `RTD.INIT` (R110).
-/

namespace Sys2Proof.Machine

/-- `ReadTemp()`, R113: the data register's temperature; the fault flag raises `E_GENERAL_FAULT` and the temperature
is returned all the same. -/
def readTemp (s : State) : State :=
  match regRead addrData 2 s with
  | (none, s1) => finishTransport .rtd s1
  | (some d, s1) =>
    finish .rtd (raiseIf (faultFlag (rawOfList d)) eGeneralFault eNone)
      (!faultFlag (rawOfList d)) (tempData (s1.params.rawTemp (rawOfList d))) s1

/-- A command that ends with one `RegWrite` whose failure raises `E_TRANSPORT`: `finish(ok = (st = OK), data = 0)`. -/
def finishWrite (r : Status × State) : State :=
  match r with
  | (.ok, s1) => finish .rtd eNone true 0 s1
  | (.fail, s1) => finishTransport .rtd s1

/-- The read-modify-write of `CONFIG` of R116 and R117. -/
def modifyConfig (f : Byte → Byte) (s : State) : State :=
  match readConfig s with
  | (none, s1) => finishTransport .rtd s1
  | (some c, s1) => finishWrite (writeConfig (f c) s1)

/-- A threshold write: the converted code as a byte pair in one transaction (R119, R120). -/
def writeThreshold (a : Byte) (t : Int) (s : State) : State :=
  finishWrite (regWrite a (bytesOfRaw (s.params.t2c t)) s)

/-- A threshold read (R121, R122): bit 0 of the pair is ignored. -/
def readThreshold (a : Byte) (s : State) : State :=
  match regRead a 2 s with
  | (none, s1) => finishTransport .rtd s1
  | (some d, s1) => finish .rtd eNone true (tempData (s1.params.rawTemp (rawOfList d))) s1

/-- How the wait loop of `RTD.READ1` ends (R115). -/
inductive WaitEnd where
  | ready
  | timeout
  | abort
  deriving DecidableEq, Repr

/-- One ready test of R115: the data-ready line where it is attached, else the one-shot bit of `CONFIG`; `none` is a
failed transfer. -/
def readyTest (s : State) : Option Bool × State :=
  if s.regs.drdyEn then
    match drdy s with
    | (level, s1) => (some (!level), s1)
  else
    match readConfig s with
    | (none, s1) => (none, s1)
    | (some c, s1) => (some (c &&& cfgOneshot == 0), s1)

/-- The wait loop of R115 with `k` ready tests left; a delay stands only between two tests. -/
def oneShotWait (k : Nat) (s : State) : WaitEnd × State :=
  match k with
  | 0 => (.timeout, s)
  | k + 1 =>
    match readyTest s with
    | (none, s1) => (.abort, s1)
    | (some true, s1) => (.ready, s1)
    | (some false, s1) => oneShotWait k (if k = 0 then s1 else delay s1.regs.pollMs s1)

/-- The end of `RTD.READ1` after its wait (R115): a timeout raises `E_FD_STUCK` and reads no data. -/
def finishOneShot (r : WaitEnd × State) : State :=
  match r with
  | (.ready, s1) => readTemp s1
  | (.timeout, s1) => finish .rtd eFdStuck false 0 s1
  | (.abort, s1) => finishTransport .rtd s1

/-- `RTD.INIT filter`, R114: the throwaway read's bytes and status are ignored; the value written is built from
zero. -/
def execRtdInit (filter : Bool) (s : State) : Host.Outcome State Fault Refusal :=
  .next (finishWrite (writeConfig (cfgVbias ||| (if filter then cfgFilt50 else 0)) (regRead addrConfig 1 s).2))

/-- `RTD.READ1`, R115. -/
def execRtdRead1 (s : State) : Host.Outcome State Fault Refusal :=
  .next (match readConfig s with
    | (none, s1) => finishTransport .rtd s1
    | (some c, s1) =>
      match writeConfig (c ||| cfgOneshot) s1 with
      | (.fail, s2) => finishTransport .rtd s2
      | (.ok, s2) => finishOneShot (oneShotWait s2.regs.osPollBound s2))

/-- `RTD.START`, R116. -/
def execRtdStart (s : State) : Host.Outcome State Fault Refusal :=
  .next (modifyConfig (fun c => c ||| cfgAuto) s)

/-- `RTD.STOP`, R117. -/
def execRtdStop (s : State) : Host.Outcome State Fault Refusal :=
  .next (modifyConfig (fun c => c &&& ~~~cfgAuto) s)

/-- `RTD.READ`, R118. -/
def execRtdRead (s : State) : Host.Outcome State Fault Refusal :=
  .next (readTemp s)

/-- `RTD.SETHI t`, R119. -/
def execRtdSethi (t : Int) (s : State) : Host.Outcome State Fault Refusal :=
  .next (writeThreshold addrHigh t s)

/-- `RTD.SETLO t`, R120. -/
def execRtdSetlo (t : Int) (s : State) : Host.Outcome State Fault Refusal :=
  .next (writeThreshold addrLow t s)

/-- `RTD.GETHI`, R121. -/
def execRtdGethi (s : State) : Host.Outcome State Fault Refusal :=
  .next (readThreshold addrHigh s)

/-- `RTD.GETLO`, R122. -/
def execRtdGetlo (s : State) : Host.Outcome State Fault Refusal :=
  .next (readThreshold addrLow s)

end Sys2Proof.Machine
end

