-- ==== Sys2Proof/Machine/FaultDetect.lean ====
section
/-!
DEFINITION. The fault-detection state machine, `43_fault_detection.md` R140 to R149, in the big-step form of the
pseudocode; the small-step view of R141 is `Machine/FaultMicro.lean`.
-/

namespace Sys2Proof.Machine

/-- `cyc(c, code)`, the arming value (R142). -/
def cyc (c : Byte) (code : BitVec 2) : Byte :=
  ((c ||| 0x80) &&& 0x91) ||| (code.setWidth 8 <<< 2)

/-- The verdict of a poll loop (R143), and `abort` for a failed transfer (R141). -/
inductive Verdict where
  | fin
  | stuck
  | abort
  deriving DecidableEq, Repr

/-- `FD_STATE <- f`. -/
def setFdState (f : FdState) (s : State) : State :=
  s.withRegs { s.regs with fdState := f }

/-- `FD_POLLS <- n`. -/
def setFdPolls (n : Half) (s : State) : State :=
  s.withRegs { s.regs with fdPolls := n }

/-- `FD_SAVED <- c`. -/
def setFdSaved (c : Byte) (s : State) : State :=
  s.withRegs { s.regs with fdSaved := c }

/-- `FD_ARMED <- b`. -/
def setFdArmed (b : Bool) (s : State) : State :=
  s.withRegs { s.regs with fdArmed := b }

/-- Both cycle bits are clear (R143, R149). -/
def cycleDone (c : Byte) : Bool := c &&& cfgFdcMask == 0

/-- The poll loop of R143 with `k` reads left and `n` made; a delay stands only between two reads. -/
def fdPollLoop (k n : Nat) (s : State) : Verdict × State :=
  match k with
  | 0 => (.stuck, s)
  | k + 1 =>
    match readConfig s with
    | (none, s1) => (.abort, setFdPolls (BitVec.ofNat 16 (n + 1)) s1)
    | (some c, s1) =>
      if cycleDone c then (.fin, setFdPolls (BitVec.ofNat 16 (n + 1)) s1)
      else
        fdPollLoop k (n + 1)
          (if k = 0 then setFdPolls (BitVec.ofNat 16 (n + 1)) s1
           else delay s1.regs.pollMs (setFdPolls (BitVec.ofNat 16 (n + 1)) s1))

/-- `FdPoll()`, R143. -/
def fdPoll (s : State) : Verdict × State :=
  fdPollLoop s.regs.fdPollBound 0 (setFdPolls 0 s)

/-- What R144 does before the restore write: the new `FD_STATE`, the settle delay, the cause raised. -/
def fdVerdict (v : Verdict) (s : State) : Half × State :=
  match v with
  | .fin => (eNone, delay s.regs.settleMs (setFdState .finished s))
  | .stuck => (eFdStuck, setFdState .stuck s)
  | .abort => (eTransport, s)

/-- What R144 does after the restore write. -/
def fdAfter (v : Verdict) (s : State) : State :=
  match v with
  | .fin => s
  | .stuck => s
  | .abort => setFdState .idle s

/-- `FdFinish(saved, verdict)`, R144: the error mask and the state after the restore write. -/
def fdFinish (saved : Byte) (v : Verdict) (s : State) : Half × State :=
  match fdVerdict v s with
  | (err, s1) =>
    match writeConfig saved s1 with
    | (st, s2) => (raiseFail st err, fdAfter v s2)

/-- `finish(ok = (FD_STATE = FINISHED and err = 0), data = 0)` (R146, R148). -/
def fdRespond (r : Half × State) : State :=
  finish .rtd r.1 (r.2.regs.fdState == .finished && r.1 == 0) 0 r.2

/-- `FdFinish(saved, FdPoll())`, then the response (R146, R148). -/
def fdCycle (saved : Byte) (s : State) : State :=
  match fdPoll s with
  | (v, s1) => fdRespond (fdFinish saved v s1)

/-- `FdFinish(saved, abort)`, then `finish(ok = 0, data = 0)` (R146, R148). -/
def fdAbort (saved : Byte) (s : State) : State :=
  match fdFinish saved .abort s with
  | (err, s1) => finish .rtd err false 0 s1

/-- `FD.AUTO`, R146. -/
def execFdAuto (s : State) : Host.Outcome State Fault Refusal :=
  .next (if s.regs.fdArmed then refuse s
    else
      match readConfig s with
      | (none, s1) => finishTransport .rtd s1
      | (some c, s1) =>
        match writeConfig (cyc c 1) (setFdSaved c s1) with
        | (.fail, s2) => fdAbort c s2
        | (.ok, s2) => fdCycle c (setFdState .running s2))

/-- `FD.MSTART`, R147. -/
def execFdMstart (s : State) : Host.Outcome State Fault Refusal :=
  .next (if s.regs.fdArmed then refuse s
    else
      match readConfig s with
      | (none, s1) => finishTransport .rtd s1
      | (some c, s1) =>
        match writeConfig (cyc c 2) s1 with
        | (.fail, s2) => finishTransport .rtd s2
        | (.ok, s2) =>
          finish .rtd eNone true 0 (setFdState .running (setFdArmed true (setFdSaved c s2))))

/-- `FD.MEND`, R148: `CONFIG` is not re-read, the arming value is built from `FD_SAVED`. -/
def execFdMend (s : State) : Host.Outcome State Fault Refusal :=
  .next (if s.regs.fdArmed then
      match writeConfig (cyc s.regs.fdSaved 3) (setFdArmed false s) with
      | (.fail, s1) => fdAbort s1.regs.fdSaved s1
      | (.ok, s1) => fdCycle s1.regs.fdSaved s1
    else refuse s)

/-- `FD.RDFAULT`, R149. -/
def execFdRdfault (s : State) : Host.Outcome State Fault Refusal :=
  .next (match readConfig s with
    | (none, s1) => finishTransport .rtd s1
    | (some c, s1) =>
      if cycleDone c then
        match regRead addrFault 1 s1 with
        | (none, s2) => finishTransport .rtd s2
        | (some f, s2) =>
          match writeConfig (c ||| cfgFclr) s2 with
          | (st, s3) =>
            finish .rtd (faultCauses (byteAt f 0) (raiseFail st eNone))
              (faultCauses (byteAt f 0) (raiseFail st eNone) == 0) 0 s3
      else finish .rtd eNone false 0 s1)

end Sys2Proof.Machine
end

