-- ==== Sys2Proof/Machine/PagedWriter.lean ====
section
/-!
DEFINITION. The paged writer and the retrying NVM primitives, `44_paged_writer.md` R170 to R176, and `LOG.ERASE`.
-/

namespace Sys2Proof.Machine

/-- `ReadyWait()` with `k` polls left (R173). -/
def readyWaitLoop (k : Nat) (s : State) : Bool × State :=
  match k with
  | 0 => (false, s)
  | k + 1 =>
    match blkReady s with
    | (true, s1) => (true, s1)
    | (false, s1) => readyWaitLoop k s1

/-- `ReadyWait()`, R173. -/
def readyWait (s : State) : Bool × State :=
  readyWaitLoop s.regs.readyBound s

/-- `MemWrite(addr, n, v)` with `k` attempts left (R171): a `ReadyWait` between two attempts, none after the last. -/
def memWriteLoop (k addr : Nat) (v : List Byte) (s : State) : Status × State :=
  match k with
  | 0 => (.fail, s)
  | k + 1 =>
    match blkWrite addr v s with
    | (.ok, s1) => (.ok, s1)
    | (.fail, s1) =>
      if k = 0 then (.fail, s1)
      else
        match readyWait s1 with
        | (true, s2) => memWriteLoop k addr v s2
        | (false, s2) => (.fail, s2)

/-- `MemWrite(addr, n, v)`, R171. -/
def memWrite (addr : Nat) (v : List Byte) (s : State) : Status × State :=
  memWriteLoop s.regs.attemptBound addr v s

/-- `MemRead(addr, n)` with `k` attempts left (R172). -/
def memReadLoop (k addr n : Nat) (s : State) : Option (List Byte) × State :=
  match k with
  | 0 => (none, s)
  | k + 1 =>
    match blkRead addr n s with
    | ((bytes, .ok), s1) => (some bytes, s1)
    | ((_, .fail), s1) =>
      if k = 0 then (none, s1)
      else
        match readyWait s1 with
        | (true, s2) => memReadLoop k addr n s2
        | (false, s2) => (none, s2)

/-- `MemRead(addr, n)`, R172; `none` is `FAIL`, whose bytes no caller uses. -/
def memRead (addr n : Nat) (s : State) : Option (List Byte) × State :=
  memReadLoop s.regs.attemptBound addr n s

/-- The length of the next chunk: `min(remaining-in-page, remaining-data)` (R174). -/
def chunkLen (pageLen addr n : Nat) : Nat :=
  min (pageLen - addr % pageLen) n

/-- The loop of `WriteSpanning` on the bytes that remain (R174). `fuel` bounds the number of chunks; the length of
the data is enough, since a chunk is never empty. -/
def writeSpanningLoop (fuel addr : Nat) (data : List Byte) (s : State) : Status × State :=
  match data with
  | [] => (.ok, s)
  | _ :: _ =>
    match fuel with
    | 0 => (.fail, s)
    | fuel + 1 =>
      match memWrite addr (data.take (chunkLen s.params.pageLen addr data.length)) s with
      | (.fail, s1) => (.fail, s1)
      | (.ok, s1) =>
        match data.drop (chunkLen s.params.pageLen addr data.length) with
        | [] => (.ok, s1)
        | b :: rest =>
          match readyWait s1 with
          | (false, s2) => (.fail, s2)
          | (true, s2) =>
            writeSpanningLoop fuel (addr + chunkLen s.params.pageLen addr data.length) (b :: rest) s2

/-- `WriteSpanning(start, data)`, R174. -/
def writeSpanning (start : Nat) (data : List Byte) (s : State) : Status × State :=
  writeSpanningLoop data.length start data s

/-- The chunks `(addr, length)` of R174 and R175 when every transfer succeeds. -/
def chunks (fuel pageLen addr n : Nat) : List (Nat × Nat) :=
  match fuel with
  | 0 => []
  | fuel + 1 =>
    if n = 0 then []
    else
      (addr, chunkLen pageLen addr n)
        :: chunks fuel pageLen (addr + chunkLen pageLen addr n) (n - chunkLen pageLen addr n)

/-- The end of a log command whose last act was an NVM write. -/
def finishLogWrite (r : Status × State) : State :=
  match r with
  | (.ok, s1) => finish .log eNone true 0 s1
  | (.fail, s1) => finishTransport .log s1

/-- `LOG.ERASE start, length`, R176. A region past `2^32` is refused: U6 (b), unspecified, with the treatment the
spec gives it (DESIGN CHOICE, log 8). -/
def execLogErase (start length : Nat) (s : State) : Host.Outcome State Fault Refusal :=
  .next (if 4294967296 < start + length then refuse s
    else finishLogWrite (writeSpanning start (List.replicate length 0xFF) s))

end Sys2Proof.Machine
end

