-- ==== Sys2Proof/Machine/MeasurementLog.lean ====
section
/-!
DEFINITION. The measurement log, `45_measurement_log.md` R190 to R199. The block keeps no copy of the header (R192).
-/

namespace Sys2Proof

/-- `CAP = floor(PAGE_LEN * FREE_PAGES / 7)`, R191. -/
def Params.cap (p : Params) : Nat := p.pageLen * p.freePages / 7

end Sys2Proof

namespace Sys2Proof.Machine

/-- Header offsets and the record width (R52, R53). -/
def tsOffset : Nat := 0
/-- The entry counter's offset (R52). -/
def cntOffset : Nat := 8
/-- The capacity's offset (R52). -/
def capOffset : Nat := 10

/-- The address of record `n`, `PAGE_LEN + 7 * n` (R52). -/
def recordAddr (p : Params) (n : Nat) : Nat := p.pageLen + 7 * n

/-- `ReadHeader()`, R192: counter first, then capacity; `none` is `FAIL`. -/
def readHeader (s : State) : Option (Nat × Nat) × State :=
  match memRead cntOffset 2 s with
  | (none, s1) => (none, s1)
  | (some b, s1) =>
    match memRead capOffset 2 s1 with
    | (none, s2) => (none, s2)
    | (some b', s2) => (some (ube b, ube b'), s2)

/-- A direct header accessor (R196 to R198). -/
def readField (offset n : Nat) (s : State) : State :=
  match memRead offset n s with
  | (none, s1) => finishTransport .log s1
  | (some b, s1) => finish .log eNone true (bytesData b) s1

/-- The tests of `LOG.GET` in their order: Empty, Bounds, Overflow-Read; 0 where none holds (R195). -/
def getCause (cnt cap index : Nat) : Half :=
  if cnt = 0 then eStorageEmpty
  else if cap ≤ index ∨ cap < cnt then eStorageBounds
  else if cnt ≤ index then eStorageOvfRead
  else eNone

/-- The end of `LOG.APPEND` once the record is written: the counter, then the overflow test (R194). -/
def appendCounter (cnt cap : Nat) (s : State) : State :=
  match writeSpanning cntOffset (be16 (BitVec.ofNat 16 (cnt + 1))) s with
  | (.fail, s1) => finishTransport .log s1
  | (.ok, s1) => finish .log (raiseIf (decide (cap ≤ cnt + 1)) eStorageOverflow eNone) true 0 s1

/-- `LOG.INIT ts`, R193. -/
def execLogInit (ts : Data) (s : State) : Host.Outcome State Fault Refusal :=
  .next (match writeSpanning tsOffset (be64 ts) s with
    | (.fail, s1) => finishTransport .log s1
    | (.ok, s1) =>
      match writeSpanning cntOffset [0x00, 0x00] s1 with
      | (.fail, s2) => finishTransport .log s2
      | (.ok, s2) => finishLogWrite (writeSpanning capOffset (be16 (BitVec.ofNat 16 s2.params.cap)) s2))

/-- `LOG.APPEND id, deltaT, payload`, R194. A counter of `0xFFFF` is refused after the header reads: U6 (a),
unspecified, with the treatment the spec gives it (DESIGN CHOICE, log 7). -/
def execLogAppend (id : Byte) (deltaT : Half) (payload : Word) (s : State) : Host.Outcome State Fault Refusal :=
  .next (match readHeader s with
    | (none, s1) => finishTransport .log s1
    | (some (cnt, cap), s1) =>
      if cnt = 0xFFFF then refuse s1
      else
        match writeSpanning (recordAddr s1.params cnt) (serRecord (recordNumber id deltaT payload)) s1 with
        | (.fail, s2) => finishTransport .log s2
        | (.ok, s2) => appendCounter cnt cap s2)

/-- `LOG.GET index`, R195. -/
def execLogGet (index : Nat) (s : State) : Host.Outcome State Fault Refusal :=
  .next (match readHeader s with
    | (none, s1) => finishTransport .log s1
    | (some (cnt, cap), s1) =>
      if getCause cnt cap index = 0 then readField (recordAddr s1.params index) 7 s1
      else finish .log (getCause cnt cap index) false 0 s1)

/-- `LOG.RDCNT`, R196. -/
def execLogRdcnt (s : State) : Host.Outcome State Fault Refusal :=
  .next (readField cntOffset 2 s)

/-- `LOG.RDTS`, R197. -/
def execLogRdts (s : State) : Host.Outcome State Fault Refusal :=
  .next (readField tsOffset 8 s)

/-- `LOG.RDCAP`, R198. -/
def execLogRdcap (s : State) : Host.Outcome State Fault Refusal :=
  .next (readField capOffset 2 s)

end Sys2Proof.Machine
end

