-- ==== Sys2Proof/Machine/Dispatch.lean ====
section
/-!
DEFINITION. The dispatch of `30_encoding.md` R74: one arm per command, one direct call of its meaning.
-/

namespace Sys2Proof.Machine

def exec (i : Instr) (s : State) : Host.Outcome State Fault Refusal :=
  match i with
  | .csrr csr => Sys2Proof.Machine.execCsrr csr s
  | .csrw csr value => Sys2Proof.Machine.execCsrw csr value s
  | .csrs csr value => Sys2Proof.Machine.execCsrs csr value s
  | .csrc csr value => Sys2Proof.Machine.execCsrc csr value s
  | .convC2t raw => Sys2Proof.Machine.execConvC2t raw s
  | .convT2c t => Sys2Proof.Machine.execConvT2c t s
  | .rtdInit filter => Sys2Proof.Machine.execRtdInit filter s
  | .rtdRead1 => Sys2Proof.Machine.execRtdRead1 s
  | .rtdStart => Sys2Proof.Machine.execRtdStart s
  | .rtdStop => Sys2Proof.Machine.execRtdStop s
  | .rtdRead => Sys2Proof.Machine.execRtdRead s
  | .rtdSethi t => Sys2Proof.Machine.execRtdSethi t s
  | .rtdSetlo t => Sys2Proof.Machine.execRtdSetlo t s
  | .rtdGethi => Sys2Proof.Machine.execRtdGethi s
  | .rtdGetlo => Sys2Proof.Machine.execRtdGetlo s
  | .fdAuto => Sys2Proof.Machine.execFdAuto s
  | .fdMstart => Sys2Proof.Machine.execFdMstart s
  | .fdMend => Sys2Proof.Machine.execFdMend s
  | .fdRdfault => Sys2Proof.Machine.execFdRdfault s
  | .logInit ts => Sys2Proof.Machine.execLogInit ts s
  | .logAppend id deltaT payload => Sys2Proof.Machine.execLogAppend id deltaT payload s
  | .logGet index => Sys2Proof.Machine.execLogGet index s
  | .logRdcnt => Sys2Proof.Machine.execLogRdcnt s
  | .logRdts => Sys2Proof.Machine.execLogRdts s
  | .logRdcap => Sys2Proof.Machine.execLogRdcap s
  | .logErase start length => Sys2Proof.Machine.execLogErase start length s

end Sys2Proof.Machine
end

