-- ==== Sys2Proof/WellFormed.lean ====
section
/-!
DEFINITION. The operand ranges of `30_encoding.md` R71: a command is well formed when each operand that is a number
fits the field the format gives it. Operands that are bit vectors fit by their width.
-/

namespace Sys2Proof

/-- `t` is an s32 (R71 format `T`, R75). -/
def Instr.tempInRange (t : Int) : Bool :=
  decide (-2147483648 ≤ t) && decide (t ≤ 2147483647)

/-- `index` is a u16 (R71 format `I`). -/
def Instr.indexInRange (n : Nat) : Bool :=
  decide (n < 65536)

/-- `start` and `length` are u32 (R71 format `E`). -/
def Instr.wordInRange (n : Nat) : Bool :=
  decide (n < 4294967296)

/-- Every operand of the command fits its field (R71). -/
def Instr.wellFormed (i : Instr) : Bool :=
  match i with
  | .csrr _ => true
  | .csrw _ _ => true
  | .csrs _ _ => true
  | .csrc _ _ => true
  | .convC2t _ => true
  | .convT2c t => Instr.tempInRange t
  | .rtdInit _ => true
  | .rtdRead1 => true
  | .rtdStart => true
  | .rtdStop => true
  | .rtdRead => true
  | .rtdSethi t => Instr.tempInRange t
  | .rtdSetlo t => Instr.tempInRange t
  | .rtdGethi => true
  | .rtdGetlo => true
  | .fdAuto => true
  | .fdMstart => true
  | .fdMend => true
  | .fdRdfault => true
  | .logInit _ => true
  | .logAppend _ _ _ => true
  | .logGet index => Instr.indexInRange index
  | .logRdcnt => true
  | .logRdts => true
  | .logRdcap => true
  | .logErase start length => Instr.wordInRange start && Instr.wordInRange length

end Sys2Proof
end

