-- ==== Sys2Proof/Decode.lean ====
section
/-!
DEFINITION. The command decoder and, after it, the encoder, both from the encoding tables of `30_encoding.md`
(R70, R71, R74, R75). Decoding is total: every opcode outside R74 is rejected by name (R76), every operand bit a
format does not name is ignored (R77).
-/

namespace Sys2Proof

/-- Why a command word is no command: its opcode is one of the 230 of R76. -/
inductive DecodeError where
  | illegalOpcode (op : BitVec 8)
  deriving DecidableEq, Repr

/-- `op = w[71:64]` (R70). -/
def opField (w : Command) : BitVec 8 := w.extractLsb' 64 8

/-- `arg = w[63:0]` (R70). -/
def argField (w : Command) : Data := w.extractLsb' 0 64

/-! Operand extraction, one definition per operand of R71. -/

/-- Format `C`, `arg[39:32]`. -/
def csrField (a : Data) : BitVec 8 := a.extractLsb' 32 8

/-- Format `C`, `arg[31:0]`. -/
def valueField (a : Data) : Word := a.extractLsb' 0 32

/-- Format `K`, `arg[15:0]`. -/
def rawField (a : Data) : Half := a.extractLsb' 0 16

/-- Format `T`, `sext_32(arg[31:0])` (R75). -/
def tempField (a : Data) : Int := (a.extractLsb' 0 32).toInt

/-- Format `F`, `arg[0]`. -/
def filterField (a : Data) : Bool := a.getLsbD 0

/-- Format `R`, `arg[55:48]`. -/
def idField (a : Data) : Byte := a.extractLsb' 48 8

/-- Format `R`, `arg[47:32]`. -/
def deltaField (a : Data) : Half := a.extractLsb' 32 16

/-- Format `R`, `arg[31:0]`. -/
def payloadField (a : Data) : Word := a.extractLsb' 0 32

/-- Format `I`, `arg[15:0]` as an unsigned number. -/
def indexField (a : Data) : Nat := (a.extractLsb' 0 16).toNat

/-- Format `E`, `arg[63:32]` as an unsigned number. -/
def startField (a : Data) : Nat := (a.extractLsb' 32 32).toNat

/-- Format `E`, `arg[31:0]` as an unsigned number. -/
def lengthField (a : Data) : Nat := (a.extractLsb' 0 32).toNat

/-- The command with opcode `op` and operand field `a` (R74). -/
def decodeOp (op : BitVec 8) (a : Data) : Except DecodeError Instr :=
  match op.toNat with
  | 0x01 => .ok (.csrr (csrField a))
  | 0x02 => .ok (.csrw (csrField a) (valueField a))
  | 0x03 => .ok (.csrs (csrField a) (valueField a))
  | 0x04 => .ok (.csrc (csrField a) (valueField a))
  | 0x10 => .ok (.convC2t (rawField a))
  | 0x11 => .ok (.convT2c (tempField a))
  | 0x20 => .ok (.rtdInit (filterField a))
  | 0x21 => .ok .rtdRead1
  | 0x22 => .ok .rtdStart
  | 0x23 => .ok .rtdStop
  | 0x24 => .ok .rtdRead
  | 0x25 => .ok (.rtdSethi (tempField a))
  | 0x26 => .ok (.rtdSetlo (tempField a))
  | 0x27 => .ok .rtdGethi
  | 0x28 => .ok .rtdGetlo
  | 0x30 => .ok .fdAuto
  | 0x31 => .ok .fdMstart
  | 0x32 => .ok .fdMend
  | 0x33 => .ok .fdRdfault
  | 0x40 => .ok (.logInit a)
  | 0x41 => .ok (.logAppend (idField a) (deltaField a) (payloadField a))
  | 0x42 => .ok (.logGet (indexField a))
  | 0x43 => .ok .logRdcnt
  | 0x44 => .ok .logRdts
  | 0x45 => .ok .logRdcap
  | 0x46 => .ok (.logErase (startField a) (lengthField a))
  | _ => .error (.illegalOpcode op)

/-- Decoding of a command word (R74): the match is on the opcode only. -/
def decode (w : Command) : Except DecodeError Instr :=
  decodeOp (opField w) (argField w)

/-! The encoder. -/

/-- The opcode of R74. -/
def Instr.opcode (i : Instr) : BitVec 8 :=
  match i with
  | .csrr _ => 0x01
  | .csrw _ _ => 0x02
  | .csrs _ _ => 0x03
  | .csrc _ _ => 0x04
  | .convC2t _ => 0x10
  | .convT2c _ => 0x11
  | .rtdInit _ => 0x20
  | .rtdRead1 => 0x21
  | .rtdStart => 0x22
  | .rtdStop => 0x23
  | .rtdRead => 0x24
  | .rtdSethi _ => 0x25
  | .rtdSetlo _ => 0x26
  | .rtdGethi => 0x27
  | .rtdGetlo => 0x28
  | .fdAuto => 0x30
  | .fdMstart => 0x31
  | .fdMend => 0x32
  | .fdRdfault => 0x33
  | .logInit _ => 0x40
  | .logAppend _ _ _ => 0x41
  | .logGet _ => 0x42
  | .logRdcnt => 0x43
  | .logRdts => 0x44
  | .logRdcap => 0x45
  | .logErase _ _ => 0x46

/-- Format `C`: `csr` in `arg[39:32]`, `value` in `arg[31:0]`. -/
def argC (csr : BitVec 8) (value : Word) : Data := 0#24 ++ csr ++ value

/-- Format `T`: `t` as two's complement in `arg[31:0]`. -/
def argT (t : Int) : Data := 0#32 ++ BitVec.ofInt 32 t

/-- The operand field of R71; bits a format does not name are written 0 (R77). -/
def Instr.arg (i : Instr) : Data :=
  match i with
  | .csrr csr => argC csr 0
  | .csrw csr value => argC csr value
  | .csrs csr value => argC csr value
  | .csrc csr value => argC csr value
  | .convC2t raw => 0#48 ++ raw
  | .convT2c t => argT t
  | .rtdInit filter => 0#63 ++ BitVec.ofBool filter
  | .rtdRead1 => 0
  | .rtdStart => 0
  | .rtdStop => 0
  | .rtdRead => 0
  | .rtdSethi t => argT t
  | .rtdSetlo t => argT t
  | .rtdGethi => 0
  | .rtdGetlo => 0
  | .fdAuto => 0
  | .fdMstart => 0
  | .fdMend => 0
  | .fdRdfault => 0
  | .logInit ts => ts
  | .logAppend id deltaT payload => 0#8 ++ id ++ deltaT ++ payload
  | .logGet index => 0#48 ++ BitVec.ofNat 16 index
  | .logRdcnt => 0
  | .logRdts => 0
  | .logRdcap => 0
  | .logErase start length => BitVec.ofNat 32 start ++ BitVec.ofNat 32 length

/-- The command word `{op, arg}` (R70). -/
def encode (i : Instr) : Command := i.opcode ++ i.arg

/-- The bits of the command word that R71 gives the command a meaning for: the opcode and the named operand fields
(for `CSRR` not `value`, which R91 ignores). -/
def Instr.usedBits (i : Instr) : Command :=
  match i with
  | .csrr _ => 0xFF000000FF00000000
  | .csrw _ _ => 0xFF000000FFFFFFFFFF
  | .csrs _ _ => 0xFF000000FFFFFFFFFF
  | .csrc _ _ => 0xFF000000FFFFFFFFFF
  | .convC2t _ => 0xFF000000000000FFFF
  | .convT2c _ => 0xFF00000000FFFFFFFF
  | .rtdInit _ => 0xFF0000000000000001
  | .rtdRead1 => 0xFF0000000000000000
  | .rtdStart => 0xFF0000000000000000
  | .rtdStop => 0xFF0000000000000000
  | .rtdRead => 0xFF0000000000000000
  | .rtdSethi _ => 0xFF00000000FFFFFFFF
  | .rtdSetlo _ => 0xFF00000000FFFFFFFF
  | .rtdGethi => 0xFF0000000000000000
  | .rtdGetlo => 0xFF0000000000000000
  | .fdAuto => 0xFF0000000000000000
  | .fdMstart => 0xFF0000000000000000
  | .fdMend => 0xFF0000000000000000
  | .fdRdfault => 0xFF0000000000000000
  | .logInit _ => 0xFFFFFFFFFFFFFFFFFF
  | .logAppend _ _ _ => 0xFF00FFFFFFFFFFFFFF
  | .logGet _ => 0xFF000000000000FFFF
  | .logRdcnt => 0xFF0000000000000000
  | .logRdts => 0xFF0000000000000000
  | .logRdcap => 0xFF0000000000000000
  | .logErase _ _ => 0xFFFFFFFFFFFFFFFFFF

/-- The mnemonic of R74. -/
def Instr.mnemonic (i : Instr) : String :=
  match i with
  | .csrr _ => "CSRR"
  | .csrw _ _ => "CSRW"
  | .csrs _ _ => "CSRS"
  | .csrc _ _ => "CSRC"
  | .convC2t _ => "CONV.C2T"
  | .convT2c _ => "CONV.T2C"
  | .rtdInit _ => "RTD.INIT"
  | .rtdRead1 => "RTD.READ1"
  | .rtdStart => "RTD.START"
  | .rtdStop => "RTD.STOP"
  | .rtdRead => "RTD.READ"
  | .rtdSethi _ => "RTD.SETHI"
  | .rtdSetlo _ => "RTD.SETLO"
  | .rtdGethi => "RTD.GETHI"
  | .rtdGetlo => "RTD.GETLO"
  | .fdAuto => "FD.AUTO"
  | .fdMstart => "FD.MSTART"
  | .fdMend => "FD.MEND"
  | .fdRdfault => "FD.RDFAULT"
  | .logInit _ => "LOG.INIT"
  | .logAppend _ _ _ => "LOG.APPEND"
  | .logGet _ => "LOG.GET"
  | .logRdcnt => "LOG.RDCNT"
  | .logRdts => "LOG.RDTS"
  | .logRdcap => "LOG.RDCAP"
  | .logErase _ _ => "LOG.ERASE"

/-- The command word whose low `nbits` bits are `w` and whose other bits are 0. A command is one 72-bit word (R70),
so the opcode table's bit numbers are the word's. -/
def tableWord (nbits w : Nat) : Command := BitVec.ofNat 72 (w % 2 ^ nbits)

/-- The command the decoder reads from a word given as the opcode table numbers its bits. -/
def decodeTableWord (nbits w : Nat) : Option Instr :=
  match decode (tableWord nbits w) with
  | .ok i => some i
  | .error _ => none

end Sys2Proof
end

