-- ==== Sys2Proof/Machine/Port.lean ====
section
/-!
DEFINITION. The host port around a command: taking the host's next command (`10_state.md` R11, `30_encoding.md` R79),
what happens around its execution, and the reset input (`70_reset_and_hazards.md` R240, R241).
-/

namespace Sys2Proof.Machine

/-- The host's next command, if it has one (R11). -/
def nextCommand (s : State) : Option Command :=
  s.program[s.pc]?

/-- After a step the host goes on to its next command (R11), and the reset input to its next value. -/
def advance (s : State) : State :=
  { s with pc := s.pc + 1, resets := s.resets.tail }

/-- The reset input during the coming step: `some k` where it is asserted, after `k` events (log 11). -/
def resetInput (s : State) : Option Nat :=
  s.resets.headD none

/-- The events that lead from `s` to `t`. -/
def newEvents (s t : State) : List Event :=
  t.trace.drop s.trace.length

/-- The state `s` with the events `es` performed and nothing else of their command (R241). -/
def performed (es : List Event) (s : State) : State :=
  { s with env := s.env.replay es, trace := s.trace ++ es }

/-- A command that would take `s` to `t`, cut by the reset input after `k` events: these stay performed, no further
event, no response, no notification; then the registers are reset (R241). -/
def cutShort (k : Nat) (s t : State) : State :=
  hardReset (performed ((newEvents s t).take k) s)

/-- The step whose command would take `s` to `t`: the command answers and the host goes on, unless the reset input
cuts it; a reset input that comes after the command's last event and response resets the registers then (log 11). -/
def commit (s t : State) : State :=
  match resetInput s with
  | none => advance t
  | some k =>
    if (newEvents s t).length < k then hardReset (advance t)
    else advance (cutShort k s t)

/-- A step with no command pending: idle, which has no architectural effect (R237), or reset. -/
def idle (s : State) : State :=
  match resetInput s with
  | none => { s with resets := s.resets.tail }
  | some _ => hardReset { s with resets := s.resets.tail }

/-- The state whose next command is `w`: the host's list holds `w` at the index of the next command (R11, log 9). -/
def placeCommand (w : Command) (s : State) : State :=
  { s with
    program := s.program.take s.pc ++ List.replicate (s.pc - s.program.length) 0 ++ w :: s.program.drop (s.pc + 1) }

end Sys2Proof.Machine
end

