-- ==== Sys2Proof/Machine/Step.lean ====
section
/-!
DEFINITION. One step of the machine: the host's next command, decoded and executed whole (`10_state.md` R10,
`30_encoding.md` R79); an illegal command is refused with a response (R76).
-/

namespace Sys2Proof.Machine

/-- One step. -/
def step (s : State) : Host.Outcome State Fault Refusal :=
  match nextCommand s with
  | none => .next (idle s)
  | some w =>
    match decode w with
    | .error _ => .next (commit s (refuse s))
    | .ok i =>
      match exec i s with
      | .next t => .next (commit s t)
      | .fault r => .fault r
      | .refused r => .refused r

/-- `s` with the command word `w` of the opcode table as the host's next command. -/
def State.withFetchWord (s : State) (nbits w : Nat) : State :=
  placeCommand (tableWord nbits w) s

end Sys2Proof.Machine
end

