-- ==== Sys2Proof/Machine/Assembler.lean ====
section
/-!
DEFINITION. The assembler text of `30_encoding.md` R81 and the pseudo-instructions of R82. What R81 leaves open (blanks,
the case of hexadecimal digits, the sign of a hexadecimal `t`, operands out of range) is a DESIGN CHOICE, log 18.
-/

namespace Sys2Proof.Machine

/-- A blank between tokens. -/
def isBlank (c : Char) : Bool := c == ' ' || c == '\t'

/-- A text without blanks at either side. -/
def trimBlanks (t : List Char) : List Char :=
  (((t.dropWhile isBlank).reverse).dropWhile isBlank).reverse

/-- The parts of a text between commas. -/
def splitCommas (t : List Char) : List (List Char) :=
  match t with
  | [] => [[]]
  | c :: rest =>
    if c = ',' then [] :: splitCommas rest
    else
      match splitCommas rest with
      | [] => [[c]]
      | p :: ps => (c :: p) :: ps

/-- The value of a hexadecimal digit. -/
def digitValue (c : Char) : Option Nat :=
  if 48 ≤ c.toNat ∧ c.toNat ≤ 57 then some (c.toNat - 48)
  else if 65 ≤ c.toNat ∧ c.toNat ≤ 70 then some (c.toNat - 55)
  else if 97 ≤ c.toNat ∧ c.toNat ≤ 102 then some (c.toNat - 87)
  else none

/-- The number written with digits below `base`, after the value `acc`. -/
def digitsValue (base acc : Nat) (t : List Char) : Option Nat :=
  match t with
  | [] => some acc
  | c :: rest =>
    match digitValue c with
    | none => none
    | some d => if d < base then digitsValue base (acc * base + d) rest else none

/-- An unsigned number: decimal, or `0x` and hexadecimal digits. -/
def parseNat (t : List Char) : Option Nat :=
  match t with
  | [] => none
  | '0' :: 'x' :: d :: ds => digitsValue 16 0 (d :: ds)
  | c :: cs => digitsValue 10 0 (c :: cs)

/-- The `t` operand: optionally a leading `-` (R81). DESIGN CHOICE, log 18: R81 does not say how a hexadecimal `t` with
bit 31 set is read; here hexadecimal is the unsigned number its digits write, never the s32 pattern of R100, so
`0xFFFFFC00` is 4294966272, which is no s32 (`-1024` is written `-1024` or `-0x400`). -/
def parseInt (t : List Char) : Option Int :=
  match t with
  | '-' :: rest => (parseNat rest).map fun n => -(n : Int)
  | _ => (parseNat t).map fun n => (n : Int)

/-- An unsigned number of `w` bits. -/
def parseBits (w : Nat) (t : List Char) : Option (BitVec w) :=
  match parseNat t with
  | none => none
  | some n => if n < 2 ^ w then some (BitVec.ofNat w n) else none

/-- The nine CSR names of R81. -/
def csrNames : List (String × Csr) :=
  [("CTRL", .ctrl), ("FD_POLL_MAX", .fdPollMax), ("POLL_INTERVAL", .pollInterval), ("FD_SETTLE", .fdSettle),
   ("OS_POLL_MAX", .osPollMax), ("BLK_ATTEMPT_MAX", .blkAttemptMax), ("BLK_READY_MAX", .blkReadyMax),
   ("BLK_TIMEOUT", .blkTimeout), ("FD_STATUS", .fdStatus)]

/-- A CSR operand: by name or by number. -/
def parseCsr (t : List Char) : Option (BitVec 8) :=
  match csrNames.find? fun e => e.1.toList == t with
  | some e => some (csrAddr e.2)
  | none => parseBits 8 t

/-- A command with operands `csr, value`. -/
def asmCsr (f : BitVec 8 → Word → Instr) (ops : List (List Char)) : Option Instr :=
  match ops with
  | [a, v] =>
    match parseCsr a, parseBits 32 v with
    | some a, some v => some (f a v)
    | _, _ => none
  | _ => none

/-- A command with the operand `t`. -/
def asmTemp (f : Int → Instr) (ops : List (List Char)) : Option Instr :=
  match ops with
  | [t] => (parseInt t).map f
  | _ => none

/-- A command with no operand. -/
def asmNone (i : Instr) (ops : List (List Char)) : Option Instr :=
  match ops with
  | [] => some i
  | _ => none

/-- A command with one operand of `w` bits. -/
def asmBits (w : Nat) (f : BitVec w → Instr) (ops : List (List Char)) : Option Instr :=
  match ops with
  | [v] => (parseBits w v).map f
  | _ => none

/-- `LOG.APPEND id, deltaT, payload`. -/
def asmRecord (ops : List (List Char)) : Option Instr :=
  match ops with
  | [i, d, p] =>
    match parseBits 8 i, parseBits 16 d, parseBits 32 p with
    | some i, some d, some p => some (.logAppend i d p)
    | _, _, _ => none
  | _ => none

/-- `LOG.ERASE start, length`. -/
def asmRegion (ops : List (List Char)) : Option Instr :=
  match ops with
  | [a, n] =>
    match parseNat a, parseNat n with
    | some a, some n => some (.logErase a n)
    | _, _ => none
  | _ => none

/-- The pseudo-instructions of R82. -/
inductive Pseudo where
  | rtdAttach
  | rtdDetach
  | logAttach
  | logDetach
  | drdyAttach
  | drdyDetach
  deriving DecidableEq, Repr

/-- The one command a pseudo-instruction stands for (R82). -/
def expandPseudo (p : Pseudo) : Instr :=
  match p with
  | .rtdAttach => .csrs (csrAddr .ctrl) 0x1
  | .rtdDetach => .csrc (csrAddr .ctrl) 0x1
  | .logAttach => .csrs (csrAddr .ctrl) 0x2
  | .logDetach => .csrc (csrAddr .ctrl) 0x2
  | .drdyAttach => .csrs (csrAddr .ctrl) 0x4
  | .drdyDetach => .csrc (csrAddr .ctrl) 0x4

/-- The mnemonics with their operand forms, by unit (R74, R81, R82). -/
def asmTable : List (String × (List (List Char) → Option Instr)) :=
  [("CSRR", fun ops => match ops with
      | [a] => (parseCsr a).map .csrr
      | _ => none),
   ("CSRW", asmCsr .csrw), ("CSRS", asmCsr .csrs), ("CSRC", asmCsr .csrc),
   ("CONV.C2T", asmBits 16 .convC2t), ("CONV.T2C", asmTemp .convT2c),
   ("RTD.INIT", asmBits 1 fun b => .rtdInit (b == 1)), ("RTD.READ1", asmNone .rtdRead1),
   ("RTD.START", asmNone .rtdStart), ("RTD.STOP", asmNone .rtdStop), ("RTD.READ", asmNone .rtdRead),
   ("RTD.SETHI", asmTemp .rtdSethi), ("RTD.SETLO", asmTemp .rtdSetlo),
   ("RTD.GETHI", asmNone .rtdGethi), ("RTD.GETLO", asmNone .rtdGetlo),
   ("FD.AUTO", asmNone .fdAuto), ("FD.MSTART", asmNone .fdMstart), ("FD.MEND", asmNone .fdMend),
   ("FD.RDFAULT", asmNone .fdRdfault),
   ("LOG.INIT", asmBits 64 .logInit), ("LOG.APPEND", asmRecord),
   ("LOG.GET", asmBits 16 fun v => .logGet v.toNat), ("LOG.RDCNT", asmNone .logRdcnt),
   ("LOG.RDTS", asmNone .logRdts), ("LOG.RDCAP", asmNone .logRdcap), ("LOG.ERASE", asmRegion),
   ("RTD.ATTACH", asmNone (expandPseudo .rtdAttach)), ("RTD.DETACH", asmNone (expandPseudo .rtdDetach)),
   ("LOG.ATTACH", asmNone (expandPseudo .logAttach)), ("LOG.DETACH", asmNone (expandPseudo .logDetach)),
   ("DRDY.ATTACH", asmNone (expandPseudo .drdyAttach)), ("DRDY.DETACH", asmNone (expandPseudo .drdyDetach))]

/-- The operand texts of a line after its mnemonic. -/
def operandTexts (t : List Char) : List (List Char) :=
  match trimBlanks t with
  | [] => []
  | c :: cs => (splitCommas (c :: cs)).map trimBlanks

/-- One line of assembler text as a command: `;` starts a comment, the mnemonic stands first, the operands follow
between commas (R81); an operand that does not fit its field makes the line no command (log 18). -/
def assembleLine (line : String) : Option Instr :=
  match (trimBlanks (line.toList.takeWhile fun c => c != ';')).span fun c => !isBlank c with
  | (m, rest) =>
    match asmTable.find? fun e => e.1.toList == m with
    | none => none
    | some e =>
      match e.2 (operandTexts rest) with
      | none => none
      | some i => if i.wellFormed then some i else none

/-- One line of assembler text as a command word (R81). -/
def assemble (line : String) : Option Command :=
  (assembleLine line).map encode

end Sys2Proof.Machine
end

