-- ==== Sys2Proof/Machine/FaultMicro.lean ====
section
/-!
DEFINITION. The small-step view of a fault-detection command, `43_fault_detection.md` R141: the sequencer's
micro-states, one step each with the events of its row. It is the same behaviour as the pseudocode (R141), stated as
`microRun` against `execFdAuto`, `execFdMstart` and `execFdMend`; `exec` itself is the big-step form.
-/

namespace Sys2Proof.Machine

/-- The three commands that walk the micro-states. -/
inductive FdCommand where
  | auto
  | mstart
  | mend
  deriving DecidableEq, Repr

/-- The micro-states of R141, and `answered` once `S_DONE` has given the response. -/
inductive FdMicro where
  | save
  | arm
  | pollRd
  | pollWait
  | settle
  | restore
  | done
  | answered
  deriving DecidableEq, Repr

/-- A fault-detection command under way: the transient values of R26 and R141 beside the state. -/
structure FdRun where
  cmd : FdCommand
  micro : FdMicro
  /-- `c0`, the configuration to restore. -/
  c0 : Byte
  /-- `v`; `none` while there is no verdict. -/
  verdict : Option Verdict
  /-- The poll counter. -/
  n : Nat
  /-- The error accumulator. -/
  err : Half
  state : State
  deriving DecidableEq, Repr

/-- `code` of the arming value: 1, 2 or 3 (R141). -/
def fdCode (c : FdCommand) : BitVec 2 :=
  match c with
  | .auto => 1
  | .mstart => 2
  | .mend => 3

/-- Where a command starts (R141), after the refusals of R145. -/
def fdBegin (c : FdCommand) (s : State) : FdRun :=
  match c with
  | .auto =>
    { cmd := c, micro := if s.regs.fdArmed then .answered else .save, c0 := 0, verdict := none, n := 0
      err := eNone, state := if s.regs.fdArmed then refuse s else s }
  | .mstart =>
    { cmd := c, micro := if s.regs.fdArmed then .answered else .save, c0 := 0, verdict := none, n := 0
      err := eNone, state := if s.regs.fdArmed then refuse s else s }
  | .mend =>
    { cmd := c, micro := if s.regs.fdArmed then .arm else .answered, c0 := s.regs.fdSaved, verdict := none, n := 0
      err := eNone, state := if s.regs.fdArmed then setFdArmed false s else refuse s }

/-- Row `S_SAVE`; `FD.AUTO` keeps the value in `FD_SAVED` at once (R146). -/
def microSave (r : FdRun) : FdRun :=
  match readConfig r.state with
  | (none, s1) => { r with micro := .done, err := r.err ||| eTransport, state := s1 }
  | (some c, s1) =>
    { r with micro := .arm, c0 := c, state := if r.cmd = .auto then setFdSaved c s1 else s1 }

/-- The part of row `S_ARM` after a successful write. -/
def microArmed (r : FdRun) (s1 : State) : FdRun :=
  match r.cmd with
  | .mstart =>
    { r with micro := .done, state := setFdState .running (setFdArmed true (setFdSaved r.c0 s1)) }
  | _ =>
    if 0 < s1.regs.fdPollBound then
      { r with micro := .pollRd, n := 0, state := setFdPolls 0 (setFdState .running s1) }
    else
      { r with micro := .restore, n := 0, verdict := some .stuck, state := setFdPolls 0 (setFdState .running s1) }

/-- Row `S_ARM`. -/
def microArm (r : FdRun) : FdRun :=
  match writeConfig (cyc r.c0 (fdCode r.cmd)) r.state with
  | (.ok, s1) => microArmed r s1
  | (.fail, s1) =>
    if r.cmd = .mstart then { r with micro := .done, err := r.err ||| eTransport, state := s1 }
    else { r with micro := .restore, verdict := some .abort, state := s1 }

/-- Row `S_POLL_RD`. -/
def microPollRd (r : FdRun) : FdRun :=
  match readConfig r.state with
  | (none, s1) =>
    { r with micro := .restore, verdict := some .abort, n := r.n + 1
             state := setFdPolls (BitVec.ofNat 16 (r.n + 1)) s1 }
  | (some c, s1) =>
    if cycleDone c then
      { r with micro := .settle, verdict := some .fin, n := r.n + 1
               state := setFdPolls (BitVec.ofNat 16 (r.n + 1)) s1 }
    else if r.n + 1 = s1.regs.fdPollBound then
      { r with micro := .restore, verdict := some .stuck, n := r.n + 1
               state := setFdPolls (BitVec.ofNat 16 (r.n + 1)) s1 }
    else
      { r with micro := .pollWait, n := r.n + 1, state := setFdPolls (BitVec.ofNat 16 (r.n + 1)) s1 }

/-- Row `S_POLL_WAIT`. -/
def microPollWait (r : FdRun) : FdRun :=
  { r with micro := .pollRd, state := delay r.state.regs.pollMs r.state }

/-- Row `S_SETTLE`. -/
def microSettle (r : FdRun) : FdRun :=
  { r with micro := .restore, state := delay r.state.regs.settleMs (setFdState .finished r.state) }

/-- The causes and the state of row `S_RESTORE` before its write. -/
def microVerdict (r : FdRun) : FdRun :=
  match r.verdict with
  | some .stuck => { r with err := r.err ||| eFdStuck, state := setFdState .stuck r.state }
  | some .abort => { r with err := r.err ||| eTransport }
  | _ => r

/-- Row `S_RESTORE`. -/
def microRestore (r : FdRun) : FdRun :=
  match writeConfig r.c0 (microVerdict r).state with
  | (st, s1) =>
    { r with micro := .done, err := raiseFail st (microVerdict r).err
             state := if r.verdict = some .abort then setFdState .idle s1 else s1 }

/-- `ok` of the response (R146 to R148). -/
def microOk (r : FdRun) : Bool :=
  match r.cmd with
  | .mstart => r.err == 0
  | _ => r.state.regs.fdState == .finished && r.err == 0

/-- One step of R141. -/
def microStep (r : FdRun) : FdRun :=
  match r.micro with
  | .save => microSave r
  | .arm => microArm r
  | .pollRd => microPollRd r
  | .pollWait => microPollWait r
  | .settle => microSettle r
  | .restore => microRestore r
  | .done => { r with micro := .answered, state := finish .rtd r.err (microOk r) 0 r.state }
  | .answered => r

/-- `k` steps of R141. -/
def microRun (k : Nat) (r : FdRun) : FdRun :=
  match k with
  | 0 => r
  | k + 1 => microRun k (microStep r)

end Sys2Proof.Machine
end

