-- ==== Sys2Proof/Safety.lean ====
section
/-!
DEFINITION. What claims about runs speak of: admissible parameters (`00_scope.md` R5), the CSRs by address and register
(`10_state.md` R13 to R20), the invariant of the state between commands, and the shapes a trace may have (`20_memory.md` R44, R54, R56, `60_exceptions.md` R213).
-/

namespace Sys2Proof.Machine

/-- A number fits an s32. -/
def fitsS32 (t : Int) : Bool :=
  decide (-2147483648 ≤ t) && decide (t ≤ 2147483647)

/-- The constraints of R5, R101 and R191 on the parameters. -/
def admissible (p : Params) : Bool :=
  decide (1 ≤ p.rref) && decide (p.rref ≤ 65535)
    && decide (1 ≤ p.aNum) && decide (p.aNum ≤ 65535)
    && decide (1 ≤ p.aDen) && decide (p.aDen ≤ 65535)
    && decide (12 ≤ p.pageLen) && decide (p.pageLen ≤ 65535)
    && decide (p.cap ≤ 65535)
    && fitsS32 (p.c2t 0) && fitsS32 (p.c2t 32767)

/-- A read-write CSR as R13 to R20 give it: its address, its implemented bits, its register. Statements about CSRs are
written with these rows, so that they do not rest on the decoding of CSR addresses that the commands use. -/
structure CsrRow where
  addr : BitVec 8
  mask : Word
  get : Regs → Word
  set : Word → Regs → Regs

/-- The eight read-write CSRs, R13 to R20 in order. -/
def csrRows : List CsrRow :=
  [⟨0x00, 0x00000007, fun r => r.ctrl, fun v r => { r with ctrl := v }⟩,
   ⟨0x01, 0x0000FFFF, fun r => r.fdPollMax, fun v r => { r with fdPollMax := v }⟩,
   ⟨0x02, 0x0000FFFF, fun r => r.pollInterval, fun v r => { r with pollInterval := v }⟩,
   ⟨0x03, 0x0000FFFF, fun r => r.fdSettle, fun v r => { r with fdSettle := v }⟩,
   ⟨0x04, 0x0000FFFF, fun r => r.osPollMax, fun v r => { r with osPollMax := v }⟩,
   ⟨0x05, 0x0000FFFF, fun r => r.blkAttemptMax, fun v r => { r with blkAttemptMax := v }⟩,
   ⟨0x06, 0x0000FFFF, fun r => r.blkReadyMax, fun v r => { r with blkReadyMax := v }⟩,
   ⟨0x07, 0x0000FFFF, fun r => r.blkTimeout, fun v r => { r with blkTimeout := v }⟩]

/-- The reserved bits of every CSR are 0 (R12). -/
def csrsClean (r : Regs) : Bool :=
  csrRows.all fun row => (row.get r &&& ~~~row.mask) == 0

/-- Every address of a memory is below `bound`. -/
def below (bound : Nat) (m : Memory) : Bool :=
  m.all fun e => decide (e.1 < bound)

/-- The invariant between commands: reserved CSR bits are 0 (R12); `FD_STATE = RUNNING` exactly when `FD_ARMED = 1`
(R141); the chip-select is deasserted (R44); both memories are canonical and inside their address spaces (R27). -/
def invariant (s : State) : Bool :=
  csrsClean s.regs
    && (s.regs.fdArmed == (s.regs.fdState == .running))
    && !s.regs.cs
    && s.env.rtdRegs.wf && below 8 s.env.rtdRegs
    && s.env.nvm.wf && below 4294967296 s.env.nvm

/-- A `BlkWrite` lies within one page (R54); every other event passes. -/
def withinPage (pageLen : Nat) (e : Event) : Bool :=
  match e with
  | .blkWrite _ addr bytes _ _ => decide (addr / pageLen = (addr + bytes.length - 1) / pageLen)
  | _ => true

/-- A Block Transport transfer lies within the 32-bit address space (R51); every other event passes. -/
def within32 (e : Event) : Bool :=
  match e with
  | .blkWrite _ addr bytes _ _ => decide (addr + bytes.length ≤ 4294967296)
  | .blkRead _ addr n _ _ _ => decide (addr + n ≤ 4294967296)
  | _ => true

/-- The mask of a notification has its reserved bits 15:13 clear and is not 0 (R210, R213). -/
def maskLegal (e : Event) : Bool :=
  match e with
  | .notify _ m => (m &&& 0xE000) == 0 && m != 0
  | _ => true

/-- An event is a notification. -/
def isNotify (e : Event) : Bool :=
  match e with
  | .notify _ _ => true
  | _ => false

/-- An event is of the Register Transport or of a pin (R43, R44, R47). -/
def isRtdSide (e : Event) : Bool :=
  match e with
  | .sel => true
  | .desel => true
  | .tx _ _ => true
  | .rx _ _ _ => true
  | .drdy _ => true
  | .delay _ => true
  | _ => false

/-- An event is of the Block Transport (R50). -/
def isNvmSide (e : Event) : Bool :=
  match e with
  | .blkWrite _ _ _ _ _ => true
  | .blkRead _ _ _ _ _ _ => true
  | .blkReady _ _ => true
  | _ => false

/-- Every transfer stands between a `Sel` and its `Desel`, nothing else does, and nothing stays selected (R44);
`opened` says whether the chip-select is asserted where the list starts. -/
def bracketed (opened : Bool) (es : List Event) : Bool :=
  match es with
  | [] => !opened
  | .sel :: rest => !opened && bracketed true rest
  | .desel :: rest => opened && bracketed false rest
  | .tx _ _ :: rest => opened && bracketed true rest
  | .rx _ _ _ :: rest => opened && bracketed true rest
  | _ :: rest => !opened && bracketed false rest

/-- The unit a command belongs to (R40, R213). -/
inductive Part where
  | csr
  | converter
  | rtd
  | log
  deriving DecidableEq, Repr

/-- The unit of a command, by its opcode group (R74). -/
def partOf (i : Instr) : Part :=
  match i with
  | .csrr _ => .csr
  | .csrw _ _ => .csr
  | .csrs _ _ => .csr
  | .csrc _ _ => .csr
  | .convC2t _ => .converter
  | .convT2c _ => .converter
  | .rtdInit _ => .rtd
  | .rtdRead1 => .rtd
  | .rtdStart => .rtd
  | .rtdStop => .rtd
  | .rtdRead => .rtd
  | .rtdSethi _ => .rtd
  | .rtdSetlo _ => .rtd
  | .rtdGethi => .rtd
  | .rtdGetlo => .rtd
  | .fdAuto => .rtd
  | .fdMstart => .rtd
  | .fdMend => .rtd
  | .fdRdfault => .rtd
  | .logInit _ => .log
  | .logAppend _ _ _ => .log
  | .logGet _ => .log
  | .logRdcnt => .log
  | .logRdts => .log
  | .logRdcap => .log
  | .logErase _ _ => .log

/-- How many milliseconds a list of events delays at least (R231, R265). -/
def totalDelay (es : List Event) : Nat :=
  match es with
  | [] => 0
  | .delay ms :: rest => ms + totalDelay rest
  | _ :: rest => totalDelay rest

/-- How many events of a list are of a kind. -/
def countEvents (kind : Event → Bool) (es : List Event) : Nat :=
  (es.filter kind).length

/-! The words statements are written in. A statement about a command names the events of a run, says that the
environment's replies are those of the events (`repliesOf`), and concludes what the command then does. -/

/-- The reply an event records is the one the environment gives. -/
def replyOf (v : Env) (e : Event) : Bool :=
  match e with
  | .tx bytes st => decide ((v.tx bytes).1 = st)
  | .rx n bytes st => decide ((v.rx n).1 = (bytes, st))
  | .drdy level => decide (v.takeDrdy.1 = level)
  | .blkWrite _ addr bytes _ st => decide ((v.blkWrite addr bytes).1 = st)
  | .blkRead _ addr n _ bytes st => decide ((v.blkRead addr n).1 = (bytes, st))
  | .blkReady _ bit => decide (v.takeBlkReady.1 = bit)
  | _ => true

/-- Every reply of a list of events is the one the environment gives at that point. -/
def repliesOf (v : Env) (es : List Event) : Bool :=
  match es with
  | [] => true
  | e :: rest => replyOf v e && repliesOf (v.apply e) rest

/-- The state `s` after exactly the events `es`, with registers `r`, and then the response `{ok, data}` (R56, R72).
All else is as before: the parameters and the host's side of the port. -/
def ended (s : State) (es : List Event) (r : Regs) (ok : Bool) (data : Data) : State :=
  respond ok data ((performed es s).withRegs r)

/-- The registers with the chip-select deasserted, as every register transaction leaves it (R44). -/
def deselected (r : Regs) : Regs := { r with cs := false }

/-- The notification of R213, where it is due. -/
def dueEv (s : State) (c : Comp) (err : Half) : List Event :=
  if err ≠ 0 ∧ s.regs.sinkEn c = true then [.notify c err] else []

/-- The events of a register read that succeeds (R111). -/
def readEv (a : Byte) (bytes : List Byte) : List Event :=
  [.sel, .tx [a] .ok, .rx bytes.length bytes .ok, .desel]

/-- The events of a register read of `n` bytes that fails (R111): at its `Tx`, or with the bytes given at its `Rx`. -/
def lostReadEv (a : Byte) (n : Nat) (at_ : Option (List Byte)) : List Event :=
  match at_ with
  | none => [.sel, .tx [a] .fail, .desel]
  | some b => [.sel, .tx [a] .ok, .rx n b .fail, .desel]

/-- The events of a register write that is answered `st` (R112). -/
def writeEv (a : Byte) (bytes : List Byte) (st : Status) : List Event :=
  [.sel, .tx ((a ||| 0x80) :: bytes) st, .desel]

/-- Polls one after another with a delay between two of them (R115, R143). -/
def spaced (ms : Nat) (polls : List (List Event)) : List Event :=
  (List.intersperse [Event.delay ms] polls).flatten

/-- The temperature of a register pair as a response's data (R41, R75, R113). -/
def pairTemp (p : Params) (msb lsb : Byte) : Data :=
  0#32 ++ BitVec.ofInt 32 (p.c2t ((msb.toNat * 256 + lsb.toNat) / 2))

/-- A ready test of R115 that found "not ready": the data-ready line at level 1, or `CONFIG` with the one-shot bit
set. -/
def notReadyTest (s : State) (es : List Event) : Prop :=
  if s.regs.ctrl.getLsbD 2 then es = [.drdy true] else ∃ c, es = readEv 0x00 [c] ∧ c &&& 0x20 ≠ 0

/-- A ready test of R115 that found "ready". -/
def isReadyTest (s : State) (es : List Event) : Prop :=
  if s.regs.ctrl.getLsbD 2 then es = [.drdy false] else ∃ c, es = readEv 0x00 [c] ∧ c &&& 0x20 = 0

/-- The events of a poll loop of R143 with `n` reads and verdict `v`. -/
def fdPolled (s : State) (v : Verdict) (n : Nat) (es : List Event) : Prop :=
  ∃ cs : List Byte, (∀ c ∈ cs, c &&& 0x0C ≠ 0)
    ∧ match v with
      | .stuck =>
        n = cs.length ∧ n = s.regs.fdPollBound ∧ es = spaced s.regs.pollMs (cs.map fun c => readEv 0x00 [c])
      | .fin =>
        n = cs.length + 1 ∧ n ≤ s.regs.fdPollBound
          ∧ ∃ c : Byte, c &&& 0x0C = 0
              ∧ es = spaced s.regs.pollMs ((cs.map fun c => readEv 0x00 [c]) ++ [readEv 0x00 [c]])
      | .abort =>
        n = cs.length + 1 ∧ n ≤ s.regs.fdPollBound
          ∧ ∃ o, es = spaced s.regs.pollMs ((cs.map fun c => readEv 0x00 [c]) ++ [lostReadEv 0x00 1 o])

/-- The events of the common tail of R144: the settle delay where the cycle finished, the restore write. -/
def tailEv (s : State) (saved : Byte) (v : Verdict) (st : Status) : List Event :=
  (if v = .fin then [.delay s.regs.settleMs] else []) ++ writeEv 0x00 [saved] st

/-- The causes of a finished, stuck or aborted cycle and of its restore write (R144, R210). -/
def cycleMask (v : Verdict) (st : Status) : Half :=
  (if v = .stuck then 0x0080 else if v = .abort then 0x0001 else 0x0000)
    ||| (if st = .fail then 0x0001 else 0x0000)

/-- The state a verdict leads to (R144). -/
def verdictState (v : Verdict) : FdState :=
  match v with
  | .fin => .finished
  | .stuck => .stuck
  | .abort => .idle

/-- `k` ready polls that answer 0 and one that answers 1 (R173). -/
def readyAfter (s : State) (k : Nat) : List Event :=
  List.replicate k (.blkReady s.params.nvmDev false) ++ [.blkReady s.params.nvmDev true]

/-- A ready wait that is given up: every poll answers 0 (R173). -/
def neverReady (s : State) : List Event :=
  List.replicate s.regs.readyBound (.blkReady s.params.nvmDev false)

/-- Failed attempts, each followed by a ready wait that succeeds (R171, R172). -/
def attemptsEv (s : State) (lost : List (Event × Nat)) : List Event :=
  (lost.map fun l => l.1 :: readyAfter s l.2).flatten

/-- The attempts of a list fail and its ready waits stay within `BLK_READY_MAX`. -/
def lostAttempts (s : State) (isLost : Event → Prop) (lost : List (Event × Nat)) : Prop :=
  ∀ l ∈ lost, isLost l.1 ∧ l.2 < s.regs.readyBound

/-- The events of a retrying primitive that succeeds with the transfer `last`, within `BLK_ATTEMPT_MAX` attempts. -/
def retried (s : State) (isLost : Event → Prop) (last : Event) (es : List Event) : Prop :=
  ∃ lost, lostAttempts s isLost lost ∧ lost.length < s.regs.attemptBound ∧ es = attemptsEv s lost ++ [last]

/-- The events of a retrying primitive that fails: no attempt is allowed, or the last one fails, or the device never
becomes ready for another. -/
def gaveUp (s : State) (isLost : Event → Prop) (es : List Event) : Prop :=
  (s.regs.attemptBound = 0 ∧ es = [])
    ∨ ∃ lost e, lostAttempts s isLost lost ∧ isLost e
        ∧ ((lost.length + 1 = s.regs.attemptBound ∧ es = attemptsEv s lost ++ [e])
          ∨ (lost.length + 1 < s.regs.attemptBound ∧ es = attemptsEv s lost ++ e :: neverReady s))

/-- A write attempt (R50). -/
def putEv (s : State) (a : Nat) (v : List Byte) (st : Status) : Event :=
  .blkWrite s.params.nvmDev a v s.regs.timeoutMs st

/-- A read attempt (R50). -/
def getEv (s : State) (a n : Nat) (b : List Byte) (st : Status) : Event :=
  .blkRead s.params.nvmDev a n s.regs.timeoutMs b st

/-- The events of `MemWrite(a, v)` that returns `OK` (R171). -/
def putDone (s : State) (a : Nat) (v : List Byte) (es : List Event) : Prop :=
  retried s (fun e => e = putEv s a v .fail) (putEv s a v .ok) es

/-- The events of `MemWrite(a, v)` that returns `FAIL` (R171). -/
def putLost (s : State) (a : Nat) (v : List Byte) (es : List Event) : Prop :=
  gaveUp s (fun e => e = putEv s a v .fail) es

/-- The events of `MemRead(a, n)` that returns the bytes `b` (R172). -/
def getDone (s : State) (a : Nat) (b : List Byte) (es : List Event) : Prop :=
  retried s (fun e => ∃ x, e = getEv s a b.length x .fail) (getEv s a b.length b .ok) es

/-- The events of `MemRead(a, n)` that returns `FAIL` (R172). -/
def getLost (s : State) (a n : Nat) (es : List Event) : Prop :=
  gaveUp s (fun e => ∃ x, e = getEv s a n x .fail) es

/-- The chunks of R174 with their bytes. -/
def pieces (pageLen start : Nat) (data : List Byte) : List (Nat × List Byte) :=
  (chunks data.length pageLen start data.length).map fun c => (c.1, (data.drop (c.1 - start)).take c.2)

/-- The events of a `WriteSpanning` over the chunks given that returns `OK` (R174): a ready wait between two. -/
def spanDone (s : State) (cs : List (Nat × List Byte)) (es : List Event) : Prop :=
  match cs with
  | [] => es = []
  | c :: rest =>
    match rest with
    | [] => putDone s c.1 c.2 es
    | _ :: _ =>
      ∃ e1 k e2, putDone s c.1 c.2 e1 ∧ k < s.regs.readyBound ∧ spanDone s rest e2
        ∧ es = e1 ++ (readyAfter s k ++ e2)

/-- The events of a `WriteSpanning` over the chunks given that returns `FAIL` (R174): at a chunk, or at the ready wait
after one. -/
def spanLost (s : State) (cs : List (Nat × List Byte)) (es : List Event) : Prop :=
  match cs with
  | [] => False
  | c :: rest =>
    putLost s c.1 c.2 es
      ∨ rest ≠ [] ∧ ∃ e1, putDone s c.1 c.2 e1
          ∧ (es = e1 ++ neverReady s
            ∨ ∃ k e2, k < s.regs.readyBound ∧ spanLost s rest e2 ∧ es = e1 ++ (readyAfter s k ++ e2))

/-- An answer to a read transfer with the bytes given. -/
def given (bytes : List Byte) : GetReply := { st := .ok, bytes := bytes }

/-- An answer to a read transfer with the bytes the device holds. -/
def held : GetReply := { st := .ok, bytes := [] }

/-- An answer `OK` to a write transfer whose bytes the device stores. -/
def taken : PutReply := { st := .ok, landed := [] }

/-- The RTD device registers a command may write (R114 to R122, R142, R144, R149). -/
def rtdWritten (i : Instr) : List Nat :=
  match i with
  | .rtdInit _ => [0]
  | .rtdRead1 => [0]
  | .rtdStart => [0]
  | .rtdStop => [0]
  | .rtdSethi _ => [3, 4]
  | .rtdSetlo _ => [5, 6]
  | .fdAuto => [0]
  | .fdMstart => [0]
  | .fdMend => [0]
  | .fdRdfault => [0]
  | .csrr _ | .csrw _ _ | .csrs _ _ | .csrc _ _ | .convC2t _ | .convT2c _ | .rtdRead | .rtdGethi
  | .rtdGetlo | .logInit _ | .logAppend _ _ _ | .logGet _ | .logRdcnt | .logRdts | .logRdcap
  | .logErase _ _ => []

/-- The NVM addresses a command may write in a state (R176, R193, R194): the header for `LOG.INIT`; for `LOG.APPEND`
the counter and the record at the counter its header read gives; the region for `LOG.ERASE`. -/
def nvmWritten (i : Instr) (s : State) (x : Nat) : Prop :=
  match i with
  | .logInit _ => x < 12
  | .logAppend _ _ _ =>
    (8 ≤ x ∧ x < 10)
      ∨ ∃ cnt cap, (readHeader s).1 = some (cnt, cap)
          ∧ recordAddr s.params cnt ≤ x ∧ x < recordAddr s.params cnt + 7
  | .logErase start length => start ≤ x ∧ x < start + length
  | .csrr _ | .csrw _ _ | .csrs _ _ | .csrc _ _ | .convC2t _ | .convT2c _ | .rtdInit _ | .rtdRead1
  | .rtdStart | .rtdStop | .rtdRead | .rtdSethi _ | .rtdSetlo _ | .rtdGethi | .rtdGetlo | .fdAuto
  | .fdMstart | .fdMend | .fdRdfault | .logGet _ | .logRdcnt | .logRdts | .logRdcap => False

/-- The header's counter as the NVM holds it (R52). -/
def heldCounter (s : State) : Nat := ube [s.env.nvmByte 8, s.env.nvmByte 9]

/-- The header's capacity as the NVM holds it (R52). -/
def heldCapacity (s : State) : Nat := ube [s.env.nvmByte 10, s.env.nvmByte 11]

/-- The transitions of `FD_STATE` a fault-detection command may make (R141); a command that arms keeps the state
between commands in `RUNNING`. -/
def fdTransition (i : Instr) (f g : FdState) : Bool :=
  match i with
  | .fdAuto =>
    f == g || (f != .running && (g == .finished || g == .stuck || g == .idle))
  | .fdMstart => f == g || (f != .running && g == .running)
  | .fdMend => f == g && f != .running || f == .running && (g == .finished || g == .stuck || g == .idle)
  | .csrr _ | .csrw _ _ | .csrs _ _ | .csrc _ _ | .convC2t _ | .convT2c _ | .rtdInit _ | .rtdRead1
  | .rtdStart | .rtdStop | .rtdRead | .rtdSethi _ | .rtdSetlo _ | .rtdGethi | .rtdGetlo | .fdRdfault
  | .logInit _ | .logAppend _ _ _ | .logGet _ | .logRdcnt | .logRdts | .logRdcap | .logErase _ _ => f == g

/-- The two cases the spec leaves unspecified (U6): a counter that cannot be incremented, a region past the address
space. The model's outcome there is logs 7 and 8; no statement about completion speaks of it. -/
def unspecified (i : Instr) (s : State) : Prop :=
  match i with
  | .logAppend _ _ _ => ∃ cap, (readHeader s).1 = some (0xFFFF, cap)
  | .logErase start length => 4294967296 < start + length
  | .csrr _ | .csrw _ _ | .csrs _ _ | .csrc _ _ | .convC2t _ | .convT2c _ | .rtdInit _ | .rtdRead1
  | .rtdStart | .rtdStop | .rtdRead | .rtdSethi _ | .rtdSetlo _ | .rtdGethi | .rtdGetlo | .fdAuto
  | .fdMstart | .fdMend | .fdRdfault | .logInit _ | .logGet _ | .logRdcnt | .logRdts | .logRdcap => False

/-- A run of the machine never stops (R215). -/
def runsOn (k : Nat) (s : State) : Prop :=
  match k with
  | 0 => True
  | k + 1 => ∃ t, step s = .next t ∧ runsOn k t

end Sys2Proof.Machine
end

