-- ==== Sys2Proof/Certificates/Slice0/Obligations.lean ====
section
/-!
DEFINITION. The statements for the provers, in the order of the spec's files. A statement about a command names the
events of a run and says what the command does when the environment's replies are those of the events; `ended` pins
every field of the next state, so it is the command's frame as well.
-/

open Sys2Proof Sys2Proof.Machine

/-! ## The command word -/

/-- Tier 3, encoding. Every well-formed command, encoded by the formats of R71 and the opcodes of R74, decodes to
itself with every operand. -/
def Obligations.DecodeEncodeAgree : Prop :=
  ∀ i : Instr, i.wellFormed = true → decode (encode i) = .ok i

/-- The other direction: a word that decodes to a command decodes to a well-formed one, and encoding it again gives
the word's opcode and named operand bits, all other bits 0 (R71, R77). -/
def Obligations.DecodedCommandReencodes : Prop :=
  ∀ (w : Command) (i : Instr), decode w = .ok i → i.wellFormed = true ∧ encode i = w &&& i.usedBits

/-- R77: two words that differ only in bits the command's format does not name are the same command; the encoder
writes those bits 0. -/
def Obligations.ReservedOperandBitsIgnored : Prop :=
  (∀ (w w' : Command) (i : Instr), decode w = .ok i → w' &&& i.usedBits = w &&& i.usedBits → decode w' = .ok i)
    ∧ ∀ i : Instr, encode i &&& ~~~i.usedBits = 0

/-- R76: the opcodes that are no row of R74 are exactly those of the listed ranges, 230 of them; a word with one is
refused with a response, no event and no state change. What moves at the host's side of the port is the model's form of
it: the index of the host's next command (R11, log 10) and the reset input's script (log 11). -/
def Obligations.IllegalOpcodesRefused : Prop :=
  (∀ w : Command, decode w = .error (.illegalOpcode (opField w))
      ↔ (opField w).toNat = 0
        ∨ 0x05 ≤ (opField w).toNat ∧ (opField w).toNat ≤ 0x0F
        ∨ 0x12 ≤ (opField w).toNat ∧ (opField w).toNat ≤ 0x1F
        ∨ 0x29 ≤ (opField w).toNat ∧ (opField w).toNat ≤ 0x2F
        ∨ 0x34 ≤ (opField w).toNat ∧ (opField w).toNat ≤ 0x3F
        ∨ 0x47 ≤ (opField w).toNat)
    ∧ ((List.range 256).filter fun n =>
        match decodeOp (BitVec.ofNat 8 n) 0 with
        | .ok _ => false
        | .error _ => true).length = 230
    ∧ ∀ (s : State) (w : Command) (e : DecodeError),
        nextCommand s = some w → resetInput s = none → decode w = .error e →
          step s = .next { s with
            pc := s.pc + 1, resets := s.resets.tail, responses := s.responses ++ [{ ok := false, data := 0 }] }

/-- Tier 1. Command words that the spec's own rules and vectors write out decode to the commands they stand for. -/
def Obligations.SpecWordsDecode : Prop :=
  decode 0x010000000800000000 = .ok (.csrr 0x08)
    ∧ decode 0x020000000100000003 = .ok (.csrw 0x01 3)
    ∧ decode 0x100000000000003B88 = .ok (.convC2t 0x3B88)
    ∧ decode 0x2500000000FFFFFC00 = .ok (.rtdSethi (-1024))
    ∧ decode 0x200000000000000001 = .ok (.rtdInit true)
    ∧ decode 0x310000000000000000 = .ok .fdMstart
    ∧ decode 0x41002A003C00001234 = .ok (.logAppend 0x2A 60 0x1234)
    ∧ decode 0x46000000780000012C = .ok (.logErase 120 300)

/-! ## The step -/

/-- Tier 1. When the host's next command decodes to `i` and the reset input is not asserted, the step is `exec i`,
after which the host goes on to its next command; and the word placed by `withFetchWord` is the one that runs. -/
def Obligations.StepRunsDecodedCommand : Prop :=
  (∀ (s : State) (w : Command) (i : Instr),
      nextCommand s = some w → decode w = .ok i → resetInput s = none →
        ∃ t, exec i s = .next t ∧ step s = .next { t with pc := s.pc + 1, resets := s.resets.tail })
    ∧ ∀ (s : State) (i : Instr), i.wellFormed = true →
        nextCommand (s.withFetchWord 72 (encode i).toNat) = some (encode i)

/-- Tier 1. A step with no command pending is idle (R237): only the reset input's script moves on (log 11). Where the
reset input is asserted during it, the registers take their reset values and nothing else changes (R240). -/
def Obligations.StepIdleWithoutCommand : Prop :=
  ∀ s : State, nextCommand s = none →
    (resetInput s = none → step s = .next { s with resets := s.resets.tail })
      ∧ ∀ k, resetInput s = some k →
          step s = .next { s with regs := Regs.reset s.params, resets := s.resets.tail }

/-- R33, R240: what reset leaves, whatever the state before: every register at its value of the table, the four open
ones at the parameters; no event, no response, the devices as they were. -/
def Obligations.ResetValues : Prop :=
  ∀ s : State,
    hardReset s =
      { s with
        regs :=
          { ctrl := 0x00000000, fdPollMax := 100, pollInterval := 1, fdSettle := s.params.fdSettleReset.setWidth 32
            osPollMax := 100, blkAttemptMax := s.params.blkAttemptReset.setWidth 32
            blkReadyMax := s.params.blkReadyReset.setWidth 32, blkTimeout := s.params.blkTimeoutReset.setWidth 32
            fdState := .idle, fdArmed := false, fdSaved := 0x00, fdPolls := 0, cs := false } }
      ∧ fdStatusValue (hardReset s).regs = 0x00000000
      ∧ (State.resetWith s.params).regs = (hardReset s).regs

/-- R240, R241, in the model's form of the port and the reset input (logs 9, 10, 11). A command that would perform the events `es`,
cut after `k` of them, performs the first `k` and nothing else; there is no response, the registers are reset and the
environment is what those `k` events leave. Where the input is asserted after the command's last event and response
(`k` above their number), the command has answered and the registers are reset then. A word that is no command (R76)
performs no event: asserted before its response (`k = 0`) there is none, else it is refused and the registers are
reset. -/
def Obligations.ResetCutsCommand : Prop :=
  (∀ (s t : State) (w : Command) (i : Instr) (es : List Event) (k : Nat),
    nextCommand s = some w → decode w = .ok i → exec i s = .next t → t.trace = s.trace ++ es →
    resetInput s = some k →
      ∃ u, step s = .next u ∧ u.regs = Regs.reset s.params ∧ u.params = s.params ∧ u.program = s.program
        ∧ u.pc = s.pc + 1 ∧ u.resets = s.resets.tail
        ∧ (k ≤ es.length →
            u.trace = s.trace ++ es.take k ∧ u.responses = s.responses ∧ u.env = s.env.replay (es.take k))
        ∧ (es.length < k → u.trace = t.trace ∧ u.responses = t.responses ∧ u.env = t.env))
    ∧ ∀ (s : State) (w : Command) (e : DecodeError) (k : Nat),
        nextCommand s = some w → decode w = .error e → resetInput s = some k →
          step s = .next { s with
            regs := Regs.reset s.params, pc := s.pc + 1, resets := s.resets.tail
            responses := s.responses ++ (if k = 0 then [] else [{ ok := false, data := 0 }]) }

/-- R215: nothing is fatal; from every state the machine runs on, whatever the environment answers. In the two
unspecified cases of U6 that is the model's choice (logs 7 and 8). -/
def Obligations.MachineNeverStops : Prop :=
  ∀ (k : Nat) (s : State), runsOn k s

/-- R72: every command in every state, but for the two unspecified cases of U6, is answered by exactly one response,
and leaves the parameters and the host's side of the port as they were. -/
def Obligations.EveryCommandAnswersOnce : Prop :=
  ∀ (i : Instr) (s : State), ¬ unspecified i s →
    ∃ t r, exec i s = .next t ∧ t.responses = s.responses ++ [r] ∧ t.params = s.params
      ∧ t.program = s.program ∧ t.pc = s.pc ∧ t.resets = s.resets

/-! ## Invariants and the trace -/

/-- Tier 3, invariant. Every step keeps: reserved CSR bits 0 (R12), `FD_STATE = RUNNING` exactly when `FD_ARMED = 1`
(R141), the chip-select deasserted (R44), both memories canonical and inside their address spaces (R27). The address
bound needs parameters that R5 admits, and in the unspecified case U6 (b), an erase past `2^32`, it rests on the
model's choice to refuse it (log 8). -/
def Obligations.StepKeepsInvariant : Prop :=
  ∀ s t : State, admissible s.params = true → invariant s = true → step s = .next t →
    invariant t = true ∧ t.params = s.params

/-- Tier 1. The reset state meets the invariant, for all parameters, and the default parameters are admissible. -/
def Obligations.ResetStateMeetsInvariant : Prop :=
  (∀ p : Params, invariant (State.resetWith p) = true)
    ∧ admissible Config.defaults = true ∧ admissible Config.defaultsPt1000 = true

/-- R56, R57: a command's events are added at the end of the trace, every reply in them is the environment's at that
point, and the environment afterwards is what the events leave. -/
def Obligations.TraceAccountsForEnvironment : Prop :=
  ∀ (i : Instr) (s t : State), exec i s = .next t →
    ∃ es, t.trace = s.trace ++ es ∧ repliesOf s.env es = true ∧ t.env = s.env.replay es

/-- Tier 3, invariant: the page rule of R54. In every trace the machine makes, no `BlkWrite` crosses a page. -/
def Obligations.WritesStayWithinPages : Prop :=
  ∀ s t : State, 1 ≤ s.params.pageLen → s.trace.all (withinPage s.params.pageLen) = true → step s = .next t →
    t.trace.all (withinPage t.params.pageLen) = true

/-- R51: every Block Transport transfer lies in the 32-bit address space, for admissible parameters. The case R51 and
U6 (b) leave unspecified, a `LOG.ERASE` of a region past `2^32`, is excluded. -/
def Obligations.TransfersFitAddressSpace : Prop :=
  ∀ s t : State, admissible s.params = true → s.trace.all within32 = true →
    (∀ w start length, nextCommand s = some w → decode w = .ok (.logErase start length) →
      start + length ≤ 4294967296) →
    step s = .next t → t.trace.all within32 = true

/-- R44: the events of every command are bracketed, transfers only between a `Sel` and its `Desel`, and the line is
deasserted afterwards. -/
def Obligations.TransactionsAreBracketed : Prop :=
  ∀ (i : Instr) (s t : State), s.regs.cs = false → exec i s = .next t →
    ∃ es, t.trace = s.trace ++ es ∧ bracketed false es = true ∧ t.regs.cs = false

/-- R40: a CSR or converter command reaches nothing outside the block, an `RTD.*` or `FD.*` command only the RTD
device, a `LOG.*` command only the NVM. -/
def Obligations.OneUnitPerCommand : Prop :=
  ∀ (i : Instr) (s t : State), exec i s = .next t →
    ∃ es, t.trace = s.trace ++ es
      ∧ match partOf i with
        | .csr => es = []
        | .converter => es = []
        | .rtd => ∀ e ∈ es, isRtdSide e = true ∨ isNotify e = true
        | .log => ∀ e ∈ es, isNvmSide e = true ∨ isNotify e = true

/-- R213: at most one notification a command, its last event, of the command's component, carrying a mask with the
bits of that component's causes only (R210, R212), and none where the component's sink is not enabled. Which mask it
is, the statements of the single commands say. -/
def Obligations.NotificationIsLastAndSingle : Prop :=
  ∀ (i : Instr) (s t : State), exec i s = .next t →
    match partOf i with
    | .csr => t.trace = s.trace
    | .converter => t.trace = s.trace
    | .rtd =>
      ∃ es err, t.trace = s.trace ++ es ++ dueEv s .rtd err ∧ (∀ e ∈ es, isNotify e = false) ∧ err &&& 0xFE00 = 0
    | .log =>
      ∃ es err, t.trace = s.trace ++ es ++ dueEv s .log err ∧ (∀ e ∈ es, isNotify e = false)
        ∧ err &&& 0xE1FE = 0

/-! ## Frames -/

/-- The frame of the registers, for every command: the CSRs change by `CSRW`, `CSRS`, `CSRC` only, and only the one
addressed; `FD_STATE` by `FD.AUTO`, `FD.MSTART`, `FD.MEND` only (R21); `FD_ARMED` by `FD.MSTART`, `FD.MEND` only
(R22); `FD_SAVED` by `FD.AUTO`, `FD.MSTART` only (R23); `FD_POLLS` by `FD.AUTO`, `FD.MEND` only (R24, R147). -/
def Obligations.RegisterFrame : Prop :=
  ∀ (i : Instr) (s t : State), exec i s = .next t →
    (∀ row ∈ csrRows,
        (∀ v, i ≠ .csrw row.addr v ∧ i ≠ .csrs row.addr v ∧ i ≠ .csrc row.addr v) →
          row.get t.regs = row.get s.regs)
      ∧ (i ≠ .fdAuto → i ≠ .fdMstart → i ≠ .fdMend → t.regs.fdState = s.regs.fdState)
      ∧ (i ≠ .fdMstart → i ≠ .fdMend → t.regs.fdArmed = s.regs.fdArmed)
      ∧ (i ≠ .fdAuto → i ≠ .fdMstart → t.regs.fdSaved = s.regs.fdSaved)
      ∧ (i ≠ .fdAuto → i ≠ .fdMend → t.regs.fdPolls = s.regs.fdPolls)
      ∧ (partOf i ≠ .rtd → t.regs.cs = s.regs.cs)

/-- The frame of the RTD device registers: a command leaves every register it does not write as the device held it. -/
def Obligations.DeviceRegisterFrame : Prop :=
  ∀ (i : Instr) (s t : State) (a : Nat), exec i s = .next t → a ∉ rtdWritten i →
    t.env.rtdByte a = s.env.rtdByte a

/-- The frame of the NVM: a command leaves every byte outside those it stores to as the NVM held it; the address of
the record `LOG.APPEND` stores is that of the counter its header read gives (R194). In the unspecified case U6 (b) it
rests on the model's choice to refuse the erase (log 8). -/
def Obligations.NvmFrame : Prop :=
  ∀ (i : Instr) (s t : State) (x : Nat), exec i s = .next t → ¬ nvmWritten i s x →
    t.env.nvmByte x = s.env.nvmByte x

/-! ## CSR commands -/

/-- R91, for each of the nine CSRs by its address and its register (R13 to R20, R25) and for the unimplemented
addresses; and the numbers and bits the commands use are the fields read there. -/
def Obligations.CsrReadAnswersValue : Prop :=
  (∀ s : State,
    exec (.csrr 0x00) s = .next (ended s [] s.regs true (0#61 ++ s.regs.ctrl.extractLsb' 0 3))
      ∧ exec (.csrr 0x01) s = .next (ended s [] s.regs true (0#48 ++ s.regs.fdPollMax.extractLsb' 0 16))
      ∧ exec (.csrr 0x02) s = .next (ended s [] s.regs true (0#48 ++ s.regs.pollInterval.extractLsb' 0 16))
      ∧ exec (.csrr 0x03) s = .next (ended s [] s.regs true (0#48 ++ s.regs.fdSettle.extractLsb' 0 16))
      ∧ exec (.csrr 0x04) s = .next (ended s [] s.regs true (0#48 ++ s.regs.osPollMax.extractLsb' 0 16))
      ∧ exec (.csrr 0x05) s = .next (ended s [] s.regs true (0#48 ++ s.regs.blkAttemptMax.extractLsb' 0 16))
      ∧ exec (.csrr 0x06) s = .next (ended s [] s.regs true (0#48 ++ s.regs.blkReadyMax.extractLsb' 0 16))
      ∧ exec (.csrr 0x07) s = .next (ended s [] s.regs true (0#48 ++ s.regs.blkTimeout.extractLsb' 0 16))
      ∧ exec (.csrr 0x08) s
          = .next (ended s [] s.regs true
              (0#32 ++ s.regs.fdPolls ++ s.regs.fdSaved ++ 0#5 ++ BitVec.ofBool s.regs.fdArmed
                ++ (match s.regs.fdState with | .idle => 0#2 | .running => 1#2 | .finished => 2#2 | .stuck => 3#2))))
    ∧ (∀ (a : BitVec 8) (s : State), 0x09 ≤ a.toNat → exec (.csrr a) s = .next (ended s [] s.regs false 0))
    ∧ ∀ r : Regs,
        r.sinkEn .rtd = r.ctrl.getLsbD 0 ∧ r.sinkEn .log = r.ctrl.getLsbD 1 ∧ r.drdyEn = r.ctrl.getLsbD 2
          ∧ r.fdPollBound = (r.fdPollMax.extractLsb' 0 16).toNat
          ∧ r.pollMs = (r.pollInterval.extractLsb' 0 16).toNat
          ∧ r.settleMs = (r.fdSettle.extractLsb' 0 16).toNat
          ∧ r.osPollBound = (r.osPollMax.extractLsb' 0 16).toNat
          ∧ r.attemptBound = (r.blkAttemptMax.extractLsb' 0 16).toNat
          ∧ r.readyBound = (r.blkReadyMax.extractLsb' 0 16).toNat
          ∧ r.timeoutMs = (r.blkTimeout.extractLsb' 0 16).toNat

/-- R92, R93, R94 for every CSR address and value: the old value is the result, the new one is stored in the
implemented bits of the register at that address (R13 to R20) and in no other register; a read-only or unimplemented
address changes nothing and answers `ok = 0`. -/
def Obligations.CsrWriteStoresMaskedValue : Prop :=
  (∀ row ∈ csrRows, ∀ (v : Word) (s : State),
    exec (.csrw row.addr v) s
        = .next (ended s [] (row.set (v &&& row.mask) s.regs) true ((row.get s.regs &&& row.mask).setWidth 64))
      ∧ exec (.csrs row.addr v) s
        = .next (ended s [] (row.set ((row.get s.regs ||| v) &&& row.mask) s.regs) true
            ((row.get s.regs &&& row.mask).setWidth 64))
      ∧ exec (.csrc row.addr v) s
        = .next (ended s [] (row.set ((row.get s.regs &&& ~~~v) &&& row.mask) s.regs) true
            ((row.get s.regs &&& row.mask).setWidth 64)))
    ∧ ∀ (a : BitVec 8) (v : Word) (s : State), 0x08 ≤ a.toNat →
        exec (.csrw a v) s = .next (ended s [] s.regs false 0)
          ∧ exec (.csrs a v) s = .next (ended s [] s.regs false 0)
          ∧ exec (.csrc a v) s = .next (ended s [] s.regs false 0)

/-- A value written by `CSRW` to the CSR at an address of R13 to R20 is in that CSR's register afterwards and is what
`CSRR` of that address answers, in the implemented bits; `CSRR` of every other address answers what it answered
before. -/
def Obligations.CsrWriteReadsBack : Prop :=
  ∀ row ∈ csrRows, ∀ (v : Word) (s t : State), exec (.csrw row.addr v) s = .next t →
    row.get t.regs = v &&& row.mask
      ∧ exec (.csrr row.addr) t = .next (ended t [] t.regs true ((v &&& row.mask).setWidth 64))
      ∧ ∀ a : BitVec 8, a ≠ row.addr →
          ∃ ok d, exec (.csrr a) s = .next (ended s [] s.regs ok d)
            ∧ exec (.csrr a) t = .next (ended t [] t.regs ok d)

/-- R25: the composed value of `FD_STATUS`, field by field; it is 0 after reset, and a write to it is answered
`ok = 0` and changes nothing. -/
def Obligations.FdStatusLayout : Prop :=
  (∀ s : State, ∃ v : Word,
    exec (.csrr 0x08) s = .next (ended s [] s.regs true (v.setWidth 64))
      ∧ v.extractLsb' 0 2 = (match s.regs.fdState with | .idle => 0 | .running => 1 | .finished => 2 | .stuck => 3)
      ∧ v.getLsbD 2 = s.regs.fdArmed ∧ v.extractLsb' 3 5 = 0 ∧ v.extractLsb' 8 8 = s.regs.fdSaved
      ∧ v.extractLsb' 16 16 = s.regs.fdPolls)
    ∧ (∀ s : State,
        exec (.csrr 0x08) (hardReset s) = .next (ended (hardReset s) [] (Regs.reset s.params) true 0))
    ∧ ∀ (v : Word) (s : State),
        exec (.csrw 0x08 v) s = .next (ended s [] s.regs false 0)
          ∧ exec (.csrs 0x08 v) s = .next (ended s [] s.regs false 0)
          ∧ exec (.csrc 0x08 v) s = .next (ended s [] s.regs false 0)

/-- R82: each pseudo-instruction is the one command of its row, which sets or clears one bit of `CTRL` and keeps the
others. -/
def Obligations.PseudoInstructionsSwitchControlBits : Prop :=
  ∀ (p : Pseudo) (s : State),
    (expandPseudo p
        = match p with
          | .rtdAttach => .csrs 0x00 0x1
          | .rtdDetach => .csrc 0x00 0x1
          | .logAttach => .csrs 0x00 0x2
          | .logDetach => .csrc 0x00 0x2
          | .drdyAttach => .csrs 0x00 0x4
          | .drdyDetach => .csrc 0x00 0x4)
    ∧ exec (expandPseudo p) s
        = .next (ended s []
            { s.regs with
              ctrl :=
                match p with
                | .rtdAttach => (s.regs.ctrl &&& 0x7) ||| 0x1
                | .rtdDetach => s.regs.ctrl &&& 0x6
                | .logAttach => (s.regs.ctrl &&& 0x7) ||| 0x2
                | .logDetach => s.regs.ctrl &&& 0x5
                | .drdyAttach => (s.regs.ctrl &&& 0x7) ||| 0x4
                | .drdyDetach => s.regs.ctrl &&& 0x3 }
            true ((s.regs.ctrl &&& 0x7).setWidth 64))

/-! ## The converter -/

/-- R102, R105: `CONV.C2T` answers the greatest integer `T` with `T * 32 * A_NUM ≤ N * A_DEN`, bit 0 of the code
ignored, as a 32-bit pattern; nothing else changes. -/
def Obligations.CodeToTemperature : Prop :=
  ∀ (raw : Half) (s : State), 1 ≤ s.params.aNum →
    ∃ T : Int, exec (.convC2t raw) s = .next (ended s [] s.regs true (0#32 ++ BitVec.ofInt 32 T))
      ∧ T * (32 * s.params.aNum)
          ≤ ((raw.toNat / 2 : Nat) * s.params.rref
              - (if s.params.rtdType = .pt100 then 100 else 1000) * 32768 : Int) * s.params.aDen
      ∧ ((raw.toNat / 2 : Nat) * s.params.rref
              - (if s.params.rtdType = .pt100 then 100 else 1000) * 32768 : Int) * s.params.aDen
          < (T + 1) * (32 * s.params.aNum)

/-- R103, R106: `CONV.T2C` answers twice the code nearest to the temperature, ties upward, saturated to
`0 .. 32767`; nothing else changes. -/
def Obligations.TemperatureToCode : Prop :=
  ∀ (T : Int) (s : State), 1 ≤ s.params.rref → 1 ≤ s.params.aDen →
    ∃ c : Int, exec (.convT2c T) s
        = .next (ended s [] s.regs true (BitVec.ofNat 64 (2 * (min 32767 (max 0 c)).toNat)))
      ∧ (2 * c - 1) * (s.params.rref * s.params.aDen)
          ≤ 2 * (T * s.params.aNum * 32
              + (if s.params.rtdType = .pt100 then 100 else 1000) * 32768 * s.params.aDen)
      ∧ 2 * (T * s.params.aNum * 32
              + (if s.params.rtdType = .pt100 then 100 else 1000) * 32768 * s.params.aDen)
          < (2 * c + 1) * (s.params.rref * s.params.aDen)

/-- R104 (a), (b), (c), (e) for both default parameter sets (PRESUMED numbers, log 5): the range, strict growth by 34
or 35, the exact round trip of every code, saturation. -/
def Obligations.ConverterLaws : Prop :=
  ∀ p : Params, p = Config.defaults ∨ p = Config.defaultsPt1000 →
    p.c2t 0 = -265975 ∧ p.c2t 32767 = 877679
      ∧ (∀ c : Nat, c < 32767 → p.c2t (c + 1) = p.c2t c + 34 ∨ p.c2t (c + 1) = p.c2t c + 35)
      ∧ (∀ c : Nat, c ≤ 32767 → (p.t2c (p.c2t c)).toNat = 2 * c)
      ∧ (∀ T : Int, T ≤ -265957 → p.t2c T = 0x0000)
      ∧ ∀ T : Int, 877662 ≤ T → p.t2c T = 0xFFFE

/-- R104 (d), (e), R261: for both default parameter sets, a temperature in the range comes back from its code
within 18 counts. -/
def Obligations.TemperatureRoundTripWithin18 : Prop :=
  ∀ (p : Params) (T : Int), p = Config.defaults ∨ p = Config.defaultsPt1000 →
    p.c2t 0 ≤ T → T ≤ p.c2t 32767 →
      p.c2t ((p.t2c T).toNat / 2) - T ≤ 18 ∧ T - p.c2t ((p.t2c T).toNat / 2) ≤ 18

/-! ## The RTD driver -/

/-- R111, R112: the events, the result and the registers of both framed transactions for every reply. -/
def Obligations.RegisterTransactions : Prop :=
  (∀ (a : Byte) (b : List Byte) (s : State), repliesOf s.env (readEv a b) = true →
      regRead a b.length s = (some b, (performed (readEv a b) s).withRegs (deselected s.regs)))
    ∧ (∀ (a : Byte) (n : Nat) (o : Option (List Byte)) (s : State), repliesOf s.env (lostReadEv a n o) = true →
      regRead a n s = (none, (performed (lostReadEv a n o) s).withRegs (deselected s.regs)))
    ∧ (∀ (a : Byte) (b : List Byte) (st : Status) (s : State), repliesOf s.env (writeEv a b st) = true →
      regWrite a b s = (st, (performed (writeEv a b st) s).withRegs (deselected s.regs)))
    ∧ ∀ (a : Byte) (n : Nat) (b : List Byte) (s : State),
      ((∃ x, x.length = n ∧ repliesOf s.env (readEv a x) = true)
        ∨ ∃ o, repliesOf s.env (lostReadEv a n o) = true)
      ∧ ∃ st, repliesOf s.env (writeEv a b st) = true

/-- R114: the throwaway read may end in any way; the value written is `0x80 OR filter`. -/
def Obligations.RtdInitWritesConfig : Prop :=
  ∀ (filter : Bool) (first : List Event) (st : Status) (s : State),
    ((∃ c, first = readEv 0x00 [c]) ∨ ∃ o, first = lostReadEv 0x00 1 o) →
    repliesOf s.env (first ++ writeEv 0x00 [if filter then 0x81 else 0x80] st) = true →
      exec (.rtdInit filter) s
        = .next (ended s
            (first ++ writeEv 0x00 [if filter then 0x81 else 0x80] st
              ++ dueEv s .rtd (if st = .ok then 0 else 0x0001))
            (deselected s.regs) (st == .ok) 0)

/-- R115, R113: `RTD.READ1` in each of its ends: the data is read after the first test that finds "ready", with the
fault flag raising `E_GENERAL_FAULT`; the bound of tests is used up; a transfer fails. -/
def Obligations.OneShotReading : Prop :=
  ∀ (c : Byte) (tests : List (List Event)) (s : State), (∀ es ∈ tests, notReadyTest s es) →
    (∀ (last : List Event) (d0 d1 : Byte), tests.length < s.regs.osPollBound → isReadyTest s last →
      repliesOf s.env (readEv 0x00 [c] ++ writeEv 0x00 [c ||| 0x20] .ok
        ++ spaced s.regs.pollMs (tests ++ [last]) ++ readEv 0x01 [d0, d1]) = true →
        exec .rtdRead1 s
          = .next (ended s
              (readEv 0x00 [c] ++ writeEv 0x00 [c ||| 0x20] .ok
                ++ spaced s.regs.pollMs (tests ++ [last]) ++ readEv 0x01 [d0, d1]
                ++ dueEv s .rtd (if d1.getLsbD 0 then 0x0100 else 0))
              (deselected s.regs) (!d1.getLsbD 0) (pairTemp s.params d0 d1)))
    ∧ (∀ (last : List Event) (o : Option (List Byte)), tests.length < s.regs.osPollBound → isReadyTest s last →
      repliesOf s.env (readEv 0x00 [c] ++ writeEv 0x00 [c ||| 0x20] .ok
        ++ spaced s.regs.pollMs (tests ++ [last]) ++ lostReadEv 0x01 2 o) = true →
        exec .rtdRead1 s
          = .next (ended s
              (readEv 0x00 [c] ++ writeEv 0x00 [c ||| 0x20] .ok
                ++ spaced s.regs.pollMs (tests ++ [last]) ++ lostReadEv 0x01 2 o ++ dueEv s .rtd 0x0001)
              (deselected s.regs) false 0))
    ∧ (tests.length = s.regs.osPollBound →
      repliesOf s.env (readEv 0x00 [c] ++ writeEv 0x00 [c ||| 0x20] .ok ++ spaced s.regs.pollMs tests) = true →
        exec .rtdRead1 s
          = .next (ended s
              (readEv 0x00 [c] ++ writeEv 0x00 [c ||| 0x20] .ok ++ spaced s.regs.pollMs tests
                ++ dueEv s .rtd 0x0080)
              (deselected s.regs) false 0))
    ∧ (∀ o : Option (List Byte), tests.length < s.regs.osPollBound → s.regs.ctrl.getLsbD 2 = false →
      repliesOf s.env (readEv 0x00 [c] ++ writeEv 0x00 [c ||| 0x20] .ok
        ++ spaced s.regs.pollMs (tests ++ [lostReadEv 0x00 1 o])) = true →
        exec .rtdRead1 s
          = .next (ended s
              (readEv 0x00 [c] ++ writeEv 0x00 [c ||| 0x20] .ok
                ++ spaced s.regs.pollMs (tests ++ [lostReadEv 0x00 1 o]) ++ dueEv s .rtd 0x0001)
              (deselected s.regs) false 0))
    ∧ (repliesOf s.env (readEv 0x00 [c] ++ writeEv 0x00 [c ||| 0x20] .fail) = true →
        exec .rtdRead1 s
          = .next (ended s
              (readEv 0x00 [c] ++ writeEv 0x00 [c ||| 0x20] .fail ++ dueEv s .rtd 0x0001)
              (deselected s.regs) false 0))
    ∧ ∀ o : Option (List Byte), repliesOf s.env (lostReadEv 0x00 1 o) = true →
        exec .rtdRead1 s
          = .next (ended s (lostReadEv 0x00 1 o ++ dueEv s .rtd 0x0001) (deselected s.regs) false 0)

/-- R115: whatever the environment answers, `RTD.READ1` makes at most `OS_POLL_MAX` ready tests and at most
`OS_POLL_MAX - 1` delays, each of `POLL_INTERVAL`. With the data-ready line attached the tests are its samples; without,
they are the reads of `CONFIG` after the command's first one. -/
def Obligations.OneShotWaitIsBounded : Prop :=
  ∀ s t : State, exec .rtdRead1 s = .next t →
    ∃ es, t.trace = s.trace ++ es
      ∧ countEvents (fun e => match e with | .delay _ => true | _ => false) es ≤ s.regs.osPollBound - 1
      ∧ (∀ ms, Event.delay ms ∈ es → ms = s.regs.pollMs)
      ∧ countEvents (fun e => match e with | .drdy _ => true | _ => false) es
          ≤ (if s.regs.ctrl.getLsbD 2 then s.regs.osPollBound else 0)
      ∧ countEvents (fun e => match e with | .tx [a] _ => a == 0x00 | _ => false) es
          ≤ (if s.regs.ctrl.getLsbD 2 then 0 else s.regs.osPollBound) + 1
      ∧ countEvents (fun e => match e with | .sel => true | _ => false) es
          ≤ (if s.regs.ctrl.getLsbD 2 then 0 else s.regs.osPollBound) + 3

/-- R116, R117: the read-modify-write of `CONFIG`, only the auto-conversion bit changed, in each of its ends. -/
def Obligations.ContinuousModeSwitch : Prop :=
  ∀ (c : Byte) (st : Status) (o : Option (List Byte)) (s : State),
    (repliesOf s.env (readEv 0x00 [c] ++ writeEv 0x00 [c ||| 0x40] st) = true →
      exec .rtdStart s
        = .next (ended s
            (readEv 0x00 [c] ++ writeEv 0x00 [c ||| 0x40] st ++ dueEv s .rtd (if st = .ok then 0 else 0x0001))
            (deselected s.regs) (st == .ok) 0))
    ∧ (repliesOf s.env (readEv 0x00 [c] ++ writeEv 0x00 [c &&& 0xBF] st) = true →
      exec .rtdStop s
        = .next (ended s
            (readEv 0x00 [c] ++ writeEv 0x00 [c &&& 0xBF] st ++ dueEv s .rtd (if st = .ok then 0 else 0x0001))
            (deselected s.regs) (st == .ok) 0))
    ∧ (repliesOf s.env (lostReadEv 0x00 1 o) = true →
      exec .rtdStart s
          = .next (ended s (lostReadEv 0x00 1 o ++ dueEv s .rtd 0x0001) (deselected s.regs) false 0)
        ∧ exec .rtdStop s
          = .next (ended s (lostReadEv 0x00 1 o ++ dueEv s .rtd 0x0001) (deselected s.regs) false 0))

/-- R113, R118: `RTD.READ`; with the fault flag set `ok = 0`, `E_GENERAL_FAULT`, and the temperature all the same. -/
def Obligations.TemperatureReading : Prop :=
  ∀ (d0 d1 : Byte) (o : Option (List Byte)) (s : State),
    (repliesOf s.env (readEv 0x01 [d0, d1]) = true →
      exec .rtdRead s
        = .next (ended s (readEv 0x01 [d0, d1] ++ dueEv s .rtd (if d1.getLsbD 0 then 0x0100 else 0))
            (deselected s.regs) (!d1.getLsbD 0) (pairTemp s.params d0 d1)))
    ∧ (repliesOf s.env (lostReadEv 0x01 2 o) = true →
      exec .rtdRead s
        = .next (ended s (lostReadEv 0x01 2 o ++ dueEv s .rtd 0x0001) (deselected s.regs) false 0))

/-- R119, R120: a threshold write sends the converted code in one transaction, most significant byte first, bit 0
clear. -/
def Obligations.ThresholdWrites : Prop :=
  ∀ (T : Int) (hi lo : Byte) (st : Status) (s : State), s.params.t2c T = hi ++ lo →
    lo.getLsbD 0 = false
    ∧ (repliesOf s.env (writeEv 0x03 [hi, lo] st) = true →
      exec (.rtdSethi T) s
        = .next (ended s (writeEv 0x03 [hi, lo] st ++ dueEv s .rtd (if st = .ok then 0 else 0x0001))
            (deselected s.regs) (st == .ok) 0))
    ∧ (repliesOf s.env (writeEv 0x05 [hi, lo] st) = true →
      exec (.rtdSetlo T) s
        = .next (ended s (writeEv 0x05 [hi, lo] st ++ dueEv s .rtd (if st = .ok then 0 else 0x0001))
            (deselected s.regs) (st == .ok) 0))

/-- R121, R122: a threshold read answers the temperature of the pair the device returns, bit 0 ignored. -/
def Obligations.ThresholdReads : Prop :=
  ∀ (d0 d1 : Byte) (o : Option (List Byte)) (s : State),
    (repliesOf s.env (readEv 0x03 [d0, d1]) = true →
      exec .rtdGethi s
        = .next (ended s (readEv 0x03 [d0, d1]) (deselected s.regs) true (pairTemp s.params d0 d1)))
    ∧ (repliesOf s.env (readEv 0x05 [d0, d1]) = true →
      exec .rtdGetlo s
        = .next (ended s (readEv 0x05 [d0, d1]) (deselected s.regs) true (pairTemp s.params d0 d1)))
    ∧ (repliesOf s.env (lostReadEv 0x03 2 o) = true →
      exec .rtdGethi s
        = .next (ended s (lostReadEv 0x03 2 o ++ dueEv s .rtd 0x0001) (deselected s.regs) false 0))
    ∧ (repliesOf s.env (lostReadEv 0x05 2 o) = true →
      exec .rtdGetlo s
        = .next (ended s (lostReadEv 0x05 2 o ++ dueEv s .rtd 0x0001) (deselected s.regs) false 0))

/-- R119 with R121 and R120 with R122, on a device that stores what is written: a threshold set is read back as the
temperature of its code, and neither command touches the other threshold. -/
def Obligations.ThresholdReadsBack : Prop :=
  ∀ (T : Int) (s : State) (q : List PutReply) (q' : List GetReply),
    s.env.txQ = taken :: taken :: q → s.env.rxQ = held :: q' →
    (∃ t u, exec (.rtdSethi T) s = .next t ∧ exec .rtdGethi t = .next u
      ∧ t.env.rtdByte 5 = s.env.rtdByte 5 ∧ t.env.rtdByte 6 = s.env.rtdByte 6
      ∧ u.responses = s.responses ++ [{ ok := true, data := 0 },
          { ok := true, data := 0#32 ++ BitVec.ofInt 32 (s.params.c2t ((s.params.t2c T).toNat / 2)) }])
    ∧ ∃ t u, exec (.rtdSetlo T) s = .next t ∧ exec .rtdGetlo t = .next u
      ∧ t.env.rtdByte 3 = s.env.rtdByte 3 ∧ t.env.rtdByte 4 = s.env.rtdByte 4
      ∧ u.responses = s.responses ++ [{ ok := true, data := 0 },
          { ok := true, data := 0#32 ++ BitVec.ofInt 32 (s.params.c2t ((s.params.t2c T).toNat / 2)) }]

/-! ## Fault detection -/

/-- R142: the arming value, bit by bit: bias on, auto, one-shot and fault-clear off, the cycle bits replaced by the
code, bit 4 and the filter bit kept. -/
def Obligations.ArmingValue : Prop :=
  ∀ (c : Byte) (code : BitVec 2),
    (cyc c code).getLsbD 7 = true ∧ (cyc c code).getLsbD 6 = false ∧ (cyc c code).getLsbD 5 = false
      ∧ (cyc c code).getLsbD 4 = c.getLsbD 4 ∧ (cyc c code).extractLsb' 2 2 = code
      ∧ (cyc c code).getLsbD 1 = false ∧ (cyc c code).getLsbD 0 = c.getLsbD 0

/-- R143: `FdPoll` for every reply: the verdict, the events, `FD_POLLS`; one of the three ends always comes, within
`FD_POLL_MAX` reads. -/
def Obligations.FaultPollLoop : Prop :=
  (∀ (v : Verdict) (n : Nat) (es : List Event) (s : State), fdPolled s v n es → repliesOf s.env es = true →
      fdPoll s = (v, (performed es s).withRegs
        { s.regs with fdPolls := BitVec.ofNat 16 n, cs := s.regs.cs && n == 0 }))
    ∧ ∀ s : State, ∃ v n es, fdPolled s v n es ∧ repliesOf s.env es = true

/-- R144: `FdFinish` for every verdict and every reply to the restore write: the events, the causes, `FD_STATE`. -/
def Obligations.FaultCycleTail : Prop :=
  ∀ (saved : Byte) (v : Verdict) (st : Status) (s : State), repliesOf s.env (tailEv s saved v st) = true →
    fdFinish saved v s = (cycleMask v st, (performed (tailEv s saved v st) s).withRegs
      { s.regs with fdState := verdictState v, cs := false })

/-- R146: `FD.AUTO` when not armed, in each of its ends. -/
def Obligations.AutomaticCycle : Prop :=
  ∀ (c : Byte) (st : Status) (s : State), s.regs.fdArmed = false →
    (∀ (v : Verdict) (n : Nat) (es : List Event), fdPolled s v n es →
      repliesOf s.env (readEv 0x00 [c] ++ writeEv 0x00 [((c ||| 0x80) &&& 0x91) ||| 0x04] .ok ++ es
        ++ tailEv s c v st) = true →
        exec .fdAuto s
          = .next (ended s
              (readEv 0x00 [c] ++ writeEv 0x00 [((c ||| 0x80) &&& 0x91) ||| 0x04] .ok ++ es ++ tailEv s c v st
                ++ dueEv s .rtd (cycleMask v st))
              { s.regs with fdState := verdictState v, fdSaved := c, fdPolls := BitVec.ofNat 16 n, cs := false }
              (v == .fin && st == .ok) 0))
    ∧ (repliesOf s.env (readEv 0x00 [c] ++ writeEv 0x00 [((c ||| 0x80) &&& 0x91) ||| 0x04] .fail
        ++ writeEv 0x00 [c] st) = true →
        exec .fdAuto s
          = .next (ended s
              (readEv 0x00 [c] ++ writeEv 0x00 [((c ||| 0x80) &&& 0x91) ||| 0x04] .fail ++ writeEv 0x00 [c] st
                ++ dueEv s .rtd 0x0001)
              { s.regs with fdState := .idle, fdSaved := c, cs := false } false 0))
    ∧ ∀ o : Option (List Byte), repliesOf s.env (lostReadEv 0x00 1 o) = true →
        exec .fdAuto s
          = .next (ended s (lostReadEv 0x00 1 o ++ dueEv s .rtd 0x0001) (deselected s.regs) false 0)

/-- R147: `FD.MSTART` when not armed, in each of its ends. -/
def Obligations.ManualCycleStart : Prop :=
  ∀ (c : Byte) (o : Option (List Byte)) (s : State), s.regs.fdArmed = false →
    (repliesOf s.env (readEv 0x00 [c] ++ writeEv 0x00 [((c ||| 0x80) &&& 0x91) ||| 0x08] .ok) = true →
      exec .fdMstart s
        = .next (ended s (readEv 0x00 [c] ++ writeEv 0x00 [((c ||| 0x80) &&& 0x91) ||| 0x08] .ok)
            { s.regs with fdState := .running, fdArmed := true, fdSaved := c, cs := false } true 0))
    ∧ (repliesOf s.env (readEv 0x00 [c] ++ writeEv 0x00 [((c ||| 0x80) &&& 0x91) ||| 0x08] .fail) = true →
      exec .fdMstart s
        = .next (ended s
            (readEv 0x00 [c] ++ writeEv 0x00 [((c ||| 0x80) &&& 0x91) ||| 0x08] .fail ++ dueEv s .rtd 0x0001)
            (deselected s.regs) false 0))
    ∧ (repliesOf s.env (lostReadEv 0x00 1 o) = true →
      exec .fdMstart s
        = .next (ended s (lostReadEv 0x00 1 o ++ dueEv s .rtd 0x0001) (deselected s.regs) false 0))

/-- R148: `FD.MEND` when armed, in each of its ends; the arming value and the restore are both of `FD_SAVED`. -/
def Obligations.ManualCycleEnd : Prop :=
  ∀ (st : Status) (s : State), s.regs.fdArmed = true →
    (∀ (v : Verdict) (n : Nat) (es : List Event), fdPolled s v n es →
      repliesOf s.env (writeEv 0x00 [((s.regs.fdSaved ||| 0x80) &&& 0x91) ||| 0x0C] .ok ++ es
        ++ tailEv s s.regs.fdSaved v st) = true →
        exec .fdMend s
          = .next (ended s
              (writeEv 0x00 [((s.regs.fdSaved ||| 0x80) &&& 0x91) ||| 0x0C] .ok ++ es
                ++ tailEv s s.regs.fdSaved v st ++ dueEv s .rtd (cycleMask v st))
              { s.regs with
                fdState := verdictState v, fdArmed := false, fdPolls := BitVec.ofNat 16 n, cs := false }
              (v == .fin && st == .ok) 0))
    ∧ (repliesOf s.env (writeEv 0x00 [((s.regs.fdSaved ||| 0x80) &&& 0x91) ||| 0x0C] .fail
        ++ writeEv 0x00 [s.regs.fdSaved] st) = true →
        exec .fdMend s
          = .next (ended s
              (writeEv 0x00 [((s.regs.fdSaved ||| 0x80) &&& 0x91) ||| 0x0C] .fail
                ++ writeEv 0x00 [s.regs.fdSaved] st ++ dueEv s .rtd 0x0001)
              { s.regs with fdState := .idle, fdArmed := false, cs := false } false 0))

/-- R145: the two starting commands are refused while a manual cycle is armed, the ending one while none is;
`FD.RDFAULT` is never refused: it always goes to the device. -/
def Obligations.OutOfOrderCyclesRefused : Prop :=
  ∀ s : State,
    (s.regs.fdArmed = true →
      exec .fdAuto s = .next (ended s [] s.regs false 0) ∧ exec .fdMstart s = .next (ended s [] s.regs false 0))
    ∧ (s.regs.fdArmed = false → exec .fdMend s = .next (ended s [] s.regs false 0))
    ∧ ∃ t rest, exec .fdRdfault s = .next t ∧ t.trace = s.trace ++ .sel :: rest

/-- R149: `FD.RDFAULT` in each of its ends; every set cause bit of the fault status is in the one mask, bits 1 and 0
are ignored, a failed clearing write adds `E_TRANSPORT`. -/
def Obligations.FaultReport : Prop :=
  ∀ (c f : Byte) (st : Status) (o : Option (List Byte)) (s : State),
    (c &&& 0x0C = 0 → repliesOf s.env (readEv 0x00 [c] ++ readEv 0x07 [f] ++ writeEv 0x00 [c ||| 0x02] st) = true →
      ∃ m : Half,
        exec .fdRdfault s
          = .next (ended s
              (readEv 0x00 [c] ++ readEv 0x07 [f] ++ writeEv 0x00 [c ||| 0x02] st ++ dueEv s .rtd m)
              (deselected s.regs) (m == 0) 0)
          ∧ m.getLsbD 0 = (st == .fail) ∧ m.getLsbD 1 = f.getLsbD 7 ∧ m.getLsbD 2 = f.getLsbD 6
          ∧ m.getLsbD 3 = f.getLsbD 5 ∧ m.getLsbD 4 = f.getLsbD 4 ∧ m.getLsbD 5 = f.getLsbD 3
          ∧ m.getLsbD 6 = f.getLsbD 2 ∧ m.extractLsb' 7 9 = 0)
    ∧ (c &&& 0x0C = 0 → repliesOf s.env (readEv 0x00 [c] ++ lostReadEv 0x07 1 o) = true →
        exec .fdRdfault s
          = .next (ended s (readEv 0x00 [c] ++ lostReadEv 0x07 1 o ++ dueEv s .rtd 0x0001)
              (deselected s.regs) false 0))
    ∧ (c &&& 0x0C ≠ 0 → repliesOf s.env (readEv 0x00 [c]) = true →
        exec .fdRdfault s = .next (ended s (readEv 0x00 [c]) (deselected s.regs) false 0))
    ∧ (repliesOf s.env (lostReadEv 0x00 1 o) = true →
        exec .fdRdfault s
          = .next (ended s (lostReadEv 0x00 1 o ++ dueEv s .rtd 0x0001) (deselected s.regs) false 0))

/-- R141: the transitions of `FD_STATE` and `FD_ARMED` that a command can make, from a state in which
`FD_STATE = RUNNING` exactly when `FD_ARMED = 1`, as in every state between commands. -/
def Obligations.FaultStateTransitions : Prop :=
  ∀ (i : Instr) (s t : State), s.regs.fdArmed = (s.regs.fdState == .running) → exec i s = .next t →
    fdTransition i s.regs.fdState t.regs.fdState = true
      ∧ t.regs.fdArmed = (t.regs.fdState == .running)

/-- R141: the small-step machine of the micro-states, run to its end, gives the state the big-step pseudocode of R146
to R148 gives, for each of the three commands, every state and every environment. The micro-state `answered`, after
`S_DONE`, is the model's (log 20). -/
def Obligations.MicroStepsAgreeWithCommand : Prop :=
  ∀ (c : FdCommand) (s : State) (k : Nat), 2 * s.regs.fdPollBound + 6 ≤ k →
    (microRun k (fdBegin c s)).micro = .answered
      ∧ exec (match c with | .auto => .fdAuto | .mstart => .fdMstart | .mend => .fdMend) s
          = .next (microRun k (fdBegin c s)).state

/-! ## The paged writer -/

/-- R171, R172, R173: `MemWrite`, `MemRead` and `ReadyWait` for every reply: the events, the result, nothing else; one
of the listed runs always happens. -/
def Obligations.RetryPrimitives : Prop :=
  ∀ s : State,
    (∀ k, k < s.regs.readyBound → repliesOf s.env (readyAfter s k) = true →
      readyWait s = (true, performed (readyAfter s k) s))
    ∧ (repliesOf s.env (neverReady s) = true → readyWait s = (false, performed (neverReady s) s))
    ∧ (∀ a v es, putDone s a v es → repliesOf s.env es = true → memWrite a v s = (.ok, performed es s))
    ∧ (∀ a v es, putLost s a v es → repliesOf s.env es = true → memWrite a v s = (.fail, performed es s))
    ∧ (∀ a b es, getDone s a b es → repliesOf s.env es = true → memRead a b.length s = (some b, performed es s))
    ∧ (∀ a n es, getLost s a n es → repliesOf s.env es = true → memRead a n s = (none, performed es s))
    ∧ (∀ a v, ∃ es, (putDone s a v es ∨ putLost s a v es) ∧ repliesOf s.env es = true)
    ∧ ∀ a n, ∃ es, ((∃ b, b.length = n ∧ getDone s a b es) ∨ getLost s a n es) ∧ repliesOf s.env es = true

/-- R174: `WriteSpanning` over its chunks for every reply: it succeeds with a ready wait between two chunks, and fails
at the first chunk or ready wait that does, nothing after it. -/
def Obligations.SpanningWrite : Prop :=
  ∀ (start : Nat) (data : List Byte) (es : List Event) (s : State), 1 ≤ s.params.pageLen →
    repliesOf s.env es = true →
      (spanDone s (pieces s.params.pageLen start data) es →
        writeSpanning start data s = (.ok, performed es s))
      ∧ (spanLost s (pieces s.params.pageLen start data) es →
        writeSpanning start data s = (.fail, performed es s))

/-- R175 (a) to (d): the chunks of R174 stay within pages, cover the region once in ascending order with the bytes of
the data, have the lengths R175 gives them, and are as many as it says. -/
def Obligations.ChunksPartitionRegion : Prop :=
  ∀ (pageLen start : Nat) (data : List Byte), 1 ≤ pageLen →
    (∀ c ∈ pieces pageLen start data,
        1 ≤ c.2.length ∧ c.1 / pageLen = (c.1 + c.2.length - 1) / pageLen)
      ∧ ((pieces pageLen start data).flatMap fun c => (List.range c.2.length).map fun i => c.1 + i)
          = (List.range data.length).map (fun i => start + i)
      ∧ (pieces pageLen start data).flatMap (fun c => c.2) = data
      ∧ (∀ c rest, pieces pageLen start data = c :: rest →
          c.2.length = min (pageLen - start % pageLen) data.length
            ∧ (∀ d ∈ rest, d.1 % pageLen = 0) ∧ ∀ d ∈ rest.dropLast, d.2.length = pageLen)
      ∧ (pieces pageLen start data).length
          = if data = [] then 0 else (start + data.length - 1) / pageLen - start / pageLen + 1

/-- R176 for a region inside the 32-bit address space: `LOG.ERASE` writes `0xFF` over it, chunk by chunk, and fails
where the writer does. -/
def Obligations.RegionErase : Prop :=
  ∀ (start length : Nat) (es : List Event) (s : State), 1 ≤ s.params.pageLen → start + length ≤ 4294967296 →
    repliesOf s.env es = true →
      (spanDone s (pieces s.params.pageLen start (List.replicate length 0xFF)) es →
        exec (.logErase start length) s = .next (ended s es s.regs true 0))
      ∧ (spanLost s (pieces s.params.pageLen start (List.replicate length 0xFF)) es →
        exec (.logErase start length) s = .next (ended s (es ++ dueEv s .log 0x0001) s.regs false 0))

/-! ## The measurement log -/

/-- R191, R193: `LOG.INIT` writes timestamp, counter 0 and capacity `floor(PAGE_LEN * FREE_PAGES / 7)`, most
significant byte first, in that order, and stops at the first write that fails. -/
def Obligations.LogFormat : Prop :=
  ∀ (ts : Data) (t7 t6 t5 t4 t3 t2 t1 t0 hi lo : Byte) (e1 e2 e3 : List Event) (s : State),
    12 ≤ s.params.pageLen → ts = t7 ++ t6 ++ t5 ++ t4 ++ t3 ++ t2 ++ t1 ++ t0 →
    (hi ++ lo : Half).toNat = s.params.pageLen * s.params.freePages / 7 →
    (putDone s 0 [t7, t6, t5, t4, t3, t2, t1, t0] e1 → putDone s 8 [0x00, 0x00] e2 → putDone s 10 [hi, lo] e3 →
      repliesOf s.env (e1 ++ e2 ++ e3) = true →
        exec (.logInit ts) s = .next (ended s (e1 ++ e2 ++ e3) s.regs true 0))
    ∧ (putLost s 0 [t7, t6, t5, t4, t3, t2, t1, t0] e1 → repliesOf s.env e1 = true →
        exec (.logInit ts) s = .next (ended s (e1 ++ dueEv s .log 0x0001) s.regs false 0))
    ∧ (putDone s 0 [t7, t6, t5, t4, t3, t2, t1, t0] e1 → putLost s 8 [0x00, 0x00] e2 →
      repliesOf s.env (e1 ++ e2) = true →
        exec (.logInit ts) s = .next (ended s (e1 ++ e2 ++ dueEv s .log 0x0001) s.regs false 0))
    ∧ (putDone s 0 [t7, t6, t5, t4, t3, t2, t1, t0] e1 → putDone s 8 [0x00, 0x00] e2 → putLost s 10 [hi, lo] e3 →
      repliesOf s.env (e1 ++ e2 ++ e3) = true →
        exec (.logInit ts) s = .next (ended s (e1 ++ e2 ++ e3 ++ dueEv s .log 0x0001) s.regs false 0))

/-- R192, R194 for a counter below `0xFFFF`: `LOG.APPEND` reads counter and capacity, writes the seven record bytes
at `PAGE_LEN + 7 * cnt`, then the incremented counter, and signals `E_STORAGE_OVERFLOW` with `ok = 1` exactly when
the new counter reaches the capacity; it stops at the first primitive that fails. -/
def Obligations.LogAppendRecord : Prop :=
  ∀ (id dHi dLo p3 p2 p1 p0 a b c d nHi nLo : Byte) (e1 e2 e3 e4 : List Event) (s : State),
    12 ≤ s.params.pageLen → (a ++ b : Half).toNat ≠ 0xFFFF → (nHi ++ nLo : Half) = (a ++ b : Half) + 1 →
    (getLost s 8 2 e1 → repliesOf s.env e1 = true →
      exec (.logAppend id (dHi ++ dLo) (p3 ++ p2 ++ p1 ++ p0)) s
        = .next (ended s (e1 ++ dueEv s .log 0x0001) s.regs false 0))
    ∧ (getDone s 8 [a, b] e1 → getLost s 10 2 e2 → repliesOf s.env (e1 ++ e2) = true →
      exec (.logAppend id (dHi ++ dLo) (p3 ++ p2 ++ p1 ++ p0)) s
        = .next (ended s (e1 ++ e2 ++ dueEv s .log 0x0001) s.regs false 0))
    ∧ (getDone s 8 [a, b] e1 → getDone s 10 [c, d] e2 →
      (spanLost s (pieces s.params.pageLen (s.params.pageLen + 7 * (a ++ b : Half).toNat)
          [id, dHi, dLo, p3, p2, p1, p0]) e3 →
        repliesOf s.env (e1 ++ e2 ++ e3) = true →
          exec (.logAppend id (dHi ++ dLo) (p3 ++ p2 ++ p1 ++ p0)) s
            = .next (ended s (e1 ++ e2 ++ e3 ++ dueEv s .log 0x0001) s.regs false 0))
      ∧ (spanDone s (pieces s.params.pageLen (s.params.pageLen + 7 * (a ++ b : Half).toNat)
          [id, dHi, dLo, p3, p2, p1, p0]) e3 →
        (putLost s 8 [nHi, nLo] e4 → repliesOf s.env (e1 ++ e2 ++ e3 ++ e4) = true →
          exec (.logAppend id (dHi ++ dLo) (p3 ++ p2 ++ p1 ++ p0)) s
            = .next (ended s (e1 ++ e2 ++ e3 ++ e4 ++ dueEv s .log 0x0001) s.regs false 0))
        ∧ (putDone s 8 [nHi, nLo] e4 → repliesOf s.env (e1 ++ e2 ++ e3 ++ e4) = true →
          exec (.logAppend id (dHi ++ dLo) (p3 ++ p2 ++ p1 ++ p0)) s
            = .next (ended s
                (e1 ++ e2 ++ e3 ++ e4
                  ++ dueEv s .log
                    (if (c ++ d : Half).toNat ≤ (a ++ b : Half).toNat + 1 then 0x0200 else 0))
                s.regs true 0))))

/-- R192, R195: `LOG.GET` in each of its ends; the storage checks in their order, the record's seven bytes as the
number `{0x00, id, deltaT, payload}`. -/
def Obligations.LogGetRecord : Prop :=
  ∀ (index : Nat) (a b c d b0 b1 b2 b3 b4 b5 b6 : Byte) (e1 e2 e3 : List Event) (s : State),
    (getLost s 8 2 e1 → repliesOf s.env e1 = true →
      exec (.logGet index) s = .next (ended s (e1 ++ dueEv s .log 0x0001) s.regs false 0))
    ∧ (getDone s 8 [a, b] e1 → getLost s 10 2 e2 → repliesOf s.env (e1 ++ e2) = true →
      exec (.logGet index) s = .next (ended s (e1 ++ e2 ++ dueEv s .log 0x0001) s.regs false 0))
    ∧ (getDone s 8 [a, b] e1 → getDone s 10 [c, d] e2 →
      (repliesOf s.env (e1 ++ e2) = true →
        ((a ++ b : Half).toNat = 0 →
          exec (.logGet index) s = .next (ended s (e1 ++ e2 ++ dueEv s .log 0x0400) s.regs false 0))
        ∧ ((a ++ b : Half).toNat ≠ 0 →
            ((c ++ d : Half).toNat ≤ index ∨ (c ++ d : Half).toNat < (a ++ b : Half).toNat) →
          exec (.logGet index) s = .next (ended s (e1 ++ e2 ++ dueEv s .log 0x0800) s.regs false 0))
        ∧ ((a ++ b : Half).toNat ≠ 0 → index < (c ++ d : Half).toNat →
            (a ++ b : Half).toNat ≤ (c ++ d : Half).toNat → (a ++ b : Half).toNat ≤ index →
          exec (.logGet index) s = .next (ended s (e1 ++ e2 ++ dueEv s .log 0x1000) s.regs false 0)))
      ∧ (index < (a ++ b : Half).toNat → (a ++ b : Half).toNat ≤ (c ++ d : Half).toNat →
        (getLost s (s.params.pageLen + 7 * index) 7 e3 → repliesOf s.env (e1 ++ e2 ++ e3) = true →
          exec (.logGet index) s = .next (ended s (e1 ++ e2 ++ e3 ++ dueEv s .log 0x0001) s.regs false 0))
        ∧ (getDone s (s.params.pageLen + 7 * index) [b0, b1, b2, b3, b4, b5, b6] e3 →
          repliesOf s.env (e1 ++ e2 ++ e3) = true →
            exec (.logGet index) s
              = .next (ended s (e1 ++ e2 ++ e3) s.regs true
                  (0#8 ++ b0 ++ b1 ++ b2 ++ b3 ++ b4 ++ b5 ++ b6)))))

/-- R196, R197, R198: the header accessors answer the field's bytes as a big-endian number, or fail with
`E_TRANSPORT`. -/
def Obligations.HeaderAccessors : Prop :=
  ∀ (b0 b1 b2 b3 b4 b5 b6 b7 : Byte) (es : List Event) (s : State), repliesOf s.env es = true →
    (getDone s 8 [b0, b1] es → exec .logRdcnt s = .next (ended s es s.regs true (0#48 ++ b0 ++ b1)))
    ∧ (getDone s 10 [b0, b1] es → exec .logRdcap s = .next (ended s es s.regs true (0#48 ++ b0 ++ b1)))
    ∧ (getDone s 0 [b0, b1, b2, b3, b4, b5, b6, b7] es →
      exec .logRdts s = .next (ended s es s.regs true (b0 ++ b1 ++ b2 ++ b3 ++ b4 ++ b5 ++ b6 ++ b7)))
    ∧ (getLost s 8 2 es → exec .logRdcnt s = .next (ended s (es ++ dueEv s .log 0x0001) s.regs false 0))
    ∧ (getLost s 10 2 es → exec .logRdcap s = .next (ended s (es ++ dueEv s .log 0x0001) s.regs false 0))
    ∧ (getLost s 0 8 es → exec .logRdts s = .next (ended s (es ++ dueEv s .log 0x0001) s.regs false 0))

/-- R199 (a), on an NVM that stores what is written and transports that succeed: an append below the capacity
followed by a read of its index answers the record. -/
def Obligations.AppendThenGet : Prop :=
  ∀ (id : Byte) (deltaT : Half) (payload : Word) (s : State) (qw : List PutReply) (qr : List GetReply)
    (qb : List Bool),
    12 ≤ s.params.pageLen → 1 ≤ s.regs.attemptBound → 1 ≤ s.regs.readyBound →
    s.env.blkWriteQ = taken :: taken :: taken :: qw → s.env.blkReadyQ = true :: qb →
    s.env.blkReadQ = held :: held :: held :: held :: held :: qr →
    heldCounter s < heldCapacity s →
      ∃ t u, exec (.logAppend id deltaT payload) s = .next t ∧ exec (.logGet (heldCounter s)) t = .next u
        ∧ heldCounter t = heldCounter s + 1 ∧ heldCapacity t = heldCapacity s
        ∧ u.responses
            = s.responses ++ [{ ok := true, data := 0 }, { ok := true, data := 0#8 ++ id ++ deltaT ++ payload }]

/-- R199 (b), on an NVM that stores what is written and transports that succeed: after `LOG.INIT ts` the header
accessors answer `ts`, 0 and the capacity. -/
def Obligations.FormatThenReadHeader : Prop :=
  ∀ (ts : Data) (s : State) (qw : List PutReply) (qr : List GetReply),
    12 ≤ s.params.pageLen → s.params.pageLen * s.params.freePages / 7 ≤ 65535 → 1 ≤ s.regs.attemptBound →
    s.env.blkWriteQ = taken :: taken :: taken :: qw → s.env.blkReadQ = held :: held :: held :: qr →
      ∃ t u v w, exec (.logInit ts) s = .next t ∧ exec .logRdts t = .next u ∧ exec .logRdcnt u = .next v
        ∧ exec .logRdcap v = .next w
        ∧ w.responses
            = s.responses ++ [{ ok := true, data := 0 }, { ok := true, data := ts }, { ok := true, data := 0 },
                { ok := true, data := BitVec.ofNat 64 (s.params.pageLen * s.params.freePages / 7) }]
end

