-- ==== Sys2Proof/Laws/State.lean ====
section
/-!
SUPPORT. One lemma per field per update of the state, each true by unfolding, so that no later proof unfolds an
update.
-/

namespace Sys2Proof.Machine

@[simp] theorem emit_params (s : State) (e : Event) : (s.emit e).params = s.params := rfl
@[simp] theorem emit_regs (s : State) (e : Event) : (s.emit e).regs = s.regs := rfl
@[simp] theorem emit_env (s : State) (e : Event) : (s.emit e).env = s.env := rfl
@[simp] theorem emit_program (s : State) (e : Event) : (s.emit e).program = s.program := rfl
@[simp] theorem emit_pc (s : State) (e : Event) : (s.emit e).pc = s.pc := rfl
@[simp] theorem emit_resets (s : State) (e : Event) : (s.emit e).resets = s.resets := rfl
@[simp] theorem emit_responses (s : State) (e : Event) : (s.emit e).responses = s.responses := rfl
@[simp] theorem emit_trace (s : State) (e : Event) : (s.emit e).trace = s.trace ++ [e] := rfl

@[simp] theorem withEnv_params (s : State) (v : Env) : (s.withEnv v).params = s.params := rfl
@[simp] theorem withEnv_regs (s : State) (v : Env) : (s.withEnv v).regs = s.regs := rfl
@[simp] theorem withEnv_env (s : State) (v : Env) : (s.withEnv v).env = v := rfl
@[simp] theorem withEnv_program (s : State) (v : Env) : (s.withEnv v).program = s.program := rfl
@[simp] theorem withEnv_pc (s : State) (v : Env) : (s.withEnv v).pc = s.pc := rfl
@[simp] theorem withEnv_resets (s : State) (v : Env) : (s.withEnv v).resets = s.resets := rfl
@[simp] theorem withEnv_responses (s : State) (v : Env) : (s.withEnv v).responses = s.responses := rfl
@[simp] theorem withEnv_trace (s : State) (v : Env) : (s.withEnv v).trace = s.trace := rfl

@[simp] theorem withRegs_params (s : State) (r : Regs) : (s.withRegs r).params = s.params := rfl
@[simp] theorem withRegs_regs (s : State) (r : Regs) : (s.withRegs r).regs = r := rfl
@[simp] theorem withRegs_env (s : State) (r : Regs) : (s.withRegs r).env = s.env := rfl
@[simp] theorem withRegs_program (s : State) (r : Regs) : (s.withRegs r).program = s.program := rfl
@[simp] theorem withRegs_pc (s : State) (r : Regs) : (s.withRegs r).pc = s.pc := rfl
@[simp] theorem withRegs_resets (s : State) (r : Regs) : (s.withRegs r).resets = s.resets := rfl
@[simp] theorem withRegs_responses (s : State) (r : Regs) : (s.withRegs r).responses = s.responses := rfl
@[simp] theorem withRegs_trace (s : State) (r : Regs) : (s.withRegs r).trace = s.trace := rfl

@[simp] theorem sel_params (s : State) : (sel s).params = s.params := rfl
@[simp] theorem sel_regs (s : State) : (sel s).regs = { s.regs with cs := true } := rfl
@[simp] theorem sel_env (s : State) : (sel s).env = s.env := rfl
@[simp] theorem sel_program (s : State) : (sel s).program = s.program := rfl
@[simp] theorem sel_pc (s : State) : (sel s).pc = s.pc := rfl
@[simp] theorem sel_resets (s : State) : (sel s).resets = s.resets := rfl
@[simp] theorem sel_responses (s : State) : (sel s).responses = s.responses := rfl
@[simp] theorem sel_trace (s : State) : (sel s).trace = s.trace ++ [.sel] := rfl

@[simp] theorem desel_params (s : State) : (desel s).params = s.params := rfl
@[simp] theorem desel_regs (s : State) : (desel s).regs = { s.regs with cs := false } := rfl
@[simp] theorem desel_env (s : State) : (desel s).env = s.env := rfl
@[simp] theorem desel_program (s : State) : (desel s).program = s.program := rfl
@[simp] theorem desel_pc (s : State) : (desel s).pc = s.pc := rfl
@[simp] theorem desel_resets (s : State) : (desel s).resets = s.resets := rfl
@[simp] theorem desel_responses (s : State) : (desel s).responses = s.responses := rfl
@[simp] theorem desel_trace (s : State) : (desel s).trace = s.trace ++ [.desel] := rfl

@[simp] theorem delay_params (ms : Nat) (s : State) : (delay ms s).params = s.params := rfl
@[simp] theorem delay_regs (ms : Nat) (s : State) : (delay ms s).regs = s.regs := rfl
@[simp] theorem delay_env (ms : Nat) (s : State) : (delay ms s).env = s.env := rfl
@[simp] theorem delay_program (ms : Nat) (s : State) : (delay ms s).program = s.program := rfl
@[simp] theorem delay_pc (ms : Nat) (s : State) : (delay ms s).pc = s.pc := rfl
@[simp] theorem delay_resets (ms : Nat) (s : State) : (delay ms s).resets = s.resets := rfl
@[simp] theorem delay_responses (ms : Nat) (s : State) : (delay ms s).responses = s.responses := rfl
@[simp] theorem delay_trace (ms : Nat) (s : State) : (delay ms s).trace = s.trace ++ [.delay ms] := rfl

@[simp] theorem notify_params (c : Comp) (m : Half) (s : State) : (notify c m s).params = s.params := rfl
@[simp] theorem notify_regs (c : Comp) (m : Half) (s : State) : (notify c m s).regs = s.regs := rfl
@[simp] theorem notify_env (c : Comp) (m : Half) (s : State) : (notify c m s).env = s.env := rfl
@[simp] theorem notify_program (c : Comp) (m : Half) (s : State) : (notify c m s).program = s.program := rfl
@[simp] theorem notify_pc (c : Comp) (m : Half) (s : State) : (notify c m s).pc = s.pc := rfl
@[simp] theorem notify_resets (c : Comp) (m : Half) (s : State) : (notify c m s).resets = s.resets := rfl
@[simp] theorem notify_responses (c : Comp) (m : Half) (s : State) : (notify c m s).responses = s.responses := rfl
@[simp] theorem notify_trace (c : Comp) (m : Half) (s : State) : (notify c m s).trace = s.trace ++ [.notify c m] := rfl

@[simp] theorem respond_params (ok : Bool) (d : Data) (s : State) : (respond ok d s).params = s.params := rfl
@[simp] theorem respond_regs (ok : Bool) (d : Data) (s : State) : (respond ok d s).regs = s.regs := rfl
@[simp] theorem respond_env (ok : Bool) (d : Data) (s : State) : (respond ok d s).env = s.env := rfl
@[simp] theorem respond_program (ok : Bool) (d : Data) (s : State) : (respond ok d s).program = s.program := rfl
@[simp] theorem respond_pc (ok : Bool) (d : Data) (s : State) : (respond ok d s).pc = s.pc := rfl
@[simp] theorem respond_resets (ok : Bool) (d : Data) (s : State) : (respond ok d s).resets = s.resets := rfl
@[simp] theorem respond_responses (ok : Bool) (d : Data) (s : State) : (respond ok d s).responses = s.responses ++ [{ ok := ok, data := d }] := rfl
@[simp] theorem respond_trace (ok : Bool) (d : Data) (s : State) : (respond ok d s).trace = s.trace := rfl

@[simp] theorem refuse_params (s : State) : (refuse s).params = s.params := rfl
@[simp] theorem refuse_regs (s : State) : (refuse s).regs = s.regs := rfl
@[simp] theorem refuse_env (s : State) : (refuse s).env = s.env := rfl
@[simp] theorem refuse_program (s : State) : (refuse s).program = s.program := rfl
@[simp] theorem refuse_pc (s : State) : (refuse s).pc = s.pc := rfl
@[simp] theorem refuse_resets (s : State) : (refuse s).resets = s.resets := rfl
@[simp] theorem refuse_responses (s : State) : (refuse s).responses = s.responses ++ [{ ok := false, data := 0 }] := rfl
@[simp] theorem refuse_trace (s : State) : (refuse s).trace = s.trace := rfl

@[simp] theorem hardReset_params (s : State) : (hardReset s).params = s.params := rfl
@[simp] theorem hardReset_regs (s : State) : (hardReset s).regs = Regs.reset s.params := rfl
@[simp] theorem hardReset_env (s : State) : (hardReset s).env = s.env := rfl
@[simp] theorem hardReset_program (s : State) : (hardReset s).program = s.program := rfl
@[simp] theorem hardReset_pc (s : State) : (hardReset s).pc = s.pc := rfl
@[simp] theorem hardReset_resets (s : State) : (hardReset s).resets = s.resets := rfl
@[simp] theorem hardReset_responses (s : State) : (hardReset s).responses = s.responses := rfl
@[simp] theorem hardReset_trace (s : State) : (hardReset s).trace = s.trace := rfl

@[simp] theorem setFdState_params (f : FdState) (s : State) : (setFdState f s).params = s.params := rfl
@[simp] theorem setFdState_regs (f : FdState) (s : State) : (setFdState f s).regs = { s.regs with fdState := f } := rfl
@[simp] theorem setFdState_env (f : FdState) (s : State) : (setFdState f s).env = s.env := rfl
@[simp] theorem setFdState_program (f : FdState) (s : State) : (setFdState f s).program = s.program := rfl
@[simp] theorem setFdState_pc (f : FdState) (s : State) : (setFdState f s).pc = s.pc := rfl
@[simp] theorem setFdState_resets (f : FdState) (s : State) : (setFdState f s).resets = s.resets := rfl
@[simp] theorem setFdState_responses (f : FdState) (s : State) : (setFdState f s).responses = s.responses := rfl
@[simp] theorem setFdState_trace (f : FdState) (s : State) : (setFdState f s).trace = s.trace := rfl

@[simp] theorem setFdPolls_params (n : Half) (s : State) : (setFdPolls n s).params = s.params := rfl
@[simp] theorem setFdPolls_regs (n : Half) (s : State) : (setFdPolls n s).regs = { s.regs with fdPolls := n } := rfl
@[simp] theorem setFdPolls_env (n : Half) (s : State) : (setFdPolls n s).env = s.env := rfl
@[simp] theorem setFdPolls_program (n : Half) (s : State) : (setFdPolls n s).program = s.program := rfl
@[simp] theorem setFdPolls_pc (n : Half) (s : State) : (setFdPolls n s).pc = s.pc := rfl
@[simp] theorem setFdPolls_resets (n : Half) (s : State) : (setFdPolls n s).resets = s.resets := rfl
@[simp] theorem setFdPolls_responses (n : Half) (s : State) : (setFdPolls n s).responses = s.responses := rfl
@[simp] theorem setFdPolls_trace (n : Half) (s : State) : (setFdPolls n s).trace = s.trace := rfl

@[simp] theorem setFdSaved_params (c : Byte) (s : State) : (setFdSaved c s).params = s.params := rfl
@[simp] theorem setFdSaved_regs (c : Byte) (s : State) : (setFdSaved c s).regs = { s.regs with fdSaved := c } := rfl
@[simp] theorem setFdSaved_env (c : Byte) (s : State) : (setFdSaved c s).env = s.env := rfl
@[simp] theorem setFdSaved_program (c : Byte) (s : State) : (setFdSaved c s).program = s.program := rfl
@[simp] theorem setFdSaved_pc (c : Byte) (s : State) : (setFdSaved c s).pc = s.pc := rfl
@[simp] theorem setFdSaved_resets (c : Byte) (s : State) : (setFdSaved c s).resets = s.resets := rfl
@[simp] theorem setFdSaved_responses (c : Byte) (s : State) : (setFdSaved c s).responses = s.responses := rfl
@[simp] theorem setFdSaved_trace (c : Byte) (s : State) : (setFdSaved c s).trace = s.trace := rfl

@[simp] theorem setFdArmed_params (b : Bool) (s : State) : (setFdArmed b s).params = s.params := rfl
@[simp] theorem setFdArmed_regs (b : Bool) (s : State) : (setFdArmed b s).regs = { s.regs with fdArmed := b } := rfl
@[simp] theorem setFdArmed_env (b : Bool) (s : State) : (setFdArmed b s).env = s.env := rfl
@[simp] theorem setFdArmed_program (b : Bool) (s : State) : (setFdArmed b s).program = s.program := rfl
@[simp] theorem setFdArmed_pc (b : Bool) (s : State) : (setFdArmed b s).pc = s.pc := rfl
@[simp] theorem setFdArmed_resets (b : Bool) (s : State) : (setFdArmed b s).resets = s.resets := rfl
@[simp] theorem setFdArmed_responses (b : Bool) (s : State) : (setFdArmed b s).responses = s.responses := rfl
@[simp] theorem setFdArmed_trace (b : Bool) (s : State) : (setFdArmed b s).trace = s.trace := rfl

@[simp] theorem advance_params (s : State) : (advance s).params = s.params := rfl
@[simp] theorem advance_regs (s : State) : (advance s).regs = s.regs := rfl
@[simp] theorem advance_env (s : State) : (advance s).env = s.env := rfl
@[simp] theorem advance_program (s : State) : (advance s).program = s.program := rfl
@[simp] theorem advance_pc (s : State) : (advance s).pc = s.pc + 1 := rfl
@[simp] theorem advance_resets (s : State) : (advance s).resets = s.resets.tail := rfl
@[simp] theorem advance_responses (s : State) : (advance s).responses = s.responses := rfl
@[simp] theorem advance_trace (s : State) : (advance s).trace = s.trace := rfl

@[simp] theorem performed_params (es : List Event) (s : State) : (performed es s).params = s.params := rfl
@[simp] theorem performed_regs (es : List Event) (s : State) : (performed es s).regs = s.regs := rfl
@[simp] theorem performed_env (es : List Event) (s : State) : (performed es s).env = s.env.replay es := rfl
@[simp] theorem performed_program (es : List Event) (s : State) : (performed es s).program = s.program := rfl
@[simp] theorem performed_pc (es : List Event) (s : State) : (performed es s).pc = s.pc := rfl
@[simp] theorem performed_resets (es : List Event) (s : State) : (performed es s).resets = s.resets := rfl
@[simp] theorem performed_responses (es : List Event) (s : State) : (performed es s).responses = s.responses := rfl
@[simp] theorem performed_trace (es : List Event) (s : State) : (performed es s).trace = s.trace ++ es := rfl

end Sys2Proof.Machine
end

