-- ==== Sys2Proof/Laws/Memory.lean ====
section
/-!
SUPPORT. The byte memories: read after write, the frame of a write and of a transfer, and that every memory operation
keeps the canonical form and the address bound.
-/

namespace Sys2Proof.Machine

@[simp] theorem Memory.read_nil (a : Nat) : Memory.read [] a = none := rfl

theorem Memory.read_write_same (m : Memory) (a : Nat) (b : Byte) : (m.write a b).read a = some b := by
  induction m with
  | nil => simp [Memory.write, Memory.read]
  | cons e rest ih =>
    obtain ⟨k, c⟩ := e
    by_cases h1 : a < k
    · simp [Memory.write, Memory.read, h1]
    · by_cases h2 : a = k
      · simp [Memory.write, Memory.read, h2]
      · simp [Memory.write, Memory.read, h1, h2, Ne.symm h2, ih]

theorem Memory.read_write_other (m : Memory) (a x : Nat) (b : Byte) (h : x ≠ a) :
    (m.write a b).read x = m.read x := by
  induction m with
  | nil => simp [Memory.write, Memory.read, Ne.symm h]
  | cons e rest ih =>
    obtain ⟨k, c⟩ := e
    by_cases h1 : a < k
    · simp [Memory.write, Memory.read, h1, Ne.symm h]
    · by_cases h2 : a = k
      · subst h2
        simp [Memory.write, Memory.read, Ne.symm h]
      · simp [Memory.write, Memory.read, h1, h2, ih]

theorem Memory.above_write (m : Memory) (k a : Nat) (b : Byte) (h : m.above k = true) (hk : k < a) :
    (m.write a b).above k = true := by
  induction m generalizing k with
  | nil => simp [Memory.write, Memory.above, hk]
  | cons e rest ih =>
    obtain ⟨j, c⟩ := e
    simp only [Memory.above, Bool.and_eq_true, decide_eq_true_eq] at h
    by_cases h1 : a < j
    · simp [Memory.write, Memory.above, h1, hk, h.2]
    · by_cases h2 : a = j
      · subst h2
        simp [Memory.write, Memory.above, hk, h.2]
      · simp [Memory.write, Memory.above, h1, h2, h.1, ih j h.2 (by omega)]

theorem Memory.wf_write (m : Memory) (a : Nat) (b : Byte) (h : m.wf = true) : (m.write a b).wf = true := by
  cases m with
  | nil => rfl
  | cons e rest =>
    obtain ⟨j, c⟩ := e
    simp only [Memory.wf] at h
    by_cases h1 : a < j
    · simp [Memory.write, Memory.wf, Memory.above, h1, h]
    · by_cases h2 : a = j
      · subst h2
        simp [Memory.write, Memory.wf, h]
      · simp [Memory.write, Memory.wf, h1, h2, Memory.above_write rest j a b h (by omega)]

theorem below_write (m : Memory) (n a : Nat) (b : Byte) (h : below n m = true) (ha : a < n) :
    below n (m.write a b) = true := by
  induction m with
  | nil => simp [Memory.write, below, ha]
  | cons e rest ih =>
    obtain ⟨j, c⟩ := e
    simp only [below, List.all_cons, Bool.and_eq_true, decide_eq_true_eq] at h ih ⊢
    by_cases h1 : a < j
    · simp only [Memory.write, h1, if_true, List.all_cons, Bool.and_eq_true, decide_eq_true_eq]
      exact ⟨ha, h⟩
    · by_cases h2 : a = j
      · subst h2
        simp only [Memory.write, h1, if_false, if_true, List.all_cons, Bool.and_eq_true, decide_eq_true_eq]
        exact h
      · simp only [Memory.write, h1, h2, if_false, List.all_cons, Bool.and_eq_true, decide_eq_true_eq]
        exact ⟨h.1, ih h.2⟩

theorem Memory.wf_store (bytes : List Byte) (m : Memory) (a : Nat) (l : List Bool) (r : Bool)
    (h : m.wf = true) : (m.store a bytes l r).wf = true := by
  induction bytes generalizing m a l with
  | nil => simpa [Memory.store] using h
  | cons b bs ih =>
    simp only [Memory.store]
    apply ih
    split
    · exact Memory.wf_write m a b h
    · exact h

theorem below_store (bytes : List Byte) (m : Memory) (n a : Nat) (l : List Bool) (r : Bool)
    (h : below n m = true) (ha : a + bytes.length ≤ n) : below n (m.store a bytes l r) = true := by
  induction bytes generalizing m a l with
  | nil => simpa [Memory.store] using h
  | cons b bs ih =>
    simp only [Memory.store]
    simp only [List.length_cons] at ha
    apply ih
    · split
      · exact below_write m n a b h (by omega)
      · exact h
    · omega

theorem Memory.read_store_outside (bytes : List Byte) (m : Memory) (a x : Nat) (l : List Bool) (r : Bool)
    (h : x < a ∨ a + bytes.length ≤ x) : (m.store a bytes l r).read x = m.read x := by
  induction bytes generalizing m a l with
  | nil => rfl
  | cons b bs ih =>
    simp only [Memory.store]
    simp only [List.length_cons] at h
    rw [ih _ _ _ (by omega)]
    split
    · exact Memory.read_write_other m a x b (by omega)
    · rfl

/-- A transfer the device took whole reads back byte for byte. -/
theorem Memory.read_store_inside (bytes : List Byte) (m : Memory) (a i : Nat) (h : i < bytes.length) :
    (m.store a bytes [] true).read (a + i) = some bytes[i] := by
  induction bytes generalizing m a i with
  | nil => simp at h
  | cons b bs ih =>
    simp only [Memory.store, List.headD_nil, List.tail_nil, if_true]
    cases i with
    | zero =>
      rw [Memory.read_store_outside _ _ _ _ _ _ (by omega)]
      simpa using Memory.read_write_same m a b
    | succ i =>
      simp only [List.length_cons, Nat.add_lt_add_iff_right] at h
      have := ih (m.write a b) (a + 1) i h
      rw [show a + (i + 1) = a + 1 + i by omega]
      simpa using this

/-- The memories after reset, of which nothing is known, have the canonical form. -/
theorem reset_memories_wf : State.reset.env.rtdRegs.wf = true ∧ State.reset.env.nvm.wf = true := ⟨rfl, rfl⟩

end Sys2Proof.Machine
end

