-- ==== Sys2Proof/Laws/Environment.lean ====
section
/-!
SUPPORT. The environment's answers: which script each call reads, and what each call leaves of the devices.
-/

namespace Sys2Proof.Machine

/-! An answer the script gives. -/

theorem takeTx_cons (v : Env) (r : PutReply) (q : List PutReply) (h : v.txQ = r :: q) :
    v.takeTx = (r, { v with txQ := q }) := by
  simp [Env.takeTx, h]

theorem takeRx_cons (v : Env) (r : GetReply) (q : List GetReply) (h : v.rxQ = r :: q) :
    v.takeRx = (r, { v with rxQ := q }) := by
  simp [Env.takeRx, h]

theorem takeDrdy_cons (v : Env) (r : Bool) (q : List Bool) (h : v.drdyQ = r :: q) :
    v.takeDrdy = (r, { v with drdyQ := q }) := by
  simp [Env.takeDrdy, h]

theorem takeBlkWrite_cons (v : Env) (r : PutReply) (q : List PutReply) (h : v.blkWriteQ = r :: q) :
    v.takeBlkWrite = (r, { v with blkWriteQ := q }) := by
  simp [Env.takeBlkWrite, h]

theorem takeBlkRead_cons (v : Env) (r : GetReply) (q : List GetReply) (h : v.blkReadQ = r :: q) :
    v.takeBlkRead = (r, { v with blkReadQ := q }) := by
  simp [Env.takeBlkRead, h]

theorem takeBlkReady_cons (v : Env) (r : Bool) (q : List Bool) (h : v.blkReadyQ = r :: q) :
    v.takeBlkReady = (r, { v with blkReadyQ := q }) := by
  simp [Env.takeBlkReady, h]

/-! Taking an answer leaves both memories alone, and the register address. -/

@[simp] theorem takeTx_rtdRegs (v : Env) : v.takeTx.2.rtdRegs = v.rtdRegs := by
  unfold Env.takeTx; split <;> rfl
@[simp] theorem takeTx_nvm (v : Env) : v.takeTx.2.nvm = v.nvm := by
  unfold Env.takeTx; split <;> rfl
@[simp] theorem takeRx_rtdRegs (v : Env) : v.takeRx.2.rtdRegs = v.rtdRegs := by
  unfold Env.takeRx; split <;> rfl
@[simp] theorem takeRx_nvm (v : Env) : v.takeRx.2.nvm = v.nvm := by
  unfold Env.takeRx; split <;> rfl
@[simp] theorem takeDrdy_rtdRegs (v : Env) : v.takeDrdy.2.rtdRegs = v.rtdRegs := by
  unfold Env.takeDrdy; split <;> rfl
@[simp] theorem takeDrdy_nvm (v : Env) : v.takeDrdy.2.nvm = v.nvm := by
  unfold Env.takeDrdy; split <;> rfl
@[simp] theorem takeBlkWrite_rtdRegs (v : Env) : v.takeBlkWrite.2.rtdRegs = v.rtdRegs := by
  unfold Env.takeBlkWrite; split <;> rfl
@[simp] theorem takeBlkWrite_nvm (v : Env) : v.takeBlkWrite.2.nvm = v.nvm := by
  unfold Env.takeBlkWrite; split <;> rfl
@[simp] theorem takeBlkRead_rtdRegs (v : Env) : v.takeBlkRead.2.rtdRegs = v.rtdRegs := by
  unfold Env.takeBlkRead; split <;> rfl
@[simp] theorem takeBlkRead_nvm (v : Env) : v.takeBlkRead.2.nvm = v.nvm := by
  unfold Env.takeBlkRead; split <;> rfl
@[simp] theorem takeBlkReady_rtdRegs (v : Env) : v.takeBlkReady.2.rtdRegs = v.rtdRegs := by
  unfold Env.takeBlkReady; split <;> rfl
@[simp] theorem takeBlkReady_nvm (v : Env) : v.takeBlkReady.2.nvm = v.nvm := by
  unfold Env.takeBlkReady; split <;> rfl

/-! What a transfer leaves of the devices. -/

@[simp] theorem deviceTx_nvm (v : Env) (bytes : List Byte) (r : PutReply) : (v.deviceTx bytes r).nvm = v.nvm := by
  unfold Env.deviceTx; split
  · rfl
  · split <;> rfl

@[simp] theorem env_tx_nvm (v : Env) (bytes : List Byte) : (v.tx bytes).2.nvm = v.nvm := by
  simp [Env.tx]

@[simp] theorem env_rx_nvm (v : Env) (n : Nat) : (v.rx n).2.nvm = v.nvm := by
  simp [Env.rx]

@[simp] theorem env_rx_rtdRegs (v : Env) (n : Nat) : (v.rx n).2.rtdRegs = v.rtdRegs := by
  simp [Env.rx]

@[simp] theorem env_blkRead_nvm (v : Env) (a n : Nat) : (v.blkRead a n).2.nvm = v.nvm := by
  simp [Env.blkRead]

@[simp] theorem env_blkRead_rtdRegs (v : Env) (a n : Nat) : (v.blkRead a n).2.rtdRegs = v.rtdRegs := by
  simp [Env.blkRead]

@[simp] theorem env_blkWrite_rtdRegs (v : Env) (a : Nat) (bs : List Byte) :
    (v.blkWrite a bs).2.rtdRegs = v.rtdRegs := by
  simp [Env.blkWrite]

/-- A read of a device register, the address byte without the write flag, leaves the device registers alone. -/
theorem env_tx_read_rtdRegs (v : Env) (a : Byte) (rest : List Byte) (h : a.getLsbD 7 = false) :
    (v.tx (a :: rest)).2.rtdRegs = v.rtdRegs := by
  simp only [Env.tx, Env.deviceTx, h]
  simp

/-- A `BlkWrite` changes no NVM byte outside the bytes it carries. -/
theorem env_blkWrite_outside (v : Env) (a : Nat) (bs : List Byte) (x : Nat) (h : x < a ∨ a + bs.length ≤ x) :
    (v.blkWrite a bs).2.nvm.read x = v.nvm.read x := by
  simp only [Env.blkWrite]
  rw [Memory.read_store_outside _ _ _ _ _ _ h, takeBlkWrite_nvm]

@[simp] theorem fillReply_length (r : GetReply) (n : Nat) (held : Nat → Byte) : (fillReply r n held).length = n := by
  simp [fillReply]

@[simp] theorem env_rx_length (v : Env) (n : Nat) : (v.rx n).1.1.length = n := by
  simp [Env.rx]

@[simp] theorem env_blkRead_length (v : Env) (a n : Nat) : (v.blkRead a n).1.1.length = n := by
  simp [Env.blkRead]

@[simp] theorem replay_nil (v : Env) : v.replay [] = v := rfl

@[simp] theorem replay_cons (v : Env) (e : Event) (es : List Event) : v.replay (e :: es) = (v.apply e).replay es :=
  rfl

theorem replay_append (v : Env) (es fs : List Event) : v.replay (es ++ fs) = (v.replay es).replay fs := by
  induction es generalizing v with
  | nil => rfl
  | cons e es ih => simp [ih]

end Sys2Proof.Machine
end

