-- ==== Sys2Proof/Laws/Moves.lean ====
section
/-!
SUPPORT. What a shared operation can do, said once for each. `Moves s t es`: from `s` to `t` exactly the events `es`
happen; the trace grows by them, the environment is what they leave, and nothing of the host's side changes. The
registers are said beside it.
-/

namespace Sys2Proof.Machine

/-- From `s` to `t` exactly the events `es` happen and no response is given. -/
structure Moves (s t : State) (es : List Event) : Prop where
  params : t.params = s.params
  env : t.env = s.env.replay es
  program : t.program = s.program
  pc : t.pc = s.pc
  resets : t.resets = s.resets
  responses : t.responses = s.responses
  trace : t.trace = s.trace ++ es

theorem Moves.refl (s : State) : Moves s s [] := by
  constructor <;> simp

theorem Moves.trans {s t u : State} {es fs : List Event} (h : Moves s t es) (g : Moves t u fs) :
    Moves s u (es ++ fs) := by
  constructor
  · rw [g.params, h.params]
  · rw [g.env, h.env, replay_append]
  · rw [g.program, h.program]
  · rw [g.pc, h.pc]
  · rw [g.resets, h.resets]
  · rw [g.responses, h.responses]
  · rw [g.trace, h.trace, List.append_assoc]

/-- Changing registers only is a move without events. -/
theorem Moves.withRegs (s : State) (r : Regs) : Moves s (s.withRegs r) [] := by
  constructor <;> simp

theorem Moves.setFdState (f : FdState) (s : State) : Moves s (setFdState f s) [] := Moves.withRegs s _
theorem Moves.setFdPolls (n : Half) (s : State) : Moves s (setFdPolls n s) [] := Moves.withRegs s _
theorem Moves.setFdSaved (c : Byte) (s : State) : Moves s (setFdSaved c s) [] := Moves.withRegs s _
theorem Moves.setFdArmed (b : Bool) (s : State) : Moves s (setFdArmed b s) [] := Moves.withRegs s _

theorem moves_sel (s : State) : Moves s (sel s) [.sel] := by
  constructor <;> simp [Env.apply]

theorem moves_desel (s : State) : Moves s (desel s) [.desel] := by
  constructor <;> simp [Env.apply]

theorem moves_delay (ms : Nat) (s : State) : Moves s (delay ms s) [.delay ms] := by
  constructor <;> simp [Env.apply]

theorem moves_notify (c : Comp) (m : Half) (s : State) : Moves s (notify c m s) [.notify c m] := by
  constructor <;> simp [Env.apply]

theorem tx_spec {bytes : List Byte} {s t : State} {st : Status} (h : tx bytes s = (st, t)) :
    Moves s t [.tx bytes st] ∧ t.regs = s.regs := by
  simp only [tx] at h
  obtain ⟨rfl, rfl⟩ := Prod.mk.inj h
  exact ⟨by constructor <;> simp [Env.apply], rfl⟩

theorem rx_spec {n : Nat} {s t : State} {bytes : List Byte} {st : Status} (h : rx n s = ((bytes, st), t)) :
    Moves s t [.rx n bytes st] ∧ t.regs = s.regs ∧ bytes.length = n := by
  simp only [rx] at h
  obtain ⟨h1, rfl⟩ := Prod.mk.inj h
  obtain ⟨rfl, rfl⟩ := Prod.mk.inj h1
  exact ⟨by constructor <;> simp [Env.apply], rfl, by simp⟩

theorem drdy_spec {s t : State} {level : Bool} (h : drdy s = (level, t)) :
    Moves s t [.drdy level] ∧ t.regs = s.regs := by
  simp only [drdy] at h
  obtain ⟨rfl, rfl⟩ := Prod.mk.inj h
  exact ⟨by constructor <;> simp [Env.apply], rfl⟩

theorem blkWrite_spec {a : Nat} {bytes : List Byte} {s t : State} {st : Status} (h : blkWrite a bytes s = (st, t)) :
    Moves s t [.blkWrite s.params.nvmDev a bytes s.regs.timeoutMs st] ∧ t.regs = s.regs := by
  simp only [blkWrite] at h
  obtain ⟨rfl, rfl⟩ := Prod.mk.inj h
  exact ⟨by constructor <;> simp [Env.apply], rfl⟩

theorem blkRead_spec {a n : Nat} {s t : State} {bytes : List Byte} {st : Status}
    (h : blkRead a n s = ((bytes, st), t)) :
    Moves s t [.blkRead s.params.nvmDev a n s.regs.timeoutMs bytes st] ∧ t.regs = s.regs ∧ bytes.length = n := by
  simp only [blkRead] at h
  obtain ⟨h1, rfl⟩ := Prod.mk.inj h
  obtain ⟨rfl, rfl⟩ := Prod.mk.inj h1
  exact ⟨by constructor <;> simp [Env.apply], rfl, by simp⟩

theorem blkReady_spec {s t : State} {bit : Bool} (h : blkReady s = (bit, t)) :
    Moves s t [.blkReady s.params.nvmDev bit] ∧ t.regs = s.regs := by
  simp only [blkReady] at h
  obtain ⟨rfl, rfl⟩ := Prod.mk.inj h
  exact ⟨by constructor <;> simp [Env.apply], rfl⟩

/-- The events of a register read, by its outcome (R111). -/
def readEvents (a : Byte) (n : Nat) (es : List Event) (o : Option (List Byte)) : Prop :=
  (es = [.sel, .tx [a] .fail, .desel] ∧ o = none)
    ∨ (∃ b, es = [.sel, .tx [a] .ok, .rx n b .fail, .desel] ∧ o = none)
    ∨ (∃ b, es = [.sel, .tx [a] .ok, .rx n b .ok, .desel] ∧ o = some b ∧ b.length = n)

theorem regRead_spec {a : Byte} {n : Nat} {s t : State} {o : Option (List Byte)} (h : regRead a n s = (o, t)) :
    ∃ es, Moves s t es ∧ t.regs = { s.regs with cs := false } ∧ readEvents a n es o := by
  unfold regRead at h
  rcases h1 : tx [a] (sel s) with ⟨st, s1⟩
  obtain ⟨m1, r1⟩ := tx_spec h1
  have m1 := (moves_sel s).trans m1
  rw [h1] at h
  cases st with
  | fail =>
    obtain ⟨rfl, rfl⟩ := Prod.mk.inj h
    exact ⟨_, m1.trans (moves_desel s1), by simp [r1], .inl ⟨rfl, rfl⟩⟩
  | ok =>
    rcases h2 : rx n s1 with ⟨⟨bytes, st⟩, s2⟩
    obtain ⟨m2, r2, len⟩ := rx_spec h2
    have m2 := (m1.trans m2).trans (moves_desel s2)
    simp only [h2] at h
    cases st with
    | fail =>
      obtain ⟨rfl, rfl⟩ := Prod.mk.inj h
      exact ⟨_, m2, by simp [r2, r1], .inr (.inl ⟨bytes, rfl, rfl⟩)⟩
    | ok =>
      obtain ⟨rfl, rfl⟩ := Prod.mk.inj h
      exact ⟨_, m2, by simp [r2, r1], .inr (.inr ⟨bytes, rfl, rfl, len⟩)⟩

theorem regWrite_spec {a : Byte} {bytes : List Byte} {s t : State} {st : Status} (h : regWrite a bytes s = (st, t)) :
    Moves s t [.sel, .tx ((a ||| writeFlag) :: bytes) st, .desel] ∧ t.regs = { s.regs with cs := false } := by
  unfold regWrite at h
  rcases h1 : tx ((a ||| writeFlag) :: bytes) (sel s) with ⟨st', s1⟩
  obtain ⟨m1, r1⟩ := tx_spec h1
  rw [h1] at h
  obtain ⟨rfl, rfl⟩ := Prod.mk.inj h
  exact ⟨((moves_sel s).trans m1).trans (moves_desel s1), by simp [r1]⟩

/-- `readConfig` is a one-byte register read at `CONFIG`. -/
theorem readConfig_spec {s t : State} {o : Option Byte} (h : readConfig s = (o, t)) :
    ∃ es b, Moves s t es ∧ t.regs = { s.regs with cs := false } ∧ readEvents addrConfig 1 es b
      ∧ o = b.map fun l => byteAt l 0 := by
  unfold readConfig at h
  rcases h1 : regRead addrConfig 1 s with ⟨b, s1⟩
  obtain ⟨es, m, r, e⟩ := regRead_spec h1
  rw [h1] at h
  cases b with
  | none =>
    obtain ⟨rfl, rfl⟩ := Prod.mk.inj h
    exact ⟨es, none, m, r, e, rfl⟩
  | some l =>
    obtain ⟨rfl, rfl⟩ := Prod.mk.inj h
    exact ⟨es, some l, m, r, e, rfl⟩

theorem writeConfig_spec {c : Byte} {s t : State} {st : Status} (h : writeConfig c s = (st, t)) :
    Moves s t [.sel, .tx [addrConfig ||| writeFlag, c] st, .desel] ∧ t.regs = { s.regs with cs := false } :=
  regWrite_spec h

/-- The notification of R213: one event where it is due, none where it is not. -/
theorem notifyIfDue_spec (c : Comp) (err : Half) (s : State) :
    ∃ es, Moves s (notifyIfDue c err s) es ∧ (notifyIfDue c err s).regs = s.regs
      ∧ (es = [] ∨ (es = [.notify c err] ∧ err ≠ 0 ∧ s.regs.sinkEn c = true)) := by
  unfold notifyIfDue
  split
  · rename_i h
    exact ⟨_, moves_notify c err s, rfl, .inr ⟨rfl, h⟩⟩
  · exact ⟨_, Moves.refl s, rfl, .inl rfl⟩

@[simp] theorem finish_regs (c : Comp) (err : Half) (ok : Bool) (d : Data) (s : State) :
    (finish c err ok d s).regs = s.regs := by
  unfold finish notifyIfDue; split <;> rfl

@[simp] theorem finish_params (c : Comp) (err : Half) (ok : Bool) (d : Data) (s : State) :
    (finish c err ok d s).params = s.params := by
  unfold finish notifyIfDue; split <;> rfl

@[simp] theorem finish_env (c : Comp) (err : Half) (ok : Bool) (d : Data) (s : State) :
    (finish c err ok d s).env = s.env := by
  unfold finish notifyIfDue; split <;> rfl

@[simp] theorem finish_program (c : Comp) (err : Half) (ok : Bool) (d : Data) (s : State) :
    (finish c err ok d s).program = s.program := by
  unfold finish notifyIfDue; split <;> rfl

@[simp] theorem finish_pc (c : Comp) (err : Half) (ok : Bool) (d : Data) (s : State) :
    (finish c err ok d s).pc = s.pc := by
  unfold finish notifyIfDue; split <;> rfl

@[simp] theorem finish_resets (c : Comp) (err : Half) (ok : Bool) (d : Data) (s : State) :
    (finish c err ok d s).resets = s.resets := by
  unfold finish notifyIfDue; split <;> rfl

@[simp] theorem finish_responses (c : Comp) (err : Half) (ok : Bool) (d : Data) (s : State) :
    (finish c err ok d s).responses = s.responses ++ [{ ok := ok, data := d }] := by
  unfold finish notifyIfDue; split <;> rfl

theorem finish_trace (c : Comp) (err : Half) (ok : Bool) (d : Data) (s : State) :
    (finish c err ok d s).trace
      = s.trace ++ if err ≠ 0 ∧ s.regs.sinkEn c = true then [.notify c err] else [] := by
  unfold finish notifyIfDue; split <;> simp

end Sys2Proof.Machine
end

