-- ==== Sys2Proof/Laws/Runs.lean ====
section
/-!
SUPPORT. The algebra of the words statements are written in: `performed`, `ended`, `repliesOf` over a list of events
in two parts, and what one event of the environment's answering does to the call that makes it.
-/

namespace Sys2Proof.Machine

@[simp] theorem performed_nil (s : State) : performed [] s = s := by simp [performed]

@[simp] theorem performed_performed (es fs : List Event) (s : State) :
    performed fs (performed es s) = performed (es ++ fs) s := by
  simp [performed, replay_append]

@[simp] theorem performed_withRegs (es : List Event) (r : Regs) (s : State) :
    performed es (s.withRegs r) = (performed es s).withRegs r := rfl

@[simp] theorem withRegs_withRegs (r r' : Regs) (s : State) : (s.withRegs r).withRegs r' = s.withRegs r' := rfl

@[simp] theorem withRegs_same (s : State) : s.withRegs s.regs = s := rfl


@[simp] theorem repliesOf_nil (v : Env) : repliesOf v [] = true := rfl

@[simp] theorem repliesOf_cons (v : Env) (e : Event) (es : List Event) :
    repliesOf v (e :: es) = (replyOf v e && repliesOf (v.apply e) es) := rfl

@[simp] theorem repliesOf_append (v : Env) (es fs : List Event) :
    repliesOf v (es ++ fs) = (repliesOf v es && repliesOf (v.replay es) fs) := by
  induction es generalizing v with
  | nil => simp
  | cons e es ih => simp [ih, Bool.and_assoc]

/-! One call whose reply the environment gives is one performed event. -/

theorem sel_eq (s : State) : sel s = (performed [.sel] s).withRegs { s.regs with cs := true } := rfl

theorem desel_eq (s : State) : desel s = (performed [.desel] s).withRegs { s.regs with cs := false } := rfl

theorem delay_eq (ms : Nat) (s : State) : delay ms s = performed [.delay ms] s := rfl

theorem notify_eq (c : Comp) (m : Half) (s : State) : notify c m s = performed [.notify c m] s := rfl

theorem tx_eq {bytes : List Byte} {st : Status} {s : State} (h : replyOf s.env (.tx bytes st) = true) :
    tx bytes s = (st, performed [.tx bytes st] s) := by
  simp only [replyOf, decide_eq_true_eq] at h
  subst h
  rfl

theorem rx_eq {n : Nat} {b : List Byte} {st : Status} {s : State} (h : replyOf s.env (.rx n b st) = true) :
    rx n s = ((b, st), performed [.rx n b st] s) := by
  simp only [replyOf, decide_eq_true_eq] at h
  obtain ⟨rfl, rfl⟩ := Prod.mk.inj h
  rfl

theorem drdy_eq {level : Bool} {s : State} (h : replyOf s.env (.drdy level) = true) :
    drdy s = (level, performed [.drdy level] s) := by
  simp only [replyOf, decide_eq_true_eq] at h
  subst h
  rfl

theorem blkWrite_eq {a : Nat} {v : List Byte} {st : Status} {s : State}
    (h : replyOf s.env (putEv s a v st) = true) :
    blkWrite a v s = (st, performed [putEv s a v st] s) := by
  simp only [replyOf, putEv, decide_eq_true_eq] at h
  subst h
  rfl

theorem blkRead_eq {a n : Nat} {b : List Byte} {st : Status} {s : State}
    (h : replyOf s.env (getEv s a n b st) = true) :
    blkRead a n s = ((b, st), performed [getEv s a n b st] s) := by
  simp only [replyOf, getEv, decide_eq_true_eq] at h
  obtain ⟨rfl, rfl⟩ := Prod.mk.inj h
  rfl

theorem blkReady_eq {bit : Bool} {s : State} (h : replyOf s.env (.blkReady s.params.nvmDev bit) = true) :
    blkReady s = (bit, performed [.blkReady s.params.nvmDev bit] s) := by
  simp only [replyOf, decide_eq_true_eq] at h
  subst h
  rfl

/-- How a command ends (R213): the events so far, the notification where it is due, the response. -/
theorem finish_eq (c : Comp) (err : Half) (ok : Bool) (d : Data) (es : List Event) (r : Regs) (s : State)
    (h : r.ctrl = s.regs.ctrl) :
    finish c err ok d ((performed es s).withRegs r) = ended s (es ++ dueEv s c err) r ok d := by
  have e : r.sinkEn c = s.regs.sinkEn c := by cases c <;> simp [Regs.sinkEn, h]
  unfold finish notifyIfDue dueEv ended
  simp only [withRegs_regs, e]
  split
  · rw [notify_eq, performed_withRegs, performed_performed]
  · simp

@[simp] theorem dueEv_zero (s : State) (c : Comp) : dueEv s c 0#16 = [] := by simp [dueEv]

theorem ended_nil (s : State) (r : Regs) (ok : Bool) (d : Data) : ended s [] r ok d = respond ok d (s.withRegs r) := by
  simp [ended]

end Sys2Proof.Machine
end

