-- ==== Sys2Proof/Laws/Calls.lean ====
section
/-!
SUPPORT. One lemma for each shared operation on a device: everything it can do, whatever the environment answers. An
operation on the RTD device is a run of whole items (`RtdItem`); one on the NVM is a run of `BlkRead`, `BlkReady` and
of `BlkWrite` within a set of bytes (`NvmEvent`). The provers cite these and unfold no loop.
-/

namespace Sys2Proof.Machine

/-- The eight writable CSRs of a register file. -/
def csrPart (r : Regs) : List Word :=
  [r.ctrl, r.fdPollMax, r.pollInterval, r.fdSettle, r.osPollMax, r.blkAttemptMax, r.blkReadyMax, r.blkTimeout]

/-- The fault-detection registers of a register file. -/
def fdPart (r : Regs) : FdState × Bool × Byte × Half := (r.fdState, r.fdArmed, r.fdSaved, r.fdPolls)

/-- What the RTD unit does on its side in one piece: a framed read of a register, a framed write to one of the
registers of `w` with that many bytes, a delay, a sample of the data-ready line. -/
inductive RtdItem (w : List (Byte × Nat)) : List Event → Prop where
  | readRefused (a : Byte) (h : a.getLsbD 7 = false) : RtdItem w [.sel, .tx [a] .fail, .desel]
  | read (a : Byte) (n : Nat) (b : List Byte) (st : Status) (h : a.getLsbD 7 = false) :
      RtdItem w [.sel, .tx [a] .ok, .rx n b st, .desel]
  | write (a : Byte) (b : List Byte) (st : Status) (h : (a, b.length) ∈ w) :
      RtdItem w [.sel, .tx ((a ||| writeFlag) :: b) st, .desel]
  | delay (ms : Nat) : RtdItem w [.delay ms]
  | drdy (level : Bool) : RtdItem w [.drdy level]

/-- From `s` to `t` the RTD unit performs whole items; CSRs and the deasserted chip-select are kept. -/
def RtdRan (w : List (Byte × Nat)) (s t : State) : Prop :=
  ∃ items : List (List Event), (∀ x ∈ items, RtdItem w x) ∧ Moves s t items.flatten
    ∧ repliesOf s.env items.flatten = true ∧ csrPart t.regs = csrPart s.regs
    ∧ (s.regs.cs = false → t.regs.cs = false)

theorem RtdRan.refl (w : List (Byte × Nat)) (s : State) : RtdRan w s s :=
  ⟨[], by simp, Moves.refl s, rfl, rfl, id⟩

theorem RtdRan.trans {w : List (Byte × Nat)} {s t u : State} (h : RtdRan w s t) (g : RtdRan w t u) :
    RtdRan w s u := by
  obtain ⟨xs, h1, h2, h3, h4, h5⟩ := h
  obtain ⟨ys, g1, g2, g3, g4, g5⟩ := g
  refine ⟨xs ++ ys, ?_, ?_, ?_, g4.trans h4, g5 ∘ h5⟩
  · intro x hx
    rcases List.mem_append.mp hx with hx | hx
    · exact h1 x hx
    · exact g1 x hx
  · rw [List.flatten_append]; exact h2.trans g2
  · rw [List.flatten_append, repliesOf_append, h3, ← h2.env, g3]; rfl

/-- Setting fault-detection registers is a run of no item. -/
theorem RtdRan.setRegs (w : List (Byte × Nat)) (s : State) (r : Regs) (h : csrPart r = csrPart s.regs)
    (hc : r.cs = s.regs.cs) : RtdRan w s (s.withRegs r) :=
  ⟨[], by simp, Moves.withRegs s r, rfl, h, fun h => hc.trans h⟩

theorem delay_ran (w : List (Byte × Nat)) (ms : Nat) (s : State) : RtdRan w s (delay ms s) :=
  ⟨[[.delay ms]], by simp [RtdItem.delay], by simpa using moves_delay ms s, rfl, rfl, id⟩

theorem drdy_ran {w : List (Byte × Nat)} {s t : State} {level : Bool} (h : drdy s = (level, t)) :
    RtdRan w s t ∧ t.regs = s.regs := by
  obtain ⟨m, r⟩ := drdy_spec h
  refine ⟨⟨[[.drdy level]], by simp [RtdItem.drdy], by simpa using m, ?_, by rw [r], by rw [r]; exact id⟩, r⟩
  have : s.env.takeDrdy.1 = level := congrArg Prod.fst h
  simp [replyOf, this]

/-- The replies of one register read are the environment's. -/
theorem regRead_ran {w : List (Byte × Nat)} {a : Byte} {n : Nat} {s t : State} {o : Option (List Byte)}
    (ha : a.getLsbD 7 = false) (h : regRead a n s = (o, t)) :
    RtdRan w s t ∧ t.regs = deselected s.regs := by
  unfold regRead tx at h
  rcases e1 : s.env.tx [a] with ⟨st, v⟩
  simp only [show (sel s).env = s.env from rfl, e1] at h
  have m0 := moves_sel s
  cases st with
  | fail =>
    obtain ⟨-, rfl⟩ := Prod.mk.inj h
    refine ⟨⟨[[.sel, .tx [a] .fail, .desel]], ?_, ?_, ?_, rfl, fun _ => rfl⟩, rfl⟩
    · simpa using RtdItem.readRefused a ha
    · constructor <;> simp [Env.apply, e1]
    · simp [replyOf, Env.apply, e1]
  | ok =>
    unfold rx at h
    rcases e2 : v.rx n with ⟨⟨b, st⟩, v2⟩
    simp only [emit_env, withEnv_env, e2] at h
    have m : RtdRan w s (desel ((((sel s).withEnv v).emit (.tx [a] .ok)).withEnv v2 |>.emit (.rx n b st))) := by
      refine ⟨[[.sel, .tx [a] .ok, .rx n b st, .desel]], ?_, ?_, ?_, rfl, fun _ => rfl⟩
      · simpa using RtdItem.read a n b st ha
      · constructor <;> simp [Env.apply, e1, e2]
      · simp [replyOf, Env.apply, e1, e2]
    cases st with
    | fail =>
      obtain ⟨-, rfl⟩ := Prod.mk.inj h
      exact ⟨m, rfl⟩
    | ok =>
      obtain ⟨-, rfl⟩ := Prod.mk.inj h
      exact ⟨m, rfl⟩

theorem regWrite_ran {w : List (Byte × Nat)} {a : Byte} {b : List Byte} {s t : State} {st : Status}
    (hw : (a, b.length) ∈ w) (h : regWrite a b s = (st, t)) : RtdRan w s t ∧ t.regs = deselected s.regs := by
  obtain ⟨m, r⟩ := regWrite_spec h
  refine ⟨⟨[[.sel, .tx ((a ||| writeFlag) :: b) st, .desel]], ?_, by simpa using m, ?_, by rw [r]; rfl, ?_⟩, r⟩
  · simpa using RtdItem.write a b st hw
  · unfold regWrite tx at h
    have : (s.env.tx ((a ||| writeFlag) :: b)).1 = st := congrArg Prod.fst h
    simp [replyOf, Env.apply, this]
  · intro _; rw [r]

theorem readConfig_ran {w : List (Byte × Nat)} {s t : State} {o : Option Byte} (h : readConfig s = (o, t)) :
    RtdRan w s t ∧ t.regs = deselected s.regs := by
  unfold readConfig at h
  rcases h1 : regRead addrConfig 1 s with ⟨b, s1⟩
  rw [h1] at h
  have := regRead_ran (w := w) (by decide) h1
  cases b with
  | none => obtain ⟨-, rfl⟩ := Prod.mk.inj h; exact this
  | some l => obtain ⟨-, rfl⟩ := Prod.mk.inj h; exact this

theorem writeConfig_ran {w : List (Byte × Nat)} {c : Byte} {s t : State} {st : Status}
    (hw : (addrConfig, 1) ∈ w) (h : writeConfig c s = (st, t)) : RtdRan w s t ∧ t.regs = deselected s.regs :=
  regWrite_ran hw h

theorem readyTest_ran {w : List (Byte × Nat)} {s t : State} {o : Option Bool} (h : readyTest s = (o, t)) :
    RtdRan w s t ∧ (t.regs = s.regs ∨ t.regs = deselected s.regs) := by
  unfold readyTest at h
  split at h
  · rcases h1 : drdy s with ⟨l, s1⟩
    rw [h1] at h
    obtain ⟨-, rfl⟩ := Prod.mk.inj h
    exact ⟨(drdy_ran h1).1, .inl (drdy_ran (w := w) h1).2⟩
  · rcases h1 : readConfig s with ⟨l, s1⟩
    rw [h1] at h
    have := readConfig_ran (w := w) h1
    cases l with
    | none => obtain ⟨-, rfl⟩ := Prod.mk.inj h; exact ⟨this.1, .inr this.2⟩
    | some c => obtain ⟨-, rfl⟩ := Prod.mk.inj h; exact ⟨this.1, .inr this.2⟩

/-- The wait loop of `RTD.READ1` changes no register but the chip-select. -/
theorem oneShotWait_ran {w : List (Byte × Nat)} {k : Nat} {s t : State} {o : WaitEnd}
    (h : oneShotWait k s = (o, t)) : RtdRan w s t ∧ (t.regs = s.regs ∨ t.regs = deselected s.regs) := by
  induction k generalizing s with
  | zero => obtain ⟨-, rfl⟩ := Prod.mk.inj h; exact ⟨RtdRan.refl w s, .inl rfl⟩
  | succ k ih =>
    unfold oneShotWait at h
    rcases h1 : readyTest s with ⟨r, s1⟩
    have r1 := readyTest_ran (w := w) h1
    rw [h1] at h
    match r, h with
    | none, h => obtain ⟨-, rfl⟩ := Prod.mk.inj h; exact r1
    | some true, h => obtain ⟨-, rfl⟩ := Prod.mk.inj h; exact r1
    | some false, h =>
      dsimp only at h
      have two : ∀ u : State, RtdRan w s1 u → u.regs = s1.regs → oneShotWait k u = (o, t) →
          RtdRan w s t ∧ (t.regs = s.regs ∨ t.regs = deselected s.regs) := by
        intro u hu hr hk
        obtain ⟨g1, g2⟩ := ih hk
        refine ⟨r1.1.trans (hu.trans g1), ?_⟩
        rw [hr] at g2
        rcases r1.2 with e | e <;> rw [e] at g2
        · exact g2
        · exact .inr (by simpa [deselected] using g2)
      by_cases h0 : k = 0
      · rw [if_pos h0] at h; exact two s1 (RtdRan.refl w s1) rfl h
      · rw [if_neg h0] at h; exact two _ (delay_ran w _ s1) rfl h

/-- The poll loop of the fault cycles writes `FD_POLLS` and no other register but the chip-select. -/
theorem fdPollLoop_ran {w : List (Byte × Nat)} {k n : Nat} {s t : State} {v : Verdict}
    (h : fdPollLoop k n s = (v, t)) :
    RtdRan w s t ∧ ∃ p c, t.regs = { s.regs with fdPolls := p, cs := c } := by
  induction k generalizing n s with
  | zero => obtain ⟨-, rfl⟩ := Prod.mk.inj h; exact ⟨RtdRan.refl w s, s.regs.fdPolls, s.regs.cs, rfl⟩
  | succ k ih =>
    unfold fdPollLoop at h
    rcases h1 : readConfig s with ⟨c, s1⟩
    obtain ⟨r1, e1⟩ := readConfig_ran (w := w) h1
    rw [h1] at h
    have r2 : ∀ p, RtdRan w s (setFdPolls p s1) := fun p =>
      r1.trans (RtdRan.setRegs w s1 _ rfl rfl)
    have e2 : ∀ p, (setFdPolls p s1).regs = { s.regs with fdPolls := p, cs := false } := fun p => by
      simp [setFdPolls, e1, deselected]
    cases c with
    | none => obtain ⟨-, rfl⟩ := Prod.mk.inj h; exact ⟨r2 _, _, _, e2 _⟩
    | some c =>
      dsimp only at h
      split at h
      · obtain ⟨-, rfl⟩ := Prod.mk.inj h; exact ⟨r2 _, _, _, e2 _⟩
      · have two : ∀ u : State, RtdRan w (setFdPolls (BitVec.ofNat 16 (n + 1)) s1) u →
            u.regs = (setFdPolls (BitVec.ofNat 16 (n + 1)) s1).regs → fdPollLoop k (n + 1) u = (v, t) →
            RtdRan w s t ∧ ∃ p c, t.regs = { s.regs with fdPolls := p, cs := c } := by
          intro u hu hr hk
          obtain ⟨g1, p, c, g2⟩ := ih hk
          refine ⟨(r2 _).trans (hu.trans g1), p, c, ?_⟩
          rw [g2, hr, e2]
        by_cases h0 : k = 0
        · rw [if_pos h0] at h; exact two _ (RtdRan.refl w _) rfl h
        · rw [if_neg h0] at h; exact two _ (delay_ran w _ _) rfl h

theorem fdPoll_ran {w : List (Byte × Nat)} {s t : State} {v : Verdict} (h : fdPoll s = (v, t)) :
    RtdRan w s t ∧ ∃ p c, t.regs = { s.regs with fdPolls := p, cs := c } := by
  obtain ⟨g1, p, c, g2⟩ := fdPollLoop_ran (w := w) h
  exact ⟨(RtdRan.setRegs w s { s.regs with fdPolls := 0 } rfl rfl).trans g1, p, c, g2⟩

/-- The common tail of the fault cycles: one write of `CONFIG`, `FD_STATE` as the verdict says, a mask of
`E_TRANSPORT` and `E_FD_STUCK` only. -/
theorem fdFinish_ran {w : List (Byte × Nat)} {c : Byte} {v : Verdict} {s t : State} {err : Half}
    (hw : (addrConfig, 1) ∈ w) (h : fdFinish c v s = (err, t)) :
    RtdRan w s t ∧ t.regs = { s.regs with fdState := verdictState v, cs := false } ∧ err &&& 0xFF7E = 0 := by
  unfold fdFinish at h
  rcases h1 : fdVerdict v s with ⟨e, s1⟩
  rcases h2 : writeConfig c s1 with ⟨st, s2⟩
  rw [h1] at h
  dsimp only at h
  rw [h2] at h
  obtain ⟨g1, g2⟩ := writeConfig_ran (w := w) hw h2
  obtain ⟨he, ht⟩ := Prod.mk.inj h
  dsimp only at he ht
  subst he ht
  have mask : ∀ e, e = eNone ∨ e = eFdStuck ∨ e = eTransport → raiseFail st e &&& 0xFF7E = 0 := by
    rintro e (rfl | rfl | rfl) <;> cases st <;> rfl
  cases v with
  | fin =>
    obtain ⟨rfl, rfl⟩ := Prod.mk.inj h1
    refine ⟨((RtdRan.setRegs w s { s.regs with fdState := .finished } rfl rfl).trans
      (delay_ran w _ _)).trans g1, ?_, mask _ (.inl rfl)⟩
    simp [fdAfter, g2, deselected, setFdState, verdictState]
  | stuck =>
    obtain ⟨rfl, rfl⟩ := Prod.mk.inj h1
    refine ⟨(RtdRan.setRegs w s { s.regs with fdState := .stuck } rfl rfl).trans g1, ?_,
      mask _ (.inr (.inl rfl))⟩
    simp [fdAfter, g2, deselected, setFdState, verdictState]
  | abort =>
    obtain ⟨rfl, rfl⟩ := Prod.mk.inj h1
    refine ⟨g1.trans (RtdRan.setRegs w s2 { s2.regs with fdState := .idle } rfl rfl), ?_,
      mask _ (.inr (.inr rfl))⟩
    simp [fdAfter, g2, deselected, setFdState, verdictState]

/-! The NVM side. -/

/-- What the log unit does on the NVM's side: reads that pass `r`, ready polls, writes that pass `w`. -/
def NvmEvent (r : Nat → Nat → Prop) (w : Nat → List Byte → Prop) (e : Event) : Prop :=
  match e with
  | .blkRead _ a n _ b _ => r a n ∧ b.length = n
  | .blkReady _ _ => True
  | .blkWrite _ a b _ _ => w a b
  | _ => False

/-- From `s` to `t` the log unit performs such events; no register changes. -/
def NvmRan (r : Nat → Nat → Prop) (w : Nat → List Byte → Prop) (s t : State) : Prop :=
  ∃ es : List Event, (∀ e ∈ es, NvmEvent r w e) ∧ Moves s t es ∧ repliesOf s.env es = true ∧ t.regs = s.regs

theorem NvmRan.refl (r : Nat → Nat → Prop) (w : Nat → List Byte → Prop) (s : State) : NvmRan r w s s :=
  ⟨[], by simp, Moves.refl s, rfl, rfl⟩

theorem NvmRan.trans {r : Nat → Nat → Prop} {w : Nat → List Byte → Prop} {s t u : State} (h : NvmRan r w s t)
    (g : NvmRan r w t u) : NvmRan r w s u := by
  obtain ⟨xs, h1, h2, h3, h4⟩ := h
  obtain ⟨ys, g1, g2, g3, g4⟩ := g
  refine ⟨xs ++ ys, ?_, h2.trans g2, ?_, g4.trans h4⟩
  · intro x hx
    rcases List.mem_append.mp hx with hx | hx
    · exact h1 x hx
    · exact g1 x hx
  · rw [repliesOf_append, h3, ← h2.env, g3]; rfl

theorem blkWrite_ran {r : Nat → Nat → Prop} {w : Nat → List Byte → Prop} {a : Nat} {b : List Byte} {s t : State}
    {st : Status} (hw : w a b) (h : blkWrite a b s = (st, t)) : NvmRan r w s t := by
  obtain ⟨m, e⟩ := blkWrite_spec h
  refine ⟨_, by simpa [NvmEvent] using hw, m, ?_, e⟩
  have : (s.env.blkWrite a b).1 = st := congrArg Prod.fst h
  simp [replyOf, this]

theorem blkRead_ran {r : Nat → Nat → Prop} {w : Nat → List Byte → Prop} {a n : Nat} {b : List Byte} {s t : State}
    {st : Status} (hr : r a n) (h : blkRead a n s = ((b, st), t)) : NvmRan r w s t ∧ b.length = n := by
  obtain ⟨m, e, l⟩ := blkRead_spec h
  refine ⟨⟨_, by simpa [NvmEvent, l] using hr, m, ?_, e⟩, l⟩
  have : (s.env.blkRead a n).1 = (b, st) := congrArg Prod.fst h
  simp [replyOf, this]

theorem readyWait_ran {r : Nat → Nat → Prop} {w : Nat → List Byte → Prop} {s t : State} {o : Bool}
    (h : readyWait s = (o, t)) : NvmRan r w s t := by
  have loop : ∀ (k : Nat) (s : State), readyWaitLoop k s = (o, t) → NvmRan r w s t := by
    intro k
    induction k with
    | zero => intro s h; obtain ⟨-, rfl⟩ := Prod.mk.inj h; exact NvmRan.refl r w s
    | succ k ih =>
      intro s h
      unfold readyWaitLoop at h
      rcases h1 : blkReady s with ⟨b, s1⟩
      obtain ⟨m, e⟩ := blkReady_spec h1
      have one : NvmRan r w s s1 := by
        refine ⟨_, by simp [NvmEvent], m, ?_, e⟩
        have : s.env.takeBlkReady.1 = b := congrArg Prod.fst h1
        simp [replyOf, this]
      rw [h1] at h
      cases b with
      | true => obtain ⟨-, rfl⟩ := Prod.mk.inj h; exact one
      | false => exact one.trans (ih s1 h)
  exact loop _ s h

theorem memWrite_ran {r : Nat → Nat → Prop} {w : Nat → List Byte → Prop} {a : Nat} {b : List Byte} {s t : State}
    {st : Status} (hw : w a b) (h : memWrite a b s = (st, t)) : NvmRan r w s t := by
  have loop : ∀ (k : Nat) (s : State), memWriteLoop k a b s = (st, t) → NvmRan r w s t := by
    intro k
    induction k with
    | zero => intro s h; obtain ⟨-, rfl⟩ := Prod.mk.inj h; exact NvmRan.refl r w s
    | succ k ih =>
      intro s h
      unfold memWriteLoop at h
      rcases h1 : blkWrite a b s with ⟨st1, s1⟩
      have one := blkWrite_ran (r := r) hw h1
      rw [h1] at h
      cases st1 with
      | ok => obtain ⟨-, rfl⟩ := Prod.mk.inj h; exact one
      | fail =>
        dsimp only at h
        split at h
        · obtain ⟨-, rfl⟩ := Prod.mk.inj h; exact one
        · rcases h2 : readyWait s1 with ⟨o, s2⟩
          have two := one.trans (readyWait_ran (r := r) (w := w) h2)
          rw [h2] at h
          cases o with
          | true => exact two.trans (ih s2 h)
          | false => obtain ⟨-, rfl⟩ := Prod.mk.inj h; exact two
  exact loop _ s h

theorem memRead_ran {r : Nat → Nat → Prop} {w : Nat → List Byte → Prop} {a n : Nat} {s t : State}
    {o : Option (List Byte)} (hr : r a n) (h : memRead a n s = (o, t)) :
    NvmRan r w s t ∧ ∀ b, o = some b → b.length = n := by
  have loop : ∀ (k : Nat) (s : State), memReadLoop k a n s = (o, t) →
      NvmRan r w s t ∧ ∀ b, o = some b → b.length = n := by
    intro k
    induction k with
    | zero => intro s h; obtain ⟨rfl, rfl⟩ := Prod.mk.inj h; exact ⟨NvmRan.refl r w s, by simp⟩
    | succ k ih =>
      intro s h
      unfold memReadLoop at h
      rcases h1 : blkRead a n s with ⟨⟨b, st1⟩, s1⟩
      obtain ⟨one, l⟩ := blkRead_ran (w := w) hr h1
      rw [h1] at h
      cases st1 with
      | ok => obtain ⟨rfl, rfl⟩ := Prod.mk.inj h; exact ⟨one, by rintro _ ⟨⟩; exact l⟩
      | fail =>
        dsimp only at h
        split at h
        · obtain ⟨rfl, rfl⟩ := Prod.mk.inj h; exact ⟨one, by simp⟩
        · rcases h2 : readyWait s1 with ⟨o, s2⟩
          have two := one.trans (readyWait_ran (r := r) (w := w) h2)
          rw [h2] at h
          cases o with
          | true => obtain ⟨g1, g2⟩ := ih s2 h; exact ⟨two.trans g1, g2⟩
          | false => obtain ⟨rfl, rfl⟩ := Prod.mk.inj h; exact ⟨two, by simp⟩
  exact loop _ s h

/-- Every write of `WriteSpanning` is a chunk of the region: not empty, within one page, its bytes inside the region.
With a page length of 0, which R5 excludes, the chunks are empty. -/
theorem writeSpanning_ran {r : Nat → Nat → Prop} {start : Nat} {data : List Byte} {s t : State} {st : Status}
    (h : writeSpanning start data s = (st, t)) :
    NvmRan r (fun a b => start ≤ a ∧ a + b.length ≤ start + data.length
      ∧ (1 ≤ s.params.pageLen → a / s.params.pageLen = (a + b.length - 1) / s.params.pageLen)) s t := by
  have loop : ∀ (fuel : Nat) (a : Nat) (d : List Byte) (u : State), u.params = s.params → start ≤ a →
      a + d.length ≤ start + data.length → writeSpanningLoop fuel a d u = (st, t) →
      NvmRan r (fun a b => start ≤ a ∧ a + b.length ≤ start + data.length
        ∧ (1 ≤ s.params.pageLen → a / s.params.pageLen = (a + b.length - 1) / s.params.pageLen)) u t := by
    intro fuel
    induction fuel with
    | zero =>
      intro a d u _ _ _ h
      cases d with
      | nil => obtain ⟨-, rfl⟩ := Prod.mk.inj h; exact NvmRan.refl _ _ u
      | cons x xs => obtain ⟨-, rfl⟩ := Prod.mk.inj h; exact NvmRan.refl _ _ u
    | succ fuel ih =>
      intro a d u hp ha hd h
      cases hdat : d with
      | nil => rw [hdat] at h; obtain ⟨-, rfl⟩ := Prod.mk.inj h; exact NvmRan.refl _ _ u
      | cons x xs =>
        have unf : writeSpanningLoop (fuel + 1) a d u =
            match memWrite a (d.take (chunkLen u.params.pageLen a d.length)) u with
            | (.fail, s1) => (.fail, s1)
            | (.ok, s1) =>
              match d.drop (chunkLen u.params.pageLen a d.length) with
              | [] => (.ok, s1)
              | b :: rest =>
                match readyWait s1 with
                | (false, s2) => (.fail, s2)
                | (true, s2) => writeSpanningLoop fuel (a + chunkLen u.params.pageLen a d.length) (b :: rest) s2 := by
          rw [hdat]; rfl
        rw [unf] at h
        have hl : 1 ≤ d.length := by rw [hdat]; simp
        have hc : chunkLen u.params.pageLen a d.length ≤ d.length := by unfold chunkLen; omega
        have htl : (d.take (chunkLen u.params.pageLen a d.length)).length = chunkLen u.params.pageLen a d.length := by
          rw [List.length_take]; omega
        rcases h1 : memWrite a (d.take (chunkLen u.params.pageLen a d.length)) u with ⟨st1, s1⟩
        have one := memWrite_ran (r := r) (w := fun a b => start ≤ a ∧ a + b.length ≤ start + data.length
          ∧ (1 ≤ s.params.pageLen → a / s.params.pageLen = (a + b.length - 1) / s.params.pageLen))
          (by
            refine ⟨ha, by rw [htl]; omega, ?_⟩
            intro hpl
            rw [htl, hp]
            have hm := Nat.mod_lt a hpl
            have hdm := Nat.div_add_mod a s.params.pageLen
            have hcl : 1 ≤ chunkLen s.params.pageLen a d.length
                ∧ chunkLen s.params.pageLen a d.length ≤ s.params.pageLen - a % s.params.pageLen := by
              unfold chunkLen; omega
            rw [show a + chunkLen s.params.pageLen a d.length - 1
                = s.params.pageLen * (a / s.params.pageLen)
                  + (a % s.params.pageLen + chunkLen s.params.pageLen a d.length - 1) by omega]
            rw [Nat.mul_add_div (by omega),
              Nat.div_eq_of_lt (show a % s.params.pageLen + chunkLen s.params.pageLen a d.length - 1
                < s.params.pageLen by omega)]
            simp) h1
        rw [h1] at h
        cases st1 with
        | fail => obtain ⟨-, rfl⟩ := Prod.mk.inj h; exact one
        | ok =>
          dsimp only at h
          cases hrest : d.drop (chunkLen u.params.pageLen a d.length) with
          | nil => rw [hrest] at h; obtain ⟨-, rfl⟩ := Prod.mk.inj h; exact one
          | cons b rest =>
            rw [hrest] at h
            dsimp only at h
            rcases h2 : readyWait s1 with ⟨o, s2⟩
            have two := one.trans (readyWait_ran h2)
            rw [h2] at h
            cases o with
            | false => obtain ⟨-, rfl⟩ := Prod.mk.inj h; exact two
            | true =>
              have hlr : (b :: rest).length = d.length - chunkLen u.params.pageLen a d.length := by
                rw [← hrest, List.length_drop]
              have hp2 : s2.params = s.params := by
                obtain ⟨es, -, m, -⟩ := two
                rw [m.params, hp]
              exact two.trans (ih _ _ s2 hp2 (by omega) (by rw [hlr]; omega) h)
  exact loop _ start data s rfl (Nat.le_refl _) (Nat.le_refl _) h

end Sys2Proof.Machine
end

