-- ==== Sys2Proof/Laws/Commands.lean ====
section
/-!
SUPPORT. One lemma for each kind of command: what every command of that kind does, whatever the environment answers.
A CSR or converter command only sets registers and responds; an RTD command is a run of whole items, then `finish`; a
log command is a run of NVM events, then `finish`.
-/

namespace Sys2Proof.Machine

/-- `refuse` and `respond` are `finish` with no cause raised. -/
theorem respond_eq_finish (c : Comp) (ok : Bool) (d : Data) (s : State) : respond ok d s = finish c 0 ok d s := by
  simp [finish, notifyIfDue]

theorem refuse_eq_finish (c : Comp) (s : State) : refuse s = finish c 0 false 0 s := respond_eq_finish c _ _ s

/-- The register writes an RTD command may make: a first address and a payload length. -/
def allowedWrites (i : Instr) : List (Byte × Nat) :=
  match i with
  | .rtdInit _ => [(addrConfig, 1)]
  | .rtdRead1 => [(addrConfig, 1)]
  | .rtdStart => [(addrConfig, 1)]
  | .rtdStop => [(addrConfig, 1)]
  | .rtdSethi _ => [(addrHigh, 2)]
  | .rtdSetlo _ => [(addrLow, 2)]
  | .fdAuto => [(addrConfig, 1)]
  | .fdMstart => [(addrConfig, 1)]
  | .fdMend => [(addrConfig, 1)]
  | .fdRdfault => [(addrConfig, 1)]
  | .csrr _ | .csrw _ _ | .csrs _ _ | .csrc _ _ | .convC2t _ | .convT2c _ | .rtdRead | .rtdGethi
  | .rtdGetlo | .logInit _ | .logAppend _ _ _ | .logGet _ | .logRdcnt | .logRdts | .logRdcap
  | .logErase _ _ => []

/-- The state is one a finished, stuck or aborted cycle ends in. -/
def cycleEnd (f : FdState) : Prop := f = .finished ∨ f = .stuck ∨ f = .idle

theorem cycleEnd_verdict (v : Verdict) : cycleEnd (verdictState v) := by cases v <;> simp [cycleEnd, verdictState]

/-- What a command may do to the fault-detection registers. -/
def FdMoved (i : Instr) (r r' : Regs) : Prop :=
  match i with
  | .fdAuto => fdPart r' = fdPart r ∨ (r.fdArmed = false ∧ r'.fdArmed = false ∧ cycleEnd r'.fdState)
  | .fdMstart =>
    fdPart r' = fdPart r
      ∨ (r.fdArmed = false ∧ r'.fdArmed = true ∧ r'.fdState = .running ∧ r'.fdPolls = r.fdPolls)
  | .fdMend =>
    (r.fdArmed = false ∧ fdPart r' = fdPart r)
      ∨ (r.fdArmed = true ∧ r'.fdArmed = false ∧ r'.fdSaved = r.fdSaved ∧ cycleEnd r'.fdState)
  | .csrr _ | .csrw _ _ | .csrs _ _ | .csrc _ _ | .convC2t _ | .convT2c _ | .rtdInit _ | .rtdRead1
  | .rtdStart | .rtdStop | .rtdRead | .rtdSethi _ | .rtdSetlo _ | .rtdGethi | .rtdGetlo | .fdRdfault
  | .logInit _ | .logAppend _ _ _ | .logGet _ | .logRdcnt | .logRdts | .logRdcap | .logErase _ _ => fdPart r' = fdPart r

/-- How every RTD command ends: items, then `finish` with causes of the RTD component. -/
def RtdDone (i : Instr) (s : State) (o : Host.Outcome State Fault Refusal) : Prop :=
  ∃ err ok d s1, o = .next (finish .rtd err ok d s1) ∧ RtdRan (allowedWrites i) s s1 ∧ err &&& 0xFE00 = 0
    ∧ FdMoved i s.regs s1.regs

theorem fdPart_deselected (r : Regs) : fdPart (deselected r) = fdPart r := rfl

theorem faultCauses_mask (f : Byte) (st : Status) : faultCauses f (raiseFail st eNone) &&& 0xFE00 = 0 := by
  cases st <;> revert f <;> decide

theorem readTemp_done {w : List (Byte × Nat)} {s : State} :
    ∃ err ok d s1, readTemp s = finish .rtd err ok d s1 ∧ RtdRan w s s1 ∧ err &&& 0xFE00 = 0
      ∧ s1.regs = deselected s.regs := by
  unfold readTemp
  rcases h1 : regRead addrData 2 s with ⟨o, s1⟩
  obtain ⟨g1, g2⟩ := regRead_ran (w := w) (by decide) h1
  cases o with
  | none => exact ⟨_, _, _, s1, rfl, g1, by decide, g2⟩
  | some d =>
    refine ⟨_, _, _, s1, rfl, g1, ?_, g2⟩
    cases faultFlag (rawOfList d) <;> decide

theorem finishWrite_done (st : Status) (s : State) :
    ∃ err ok d, finishWrite (st, s) = finish .rtd err ok d s ∧ err &&& 0xFE00 = 0 := by
  cases st with
  | ok => exact ⟨_, _, _, rfl, by decide⟩
  | fail => exact ⟨_, _, _, rfl, by decide⟩

theorem modifyConfig_done (f : Byte → Byte) (s : State) :
    ∃ err ok d s1, modifyConfig f s = finish .rtd err ok d s1 ∧ RtdRan [(addrConfig, 1)] s s1
      ∧ err &&& 0xFE00 = 0 ∧ s1.regs = deselected s.regs := by
  unfold modifyConfig
  rcases h1 : readConfig s with ⟨o, s1⟩
  obtain ⟨g1, g2⟩ := readConfig_ran (w := [(addrConfig, 1)]) h1
  cases o with
  | none => exact ⟨_, _, _, s1, rfl, g1, by decide, g2⟩
  | some c =>
    rcases h2 : writeConfig (f c) s1 with ⟨st, s2⟩
    obtain ⟨k1, k2⟩ := writeConfig_ran (w := [(addrConfig, 1)]) (by simp) h2
    obtain ⟨err, ok, d, e, m⟩ := finishWrite_done st s2
    exact ⟨err, ok, d, s2, by simpa [h2] using e, g1.trans k1, m, by rw [k2, g2]; rfl⟩

theorem writeThreshold_done (a : Byte) (x : Int) (s : State) :
    ∃ err ok d s1, writeThreshold a x s = finish .rtd err ok d s1 ∧ RtdRan [(a, 2)] s s1
      ∧ err &&& 0xFE00 = 0 ∧ s1.regs = deselected s.regs := by
  unfold writeThreshold
  rcases h2 : regWrite a (bytesOfRaw (s.params.t2c x)) s with ⟨st, s2⟩
  obtain ⟨k1, k2⟩ := regWrite_ran (w := [(a, 2)]) (by simp [bytesOfRaw]) h2
  obtain ⟨err, ok, d, e, m⟩ := finishWrite_done st s2
  exact ⟨err, ok, d, s2, e, k1, m, k2⟩

theorem readThreshold_done (a : Byte) (ha : a.getLsbD 7 = false) (w : List (Byte × Nat)) (s : State) :
    ∃ err ok d s1, readThreshold a s = finish .rtd err ok d s1 ∧ RtdRan w s s1
      ∧ err &&& 0xFE00 = 0 ∧ s1.regs = deselected s.regs := by
  unfold readThreshold
  rcases h1 : regRead a 2 s with ⟨o, s1⟩
  obtain ⟨g1, g2⟩ := regRead_ran (w := w) ha h1
  cases o with
  | none => exact ⟨_, _, _, s1, rfl, g1, by decide, g2⟩
  | some d => exact ⟨_, _, _, s1, rfl, g1, by decide, g2⟩

theorem mask_of_tail {e : Half} (h : e &&& 0xFF7E = 0) : e &&& 0xFE00 = 0 := by
  have : e &&& 0xFE00 = (e &&& 0xFF7E) &&& 0xFE00 := by rw [BitVec.and_assoc]; rfl
  rw [this, h]; rfl

/-- The end of `FD.AUTO` and `FD.MEND` after the arming write. -/
theorem fdCycle_done (c : Byte) (s : State) :
    ∃ err ok d s1, fdCycle c s = finish .rtd err ok d s1 ∧ RtdRan [(addrConfig, 1)] s s1
      ∧ err &&& 0xFE00 = 0 ∧ ∃ p f, cycleEnd f ∧ s1.regs = { s.regs with fdPolls := p, fdState := f, cs := false } := by
  unfold fdCycle
  rcases h1 : fdPoll s with ⟨v, s1⟩
  obtain ⟨g1, p, cs, g2⟩ := fdPoll_ran (w := [(addrConfig, 1)]) h1
  rcases h2 : fdFinish c v s1 with ⟨e, s2⟩
  obtain ⟨k1, k2, k3⟩ := fdFinish_ran (w := [(addrConfig, 1)]) (by simp) h2
  refine ⟨e, _, 0, s2, by simp only [h2]; rfl, g1.trans k1, mask_of_tail k3, p, verdictState v, cycleEnd_verdict v, ?_⟩
  rw [k2, g2]

theorem fdAbort_done (c : Byte) (s : State) :
    ∃ err ok d s1, fdAbort c s = finish .rtd err ok d s1 ∧ RtdRan [(addrConfig, 1)] s s1
      ∧ err &&& 0xFE00 = 0 ∧ s1.regs = { s.regs with fdState := .idle, cs := false } := by
  unfold fdAbort
  rcases h2 : fdFinish c .abort s with ⟨e, s2⟩
  obtain ⟨k1, k2, k3⟩ := fdFinish_ran (w := [(addrConfig, 1)]) (by simp) h2
  exact ⟨e, _, 0, s2, rfl, k1, mask_of_tail k3, k2⟩

theorem execRtdInit_done (f : Bool) (s : State) : RtdDone (.rtdInit f) s (execRtdInit f s) := by
  unfold execRtdInit
  rcases h1 : regRead addrConfig 1 s with ⟨o, s1⟩
  obtain ⟨g1, g2⟩ := regRead_ran (w := [(addrConfig, 1)]) (by decide) h1
  rcases h2 : writeConfig (cfgVbias ||| (if f then cfgFilt50 else 0)) s1 with ⟨st, s2⟩
  obtain ⟨k1, k2⟩ := writeConfig_ran (w := [(addrConfig, 1)]) (by simp) h2
  obtain ⟨err, ok, d, e, m⟩ := finishWrite_done st s2
  exact ⟨err, ok, d, s2, by simp only [e], g1.trans k1, m, by show fdPart _ = _; rw [k2, g2]; rfl⟩

theorem execRtdRead1_done (s : State) : RtdDone .rtdRead1 s (execRtdRead1 s) := by
  unfold execRtdRead1
  rcases h1 : readConfig s with ⟨o, s1⟩
  obtain ⟨g1, g2⟩ := readConfig_ran (w := [(addrConfig, 1)]) h1
  cases o with
  | none => exact ⟨_, _, _, s1, rfl, g1, by decide, by show fdPart _ = _; rw [g2]; rfl⟩
  | some c =>
    dsimp only
    rcases h2 : writeConfig (c ||| cfgOneshot) s1 with ⟨st, s2⟩
    obtain ⟨k1, k2⟩ := writeConfig_ran (w := [(addrConfig, 1)]) (by simp) h2
    have p2 : fdPart s2.regs = fdPart s.regs := by rw [k2, g2]; rfl
    cases st with
    | fail => exact ⟨_, _, _, s2, rfl, g1.trans k1, by decide, p2⟩
    | ok =>
      dsimp only
      rcases h3 : oneShotWait s2.regs.osPollBound s2 with ⟨o, s3⟩
      obtain ⟨l1, l2⟩ := oneShotWait_ran (w := [(addrConfig, 1)]) h3
      have p3 : fdPart s3.regs = fdPart s.regs := by
        rcases l2 with e | e <;> rw [e]
        · exact p2
        · rw [fdPart_deselected, p2]
      cases o with
      | timeout => exact ⟨_, _, _, s3, rfl, (g1.trans k1).trans l1, by decide, p3⟩
      | abort => exact ⟨_, _, _, s3, rfl, (g1.trans k1).trans l1, by decide, p3⟩
      | ready =>
        obtain ⟨err, ok, d, s4, e, m1, m2, m3⟩ := readTemp_done (w := [(addrConfig, 1)]) (s := s3)
        exact ⟨err, ok, d, s4, by rw [← e]; rfl, ((g1.trans k1).trans l1).trans m1, m2, by
          show fdPart _ = _; rw [m3, fdPart_deselected, p3]⟩

theorem execFdAuto_done (s : State) : RtdDone .fdAuto s (execFdAuto s) := by
  unfold execFdAuto
  by_cases ha : s.regs.fdArmed = true
  · rw [if_pos ha]
    exact ⟨_, _, _, s, by rw [← refuse_eq_finish], RtdRan.refl _ s, by decide, .inl rfl⟩
  rw [if_neg ha]
  have ha : s.regs.fdArmed = false := by simpa using ha
  rcases h1 : readConfig s with ⟨o, s1⟩
  obtain ⟨g1, g2⟩ := readConfig_ran (w := [(addrConfig, 1)]) h1
  cases o with
  | none => exact ⟨_, _, _, s1, rfl, g1, by decide, .inl (by rw [g2]; rfl)⟩
  | some c =>
    dsimp only
    have g3 := g1.trans (RtdRan.setRegs [(addrConfig, 1)] s1 { s1.regs with fdSaved := c } rfl rfl)
    rcases h2 : writeConfig (cyc c 1) (setFdSaved c s1) with ⟨st, s2⟩
    obtain ⟨k1, k2⟩ := writeConfig_ran (w := [(addrConfig, 1)]) (by simp) h2
    have a2 : s2.regs.fdArmed = false := by rw [k2]; simp [deselected, g2, setFdSaved, ha]
    cases st with
    | fail =>
      obtain ⟨err, ok, d, s4, e, m1, m2, m3⟩ := fdAbort_done c s2
      exact ⟨err, ok, d, s4, by dsimp only; rw [e], (g3.trans k1).trans m1, m2,
        .inr ⟨ha, by rw [m3]; exact a2, by rw [m3]; exact .inr (.inr rfl)⟩⟩
    | ok =>
      obtain ⟨err, ok, d, s4, e, m1, m2, p, f, m3, m4⟩ := fdCycle_done c (setFdState .running s2)
      have g4 := RtdRan.setRegs [(addrConfig, 1)] s2 { s2.regs with fdState := .running } rfl rfl
      exact ⟨err, ok, d, s4, by dsimp only; rw [e], ((g3.trans k1).trans g4).trans m1, m2,
        .inr ⟨ha, by rw [m4]; exact a2, by rw [m4]; exact m3⟩⟩

theorem execFdMstart_done (s : State) : RtdDone .fdMstart s (execFdMstart s) := by
  unfold execFdMstart
  by_cases ha : s.regs.fdArmed = true
  · rw [if_pos ha]
    exact ⟨_, _, _, s, by rw [← refuse_eq_finish], RtdRan.refl _ s, by decide, .inl rfl⟩
  rw [if_neg ha]
  have ha : s.regs.fdArmed = false := by simpa using ha
  rcases h1 : readConfig s with ⟨o, s1⟩
  obtain ⟨g1, g2⟩ := readConfig_ran (w := [(addrConfig, 1)]) h1
  cases o with
  | none => exact ⟨_, _, _, s1, rfl, g1, by decide, .inl (by rw [g2]; rfl)⟩
  | some c =>
    dsimp only
    rcases h2 : writeConfig (cyc c 2) s1 with ⟨st, s2⟩
    obtain ⟨k1, k2⟩ := writeConfig_ran (w := [(addrConfig, 1)]) (by simp) h2
    have p2 : fdPart s2.regs = fdPart s.regs := by rw [k2, g2]; rfl
    cases st with
    | fail => exact ⟨_, _, _, s2, rfl, g1.trans k1, by decide, .inl p2⟩
    | ok =>
      have g3 := RtdRan.setRegs [(addrConfig, 1)] s2
        { s2.regs with fdSaved := c, fdArmed := true, fdState := .running } rfl rfl
      exact ⟨_, _, _, _, rfl, (g1.trans k1).trans g3, by decide, .inr ⟨ha, rfl, rfl, by
        show s2.regs.fdPolls = _; rw [k2, g2]; rfl⟩⟩

theorem execFdMend_done (s : State) : RtdDone .fdMend s (execFdMend s) := by
  unfold execFdMend
  by_cases ha : s.regs.fdArmed = true
  · rw [if_pos ha]
    have g0 := RtdRan.setRegs [(addrConfig, 1)] s { s.regs with fdArmed := false } rfl rfl
    rcases h1 : writeConfig (cyc s.regs.fdSaved 3) (setFdArmed false s) with ⟨st, s1⟩
    obtain ⟨k1, k2⟩ := writeConfig_ran (w := [(addrConfig, 1)]) (by simp) h1
    cases st with
    | fail =>
      obtain ⟨err, ok, d, s4, e, m1, m2, m3⟩ := fdAbort_done s1.regs.fdSaved s1
      exact ⟨err, ok, d, s4, by dsimp only; rw [e], (g0.trans k1).trans m1, m2,
        .inr ⟨ha, by rw [m3, k2]; rfl, by rw [m3, k2]; rfl, by rw [m3]; exact .inr (.inr rfl)⟩⟩
    | ok =>
      obtain ⟨err, ok, d, s4, e, m1, m2, p, f, m3, m4⟩ := fdCycle_done s1.regs.fdSaved s1
      exact ⟨err, ok, d, s4, by dsimp only; rw [e], (g0.trans k1).trans m1, m2,
        .inr ⟨ha, by rw [m4, k2]; rfl, by rw [m4, k2]; rfl, by rw [m4]; exact m3⟩⟩
  · rw [if_neg ha]
    exact ⟨_, _, _, s, by rw [← refuse_eq_finish], RtdRan.refl _ s, by decide, .inl ⟨by simpa using ha, rfl⟩⟩

theorem execFdRdfault_done (s : State) : RtdDone .fdRdfault s (execFdRdfault s) := by
  unfold execFdRdfault
  rcases h1 : readConfig s with ⟨o, s1⟩
  obtain ⟨g1, g2⟩ := readConfig_ran (w := [(addrConfig, 1)]) h1
  have p1 : fdPart s1.regs = fdPart s.regs := by rw [g2]; rfl
  cases o with
  | none => exact ⟨_, _, _, s1, rfl, g1, by decide, p1⟩
  | some c =>
    dsimp only
    by_cases hc : cycleDone c = true
    · rw [if_pos hc]
      rcases h2 : regRead addrFault 1 s1 with ⟨o2, s2⟩
      obtain ⟨k1, k2⟩ := regRead_ran (w := [(addrConfig, 1)]) (by decide) h2
      have p2 : fdPart s2.regs = fdPart s.regs := by rw [k2, fdPart_deselected, p1]
      cases o2 with
      | none => exact ⟨_, _, _, s2, rfl, g1.trans k1, by decide, p2⟩
      | some f =>
        dsimp only
        rcases h3 : writeConfig (c ||| cfgFclr) s2 with ⟨st, s3⟩
        obtain ⟨l1, l2⟩ := writeConfig_ran (w := [(addrConfig, 1)]) (by simp) h3
        exact ⟨_, _, _, s3, rfl, (g1.trans k1).trans l1, faultCauses_mask _ _, by
          show fdPart _ = _; rw [l2, fdPart_deselected, p2]⟩
    · rw [if_neg hc]
      exact ⟨_, _, _, s1, rfl, g1, by decide, p1⟩

/-- Every command of the RTD unit. -/
theorem exec_rtd_done (i : Instr) (s : State) (h : partOf i = .rtd) : RtdDone i s (exec i s) := by
  cases i <;> first | exact Part.noConfusion h | skip
  case rtdInit f => exact execRtdInit_done f s
  case rtdRead1 => exact execRtdRead1_done s
  case rtdStart =>
    obtain ⟨e, ok, d, s1, g1, g2, g3, g4⟩ := modifyConfig_done (fun c => c ||| cfgAuto) s
    exact ⟨e, ok, d, s1, by rw [← g1]; rfl, g2, g3, by show fdPart _ = _; rw [g4]; rfl⟩
  case rtdStop =>
    obtain ⟨e, ok, d, s1, g1, g2, g3, g4⟩ := modifyConfig_done (fun c => c &&& ~~~cfgAuto) s
    exact ⟨e, ok, d, s1, by rw [← g1]; rfl, g2, g3, by show fdPart _ = _; rw [g4]; rfl⟩
  case rtdRead =>
    obtain ⟨e, ok, d, s1, g1, g2, g3, g4⟩ := readTemp_done (w := []) (s := s)
    exact ⟨e, ok, d, s1, by rw [← g1]; rfl, g2, g3, by show fdPart _ = _; rw [g4]; rfl⟩
  case rtdSethi x =>
    obtain ⟨e, ok, d, s1, g1, g2, g3, g4⟩ := writeThreshold_done addrHigh x s
    exact ⟨e, ok, d, s1, by rw [← g1]; rfl, g2, g3, by show fdPart _ = _; rw [g4]; rfl⟩
  case rtdSetlo x =>
    obtain ⟨e, ok, d, s1, g1, g2, g3, g4⟩ := writeThreshold_done addrLow x s
    exact ⟨e, ok, d, s1, by rw [← g1]; rfl, g2, g3, by show fdPart _ = _; rw [g4]; rfl⟩
  case rtdGethi =>
    obtain ⟨e, ok, d, s1, g1, g2, g3, g4⟩ := readThreshold_done addrHigh (by decide) [] s
    exact ⟨e, ok, d, s1, by rw [← g1]; rfl, g2, g3, by show fdPart _ = _; rw [g4]; rfl⟩
  case rtdGetlo =>
    obtain ⟨e, ok, d, s1, g1, g2, g3, g4⟩ := readThreshold_done addrLow (by decide) [] s
    exact ⟨e, ok, d, s1, by rw [← g1]; rfl, g2, g3, by show fdPart _ = _; rw [g4]; rfl⟩
  case fdAuto => exact execFdAuto_done s
  case fdMstart => exact execFdMstart_done s
  case fdMend => exact execFdMend_done s
  case fdRdfault => exact execFdRdfault_done s

theorem csrAt_addr (c : Csr) : csrAt (csrAddr c) = some c := by cases c <;> rfl

theorem csrAddr_of_csrAt {a : BitVec 8} {c : Csr} (h : csrAt a = some c) : a = csrAddr c := by
  unfold csrAt at h
  split at h
  case h_10 => simp at h
  all_goals
    rename_i k
    obtain rfl := Option.some.inj h
    exact BitVec.eq_of_toNat_eq k

/-- What a CSR or converter command may do to the registers: nothing, or one masked store to the CSR it addresses. -/
def QuietRegs (i : Instr) (r r' : Regs) : Prop :=
  r' = r
    ∨ ∃ c v x, c ≠ .fdStatus ∧ r' = csrStore c x r
        ∧ (i = .csrw (csrAddr c) v ∨ i = .csrs (csrAddr c) v ∨ i = .csrc (csrAddr c) v)

theorem csrUpdate_done (a : BitVec 8) (f : Word → Word) (s : State) :
    ∃ ok d r, csrUpdate a f s = respond ok d (s.withRegs r)
      ∧ (r = s.regs ∨ ∃ c x, c ≠ .fdStatus ∧ a = csrAddr c ∧ r = csrStore c x s.regs) := by
  unfold csrUpdate
  split
  · exact ⟨_, _, s.regs, rfl, .inl rfl⟩
  · rename_i c h
    split
    · rename_i hw
      exact ⟨_, _, _, rfl, .inr ⟨c, _, by rintro rfl; simp [csrWritable] at hw, csrAddr_of_csrAt h, rfl⟩⟩
    · exact ⟨_, _, s.regs, rfl, .inl rfl⟩

/-- Every CSR and converter command: registers and the response, no event. -/
theorem exec_quiet (i : Instr) (s : State) (h : partOf i = .csr ∨ partOf i = .converter) :
    ∃ ok d r, exec i s = .next (respond ok d (s.withRegs r)) ∧ QuietRegs i s.regs r := by
  cases i <;> first | (simp [partOf] at h; done) | skip
  case csrr a =>
    simp only [exec, execCsrr]
    split <;> exact ⟨_, _, s.regs, rfl, .inl rfl⟩
  case csrw a v =>
    obtain ⟨ok, d, r, e, k⟩ := csrUpdate_done a (fun _ => v) s
    refine ⟨ok, d, r, by rw [← e]; rfl, k.imp id ?_⟩
    rintro ⟨c, x, h1, rfl, h2⟩
    exact ⟨c, v, x, h1, h2, .inl rfl⟩
  case csrs a v =>
    obtain ⟨ok, d, r, e, k⟩ := csrUpdate_done a (fun old => old ||| v) s
    refine ⟨ok, d, r, by rw [← e]; rfl, k.imp id ?_⟩
    rintro ⟨c, x, h1, rfl, h2⟩
    exact ⟨c, v, x, h1, h2, .inr (.inl rfl)⟩
  case csrc a v =>
    obtain ⟨ok, d, r, e, k⟩ := csrUpdate_done a (fun old => old &&& ~~~v) s
    refine ⟨ok, d, r, by rw [← e]; rfl, k.imp id ?_⟩
    rintro ⟨c, x, h1, rfl, h2⟩
    exact ⟨c, v, x, h1, h2, .inr (.inr rfl)⟩
  case convC2t a => exact ⟨_, _, s.regs, rfl, .inl rfl⟩
  case convT2c a => exact ⟨_, _, s.regs, rfl, .inl rfl⟩

/-! The log unit. -/

theorem NvmRan.mono {r r' : Nat → Nat → Prop} {w w' : Nat → List Byte → Prop} {s t : State} (h : NvmRan r w s t)
    (hr : ∀ a n, r a n → r' a n) (hw : ∀ a b, w a b → w' a b) : NvmRan r' w' s t := by
  obtain ⟨es, h1, h2⟩ := h
  refine ⟨es, ?_, h2⟩
  intro e he
  have := h1 e he
  cases e <;> simp only [NvmEvent] at this ⊢
  · exact hw _ _ this
  · exact ⟨hr _ _ this.1, this.2⟩

theorem NvmRan.params {r : Nat → Nat → Prop} {w : Nat → List Byte → Prop} {s t : State} (h : NvmRan r w s t) :
    t.params = s.params := by
  obtain ⟨es, -, m, -⟩ := h
  exact m.params

/-- The reads a log command may make, as address and length. -/
def allowedReads (i : Instr) (p : Params) (a n : Nat) : Prop :=
  (a, n) ∈ match i with
    | .csrr _ => []
    | .csrw _ _ => []
    | .csrs _ _ => []
    | .csrc _ _ => []
    | .convC2t _ => []
    | .convT2c _ => []
    | .rtdInit _ => []
    | .rtdRead1 => []
    | .rtdStart => []
    | .rtdStop => []
    | .rtdRead => []
    | .rtdSethi _ => []
    | .rtdSetlo _ => []
    | .rtdGethi => []
    | .rtdGetlo => []
    | .fdAuto => []
    | .fdMstart => []
    | .fdMend => []
    | .fdRdfault => []
    | .logInit _ => []
    | .logAppend _ _ _ => [(8, 2), (10, 2)]
    | .logGet index => [(8, 2), (10, 2)] ++ if index < 65535 then [(recordAddr p index, 7)] else []
    | .logRdcnt => [(8, 2)]
    | .logRdts => [(0, 8)]
    | .logRdcap => [(10, 2)]
    | .logErase _ _ => []

/-- The bytes `a` to `a + n - 1` are within `lo` to `hi - 1`. -/
def within (lo hi a n : Nat) : Prop := lo ≤ a ∧ a + n ≤ hi

/-- The region a log command may write. -/
def allowedRegion (i : Instr) (s : State) (a n : Nat) : Prop :=
  match i with
  | .logInit _ => within 0 12 a n
  | .logAppend _ _ _ =>
    within 8 10 a n
      ∨ ∃ cnt cap, (readHeader s).1 = some (cnt, cap) ∧ cnt < 65535
          ∧ within (recordAddr s.params cnt) (recordAddr s.params cnt + 7) a n
  | .logErase start length => start + length ≤ 4294967296 ∧ within start (start + length) a n
  | .csrr _ | .csrw _ _ | .csrs _ _ | .csrc _ _ | .convC2t _ | .convT2c _ | .rtdInit _ | .rtdRead1
  | .rtdStart | .rtdStop | .rtdRead | .rtdSethi _ | .rtdSetlo _ | .rtdGethi | .rtdGetlo | .fdAuto
  | .fdMstart | .fdMend | .fdRdfault | .logGet _ | .logRdcnt | .logRdts | .logRdcap => False

/-- The writes a log command may make: in its region, each within a page. -/
def allowedPuts (i : Instr) (s : State) (a : Nat) (b : List Byte) : Prop :=
  allowedRegion i s a b.length
    ∧ (1 ≤ s.params.pageLen → a / s.params.pageLen = (a + b.length - 1) / s.params.pageLen)

/-- How every log command ends: NVM events, then `finish` with causes of the log component. -/
def LogDone (i : Instr) (s : State) (o : Host.Outcome State Fault Refusal) : Prop :=
  ∃ err ok d s1, o = .next (finish .log err ok d s1)
    ∧ NvmRan (allowedReads i s.params) (allowedPuts i s) s s1 ∧ err &&& 0xE1FE = 0

theorem ube_two_lt (b : List Byte) (h : b.length = 2) : ube b < 65536 := by
  match b, h with
  | [x, y], _ => simp [ube]; have := x.isLt; have := y.isLt; omega

/-- `readHeader` makes its two reads; the numbers it gives fit 16 bits. -/
theorem readHeader_ran {r : Nat → Nat → Prop} {w : Nat → List Byte → Prop} {s t : State} {o : Option (Nat × Nat)}
    (h8 : r 8 2) (h10 : r 10 2) (h : readHeader s = (o, t)) :
    NvmRan r w s t ∧ ∀ cnt cap, o = some (cnt, cap) → cnt < 65536 ∧ cap < 65536 := by
  unfold readHeader at h
  rcases h1 : memRead cntOffset 2 s with ⟨o1, s1⟩
  obtain ⟨g1, g2⟩ := memRead_ran (w := w) (r := r) h8 h1
  rw [h1] at h
  cases o1 with
  | none => obtain ⟨rfl, rfl⟩ := Prod.mk.inj h; exact ⟨g1, by simp⟩
  | some b =>
    dsimp only at h
    rcases h2 : memRead capOffset 2 s1 with ⟨o2, s2⟩
    obtain ⟨k1, k2⟩ := memRead_ran (w := w) (r := r) h10 h2
    rw [h2] at h
    cases o2 with
    | none => obtain ⟨rfl, rfl⟩ := Prod.mk.inj h; exact ⟨g1.trans k1, by simp⟩
    | some b' =>
      obtain ⟨rfl, rfl⟩ := Prod.mk.inj h
      refine ⟨g1.trans k1, ?_⟩
      rintro cnt cap ⟨⟩
      exact ⟨ube_two_lt _ (g2 _ rfl), ube_two_lt _ (k2 _ rfl)⟩

/-- `WriteSpanning` in a region a command may write. -/
theorem writeSpanning_put {i : Instr} {s0 s t : State} {start : Nat} {data : List Byte} {st : Status}
    (hp : s.params = s0.params)
    (hr : ∀ a n, within start (start + data.length) a n → allowedRegion i s0 a n)
    (h : writeSpanning start data s = (st, t)) :
    NvmRan (allowedReads i s0.params) (allowedPuts i s0) s t := by
  refine (writeSpanning_ran (r := allowedReads i s0.params) h).mono (fun _ _ h => h) ?_
  rintro a b ⟨h1, h2, h3⟩
  exact ⟨hr a b.length ⟨h1, h2⟩, by rw [← hp]; exact h3⟩

theorem readField_done (i : Instr) (s : State) (a n : Nat) (ha : allowedReads i s.params a n) :
    LogDone i s (.next (readField a n s)) := by
  unfold readField
  rcases h1 : memRead a n s with ⟨o, s1⟩
  obtain ⟨g1, g2⟩ := memRead_ran (w := allowedPuts i s) (r := allowedReads i s.params) ha h1
  cases o with
  | none => exact ⟨_, _, _, s1, rfl, g1, by decide⟩
  | some b => exact ⟨_, _, _, s1, rfl, g1, by decide⟩

theorem finishLogWrite_done (st : Status) (s : State) :
    ∃ err ok d, finishLogWrite (st, s) = finish .log err ok d s ∧ err &&& 0xE1FE = 0 := by
  cases st with
  | ok => exact ⟨_, _, _, rfl, by decide⟩
  | fail => exact ⟨_, _, _, rfl, by decide⟩

theorem execLogErase_done (start length : Nat) (s : State) :
    LogDone (.logErase start length) s (execLogErase start length s) := by
  unfold execLogErase
  by_cases h : 4294967296 < start + length
  · rw [if_pos h]
    exact ⟨_, _, _, s, by rw [← refuse_eq_finish], NvmRan.refl _ _ s, by decide⟩
  · rw [if_neg h]
    rcases h1 : writeSpanning start (List.replicate length 0xFF) s with ⟨st, s1⟩
    have g := writeSpanning_put (i := .logErase start length) (s0 := s) rfl
      (fun a n w => ⟨by omega, by simpa using w⟩) h1
    obtain ⟨e, ok, d, k, m⟩ := finishLogWrite_done st s1
    exact ⟨e, ok, d, s1, by rw [k], g, m⟩

theorem execLogInit_done (ts : Data) (s : State) : LogDone (.logInit ts) s (execLogInit ts s) := by
  unfold execLogInit
  rcases h1 : writeSpanning tsOffset (be64 ts) s with ⟨st1, s1⟩
  have g1 := writeSpanning_put (i := .logInit ts) (s0 := s) rfl
    (fun a n w => by simp [within, be64, tsOffset] at w; exact ⟨by omega, by omega⟩) h1
  cases st1 with
  | fail => exact ⟨_, _, _, s1, rfl, g1, by decide⟩
  | ok =>
    dsimp only
    rcases h2 : writeSpanning cntOffset [0x00, 0x00] s1 with ⟨st2, s2⟩
    have g2 := g1.trans (writeSpanning_put (i := .logInit ts) (s0 := s) g1.params
      (fun a n w => by simp [within, cntOffset] at w; exact ⟨by omega, by omega⟩) h2)
    cases st2 with
    | fail => exact ⟨_, _, _, s2, rfl, g2, by decide⟩
    | ok =>
      dsimp only
      rcases h3 : writeSpanning capOffset (be16 (BitVec.ofNat 16 s2.params.cap)) s2 with ⟨st3, s3⟩
      have g3 := g2.trans (writeSpanning_put (i := .logInit ts) (s0 := s) g2.params
        (fun a n w => by simp [within, capOffset, be16] at w; exact ⟨by omega, by omega⟩) h3)
      obtain ⟨e, ok, d, k, m⟩ := finishLogWrite_done st3 s3
      exact ⟨e, ok, d, s3, by rw [k], g3, m⟩

theorem execLogAppend_done (id : Byte) (deltaT : Half) (payload : Word) (s : State) :
    LogDone (.logAppend id deltaT payload) s (execLogAppend id deltaT payload s) := by
  unfold execLogAppend
  rcases h1 : readHeader s with ⟨o, s1⟩
  obtain ⟨g1, g2⟩ := readHeader_ran (r := allowedReads (.logAppend id deltaT payload) s.params)
    (w := allowedPuts (.logAppend id deltaT payload) s) (by simp [allowedReads]) (by simp [allowedReads]) h1
  cases o with
  | none => exact ⟨_, _, _, s1, rfl, g1, by decide⟩
  | some p =>
    obtain ⟨cnt, cap⟩ := p
    have hc := (g2 cnt cap rfl).1
    dsimp only
    by_cases hm : cnt = 0xFFFF
    · rw [if_pos hm]
      exact ⟨_, _, _, s1, by rw [← refuse_eq_finish], g1, by decide⟩
    rw [if_neg hm]
    rcases h2 : writeSpanning (recordAddr s1.params cnt) (serRecord (recordNumber id deltaT payload)) s1 with ⟨st2, s2⟩
    have k2 := g1.trans (writeSpanning_put (i := .logAppend id deltaT payload) (s0 := s) g1.params
      (fun a n w => by
        refine .inr ⟨cnt, cap, by rw [h1], by omega, ?_⟩
        rw [← g1.params]
        simpa [within, serRecord] using w) h2)
    cases st2 with
    | fail => exact ⟨_, _, _, s2, rfl, k2, by decide⟩
    | ok =>
      dsimp only
      unfold appendCounter
      rcases h3 : writeSpanning cntOffset (be16 (BitVec.ofNat 16 (cnt + 1))) s2 with ⟨st3, s3⟩
      have k3 := k2.trans (writeSpanning_put (i := .logAppend id deltaT payload) (s0 := s) k2.params
        (fun a n w => .inl (by simpa [within, cntOffset, be16] using w)) h3)
      cases st3 with
      | fail => exact ⟨_, _, _, s3, rfl, k3, by decide⟩
      | ok =>
        refine ⟨_, _, _, s3, rfl, k3, ?_⟩
        cases decide (cap ≤ cnt + 1) <;> decide

theorem execLogGet_done (index : Nat) (s : State) : LogDone (.logGet index) s (execLogGet index s) := by
  unfold execLogGet
  rcases h1 : readHeader s with ⟨o, s1⟩
  obtain ⟨g1, g2⟩ := readHeader_ran (r := allowedReads (.logGet index) s.params)
    (w := allowedPuts (.logGet index) s) (by simp [allowedReads]) (by simp [allowedReads]) h1
  cases o with
  | none => exact ⟨_, _, _, s1, rfl, g1, by decide⟩
  | some p =>
    obtain ⟨cnt, cap⟩ := p
    have hc := g2 cnt cap rfl
    dsimp only
    by_cases hg : getCause cnt cap index = 0
    · rw [if_pos hg]
      have hi : index < 65535 := by
        unfold getCause at hg
        split at hg
        · exact absurd hg (by decide)
        · split at hg
          · exact absurd hg (by decide)
          · split at hg
            · exact absurd hg (by decide)
            · omega
      unfold readField
      rcases h2 : memRead (recordAddr s1.params index) 7 s1 with ⟨o2, s2⟩
      obtain ⟨k1, k2⟩ := memRead_ran (w := allowedPuts (.logGet index) s)
        (r := allowedReads (.logGet index) s.params) (by simp [allowedReads, hi, g1.params]) h2
      cases o2 with
      | none => exact ⟨_, _, _, s2, rfl, g1.trans k1, by decide⟩
      | some b => exact ⟨_, _, _, s2, rfl, g1.trans k1, by decide⟩
    · rw [if_neg hg]
      refine ⟨_, _, _, s1, rfl, g1, ?_⟩
      unfold getCause
      repeat' split
      all_goals decide

/-- Every command of the log unit. -/
theorem exec_log_done (i : Instr) (s : State) (h : partOf i = .log) : LogDone i s (exec i s) := by
  cases i <;> first | exact Part.noConfusion h | skip
  case logInit ts => exact execLogInit_done ts s
  case logAppend a b c => exact execLogAppend_done a b c s
  case logGet n => exact execLogGet_done n s
  case logRdcnt => exact readField_done .logRdcnt s _ _ (by simp [allowedReads, cntOffset])
  case logRdts => exact readField_done .logRdts s _ _ (by simp [allowedReads, tsOffset])
  case logRdcap => exact readField_done .logRdcap s _ _ (by simp [allowedReads, capOffset])
  case logErase a n => exact execLogErase_done a n s

end Sys2Proof.Machine
end

