-- ==== Sys2Proof/Laws/PerInstr.lean ====
section
/-!
SUPPORT. A family of lemmas with one statement per command: the encoder writes the opcode of R74 and the operand
field of R71 to their places in the command word (R70).
-/

namespace Sys2Proof.Laws

theorem opField_append (op : BitVec 8) (a : Data) : opField (op ++ a) = op := by
  apply BitVec.eq_of_getLsbD_eq
  intro k hk
  rw [opField, BitVec.getLsbD_extractLsb', BitVec.getLsbD_append, if_neg (by omega), Nat.add_sub_cancel_left]
  simp [hk]

theorem argField_append (op : BitVec 8) (a : Data) : argField (op ++ a) = a := by
  apply BitVec.eq_of_getLsbD_eq
  intro k hk
  rw [argField, BitVec.getLsbD_extractLsb', BitVec.getLsbD_append, if_pos (by omega), Nat.zero_add]
  simp [hk]

/-- The command's word carries its opcode in bits 71:64 and its operand field in bits 63:0. -/
def OpcodeField.Statement (i : Instr) : Prop := opField (encode i) = i.opcode ∧ argField (encode i) = i.arg

theorem opcodeField (i : Instr) : OpcodeField.Statement i := ⟨opField_append _ _, argField_append _ _⟩

theorem OpcodeField.csrr (csr : BitVec 8) : OpcodeField.Statement (.csrr csr) := opcodeField _
theorem OpcodeField.csrw (csr : BitVec 8) (value : Word) : OpcodeField.Statement (.csrw csr value) := opcodeField _
theorem OpcodeField.csrs (csr : BitVec 8) (value : Word) : OpcodeField.Statement (.csrs csr value) := opcodeField _
theorem OpcodeField.csrc (csr : BitVec 8) (value : Word) : OpcodeField.Statement (.csrc csr value) := opcodeField _
theorem OpcodeField.convC2t (raw : Half) : OpcodeField.Statement (.convC2t raw) := opcodeField _
theorem OpcodeField.convT2c (t : Int) : OpcodeField.Statement (.convT2c t) := opcodeField _
theorem OpcodeField.rtdInit (filter : Bool) : OpcodeField.Statement (.rtdInit filter) := opcodeField _
theorem OpcodeField.rtdRead1 : OpcodeField.Statement .rtdRead1 := opcodeField _
theorem OpcodeField.rtdStart : OpcodeField.Statement .rtdStart := opcodeField _
theorem OpcodeField.rtdStop : OpcodeField.Statement .rtdStop := opcodeField _
theorem OpcodeField.rtdRead : OpcodeField.Statement .rtdRead := opcodeField _
theorem OpcodeField.rtdSethi (t : Int) : OpcodeField.Statement (.rtdSethi t) := opcodeField _
theorem OpcodeField.rtdSetlo (t : Int) : OpcodeField.Statement (.rtdSetlo t) := opcodeField _
theorem OpcodeField.rtdGethi : OpcodeField.Statement .rtdGethi := opcodeField _
theorem OpcodeField.rtdGetlo : OpcodeField.Statement .rtdGetlo := opcodeField _
theorem OpcodeField.fdAuto : OpcodeField.Statement .fdAuto := opcodeField _
theorem OpcodeField.fdMstart : OpcodeField.Statement .fdMstart := opcodeField _
theorem OpcodeField.fdMend : OpcodeField.Statement .fdMend := opcodeField _
theorem OpcodeField.fdRdfault : OpcodeField.Statement .fdRdfault := opcodeField _
theorem OpcodeField.logInit (ts : Data) : OpcodeField.Statement (.logInit ts) := opcodeField _
theorem OpcodeField.logAppend (id : Byte) (deltaT : Half) (payload : Word) : OpcodeField.Statement (.logAppend id deltaT payload) := opcodeField _
theorem OpcodeField.logGet (index : Nat) : OpcodeField.Statement (.logGet index) := opcodeField _
theorem OpcodeField.logRdcnt : OpcodeField.Statement .logRdcnt := opcodeField _
theorem OpcodeField.logRdts : OpcodeField.Statement .logRdts := opcodeField _
theorem OpcodeField.logRdcap : OpcodeField.Statement .logRdcap := opcodeField _
theorem OpcodeField.logErase (start length : Nat) : OpcodeField.Statement (.logErase start length) := opcodeField _

end Sys2Proof.Laws
end

