-- ==== Sys2Proof/Tests/Slice0.lean ====
section
/-!
SUPPORT. Tests. Expected values are the spec's: the vectors of `95_test_vectors.md` (named by their ids), the examples of
the command rules, words written out from `30_encoding.md` R71 and R74. The witnesses at the end show, for every statement
with hypotheses, concrete values that meet them, clause by clause.
-/

namespace Sys2Proof.Tests

open Sys2Proof Sys2Proof.Machine

/-! Well-formedness: each check refuses an ill-formed term. -/

theorem test_wf_temperature_high : (Instr.convT2c 2147483648).wellFormed = false := by decide
theorem test_wf_temperature_low : (Instr.rtdSethi (-2147483649)).wellFormed = false := by decide
theorem test_wf_temperature_setlo : (Instr.rtdSetlo 2147483648).wellFormed = false := by decide
theorem test_wf_index : (Instr.logGet 65536).wellFormed = false := by decide
theorem test_wf_start : (Instr.logErase 4294967296 0).wellFormed = false := by decide
theorem test_wf_length : (Instr.logErase 0 4294967296).wellFormed = false := by decide

/-! Decoding: one word for every command, written out from the formats of R71. -/

theorem test_decode_csrr : decode 0x010000000800000000 = .ok (.csrr 0x08) := by decide
theorem test_decode_csrr_value_ignored : decode 0x0100000001DEADBEEF = .ok (.csrr 0x01) := by decide
theorem test_decode_csrw : decode 0x020000000100012345 = .ok (.csrw 0x01 0x12345) := by decide
theorem test_decode_csrs : decode 0x03000000FF00000001 = .ok (.csrs 0xFF 1) := by decide
theorem test_decode_csrc : decode 0x040000000000000004 = .ok (.csrc 0x00 4) := by decide
theorem test_decode_c2t : decode 0x10FFFFFFFFFFFF4144 = .ok (.convC2t 0x4144) := by decide
theorem test_decode_t2c : decode 0x1100000000FFFCE000 = .ok (.convT2c (-204800)) := by decide
theorem test_decode_t2c_junk : decode 0x11FFFFFFFF00006400 = .ok (.convT2c 25600) := by decide
theorem test_decode_init : decode 0x200000000000000001 = .ok (.rtdInit true) := by decide
theorem test_decode_init_junk : decode 0x20FFFFFFFFFFFFFFFE = .ok (.rtdInit false) := by decide
theorem test_decode_read1 : decode 0x210000000000000000 = .ok .rtdRead1 := by decide
theorem test_decode_start : decode 0x220000000000000000 = .ok .rtdStart := by decide
theorem test_decode_stop : decode 0x230000000000000000 = .ok .rtdStop := by decide
theorem test_decode_read : decode 0x240000000000000000 = .ok .rtdRead := by decide
theorem test_decode_sethi : decode 0x2500000000FFFFFC00 = .ok (.rtdSethi (-1024)) := by decide
theorem test_decode_setlo : decode 0x2600000000FFFF3800 = .ok (.rtdSetlo (-51200)) := by decide
theorem test_decode_gethi : decode 0x270000000000000000 = .ok .rtdGethi := by decide
theorem test_decode_getlo : decode 0x280000000000000000 = .ok .rtdGetlo := by decide
theorem test_decode_auto : decode 0x300000000000000000 = .ok .fdAuto := by decide
theorem test_decode_mstart : decode 0x310000000000000000 = .ok .fdMstart := by decide
theorem test_decode_mend : decode 0x320000000000000000 = .ok .fdMend := by decide
theorem test_decode_rdfault : decode 0x330000000000000000 = .ok .fdRdfault := by decide
theorem test_decode_loginit : decode 0x400000018BCFE56800 = .ok (.logInit 0x18BCFE56800) := by decide
theorem test_decode_append : decode 0x41ABFFFEFDFCFBFAF9 = .ok (.logAppend 0xFF 0xFEFD 0xFCFBFAF9) := by decide
theorem test_decode_get : decode 0x42000000000000FFFF = .ok (.logGet 65535) := by decide
theorem test_decode_rdcnt : decode 0x43DEADBEEFDEADBEEF = .ok .logRdcnt := by decide
theorem test_decode_rdts : decode 0x440000000000000000 = .ok .logRdts := by decide
theorem test_decode_rdcap : decode 0x450000000000000000 = .ok .logRdcap := by decide
theorem test_decode_erase : decode 0x46FFFFFF8000000080 = .ok (.logErase 0xFFFFFF80 128) := by decide
theorem test_decode_zero : decode 0 = .error (.illegalOpcode 0) := by decide
theorem test_decode_ones : decode 0xFFFFFFFFFFFFFFFFFF = .error (.illegalOpcode 0xFF) := by decide
theorem test_decodeTableWord : decodeTableWord 72 0x41002A003C00001234 = some (.logAppend 0x2A 60 0x1234) := by decide
theorem test_encode_append : encode (.logAppend 0x2A 60 0x1234) = 0x41002A003C00001234 := by decide
theorem test_encode_sethi : encode (.rtdSethi (-1024)) = 0x2500000000FFFFFC00 := by decide

/-! Assembler text (R81, R82). -/

theorem test_assemble_csrw : assemble "CSRW FD_POLL_MAX, 3" = some 0x020000000100000003 := by decide
theorem test_assemble_append :
    assemble "LOG.APPEND 0x2A, 60, 0x1234" = some 0x41002A003C00001234 := by decide
theorem test_assemble_negative : assemble "CONV.T2C -204800" = some 0x1100000000FFFCE000 := by decide
theorem test_assemble_attach : assemble "RTD.ATTACH" = some 0x030000000000000001 := by decide

/-! One command on a small state. -/

/-- The state after a command that gives one. -/
def after (i : Instr) (s : State) : State :=
  match exec i s with
  | .next t => t
  | _ => s

/-- The state after a step that gives one. -/
def stepped (s : State) : State :=
  match step s with
  | .next t => t
  | _ => s

/-- The reset state with a value of `CTRL` and the RTD side's answers. -/
def rtdState (ctrl : Word) (txs : List PutReply) (rxs : List GetReply) (levels : List Bool) : State :=
  { State.reset with
    regs := { State.reset.regs with ctrl := ctrl }
    env := { Env.unknown with txQ := txs, rxQ := rxs, drdyQ := levels } }

/-- The reset state with `LOG_SINK_EN = 1` and the NVM's answers. -/
def nvmState (puts : List PutReply) (gets : List GetReply) (bits : List Bool) : State :=
  { State.reset with
    regs := { State.reset.regs with ctrl := 2 }
    env := { Env.unknown with blkWriteQ := puts, blkReadQ := gets, blkReadyQ := bits } }

/-- The state with a command for the host to issue next. -/
def issue (w : Command) (s : State) : State := placeCommand w s

/-- An answer `FAIL` to a transfer to a device, nothing stored. -/
def lostPut : PutReply := { st := .fail, landed := [] }

/-- An answer `FAIL` to a transfer from a device, with some bytes. -/
def lostGet (bytes : List Byte) : GetReply := { st := .fail, bytes := bytes }

/-- The one response of a state. -/
def one (ok : Bool) (data : Data) : List Response := [{ ok := ok, data := data }]

-- S12, S13, S20, S19, S18
theorem test_csrw : (after (.csrw 1 0x12345) State.reset).responses = one true 0x64
    ∧ (after (.csrw 1 0x12345) State.reset).regs.fdPollMax = 0x2345 := by decide
theorem test_csrw_readonly : (after (.csrw 8 5) State.reset).responses = one false 0 := by decide
theorem test_csrr : (after (.csrr 4) State.reset).responses = one true 0x64 := by decide
theorem test_csrr_unimplemented : (after (.csrr 0x09) State.reset).responses = one false 0 := by decide
theorem test_csrs : (after (.csrs 2 0xF0) State.reset).regs.pollInterval = 0xF1 := by decide
theorem test_csrc : (after (.csrc 0 4) (rtdState 7 [] [] [])).responses = one true 7
    ∧ (after (.csrc 0 4) (rtdState 7 [] [] [])).regs.ctrl = 3 := by decide
-- K7, K16, K30b, K36
theorem test_c2t_floor : (after (.convC2t 0x3B89) State.reset).responses = one true 0xFFFFFFEF := by decide
theorem test_c2t_top : (after (.convC2t 0xFFFF) State.reset).responses = one true 0xD646F := by decide
theorem test_t2c_nearest : (after (.convT2c 2) State.reset).responses = one true 0x3B8A := by decide +kernel
theorem test_t2c_saturates : (after (.convT2c 877662) State.reset).responses = one true 0xFFFE := by decide +kernel
-- I4, I5
theorem test_init_throwaway : (after (.rtdInit true) (rtdState 0 [lostPut, taken] [] [])).trace
    = [.sel, .tx [0x00] .fail, .desel, .sel, .tx [0x80, 0x81] .ok, .desel] := by decide
theorem test_init_fails :
    (after (.rtdInit true) (rtdState 1 [taken, lostPut] [given [0x00]] [])).responses = one false 0
    ∧ (after (.rtdInit true) (rtdState 1 [taken, lostPut] [given [0x00]] [])).trace.getLast?
      = some (.notify .rtd 0x0001) := by decide
-- O1, and O4 with two tests
theorem test_read1_drdy :
    (after .rtdRead1 (rtdState 4 [taken, taken, taken] [given [0xC1], given [0x41, 0x44]] [true, false])).trace
      = [.sel, .tx [0x00] .ok, .rx 1 [0xC1] .ok, .desel, .sel, .tx [0x80, 0xE1] .ok, .desel, .drdy true, .delay 1,
          .drdy false, .sel, .tx [0x01] .ok, .rx 2 [0x41, 0x44] .ok, .desel]
    ∧ (after .rtdRead1
        (rtdState 4 [taken, taken, taken] [given [0xC1], given [0x41, 0x44]] [true, false])).responses
      = one true 0x6402 := by decide
theorem test_read1_poll_fault :
    (after .rtdRead1
      (rtdState 1 [taken, taken, taken, taken] [given [0x81], given [0x81], given [0x41, 0x45]] [])).responses
      = one false 0x6402 := by decide
-- A1, A3
theorem test_start : (after .rtdStart (rtdState 0 [taken, taken] [given [0x00]] [])).trace
    = [.sel, .tx [0x00] .ok, .rx 1 [0x00] .ok, .desel, .sel, .tx [0x80, 0x40] .ok, .desel] := by decide
theorem test_stop : (after .rtdStop (rtdState 0 [taken, taken] [given [0xFF]] [])).trace
    = [.sel, .tx [0x00] .ok, .rx 1 [0xFF] .ok, .desel, .sel, .tx [0x80, 0xBF] .ok, .desel] := by decide
-- T3
theorem test_read : (after .rtdRead (rtdState 1 [taken] [given [0xFF, 0xFF]] [])).trace
    = [.sel, .tx [0x01] .ok, .rx 2 [0xFF, 0xFF] .ok, .desel, .notify .rtd 0x0100]
    ∧ (after .rtdRead (rtdState 1 [taken] [given [0xFF, 0xFF]] [])).responses = one false 0xD646F := by decide
-- H5, H6, H8, H10
theorem test_sethi : (after (.rtdSethi 102400) (rtdState 0 [taken] [] [])).trace
    = [.sel, .tx [0x83, 0x52, 0x74] .ok, .desel] := by decide
theorem test_setlo : (after (.rtdSetlo (-51200)) (rtdState 0 [taken] [] [])).trace
    = [.sel, .tx [0x85, 0x30, 0x14] .ok, .desel] := by decide
theorem test_gethi : (after .rtdGethi (rtdState 0 [taken] [given [0x52, 0x75]] [])).responses
    = one true 0x18FF3 := by decide
theorem test_getlo : (after .rtdGetlo (rtdState 0 [taken] [given [0x00, 0x00]] [])).responses
    = one true 0xFFFBF109 := by decide
-- D12 (arming clears, restore writes back), D8
theorem test_auto :
    (after .fdAuto (rtdState 0 [taken, taken, taken, taken] [given [0xE3], given [0x81]] [])).trace
      = [.sel, .tx [0x00] .ok, .rx 1 [0xE3] .ok, .desel, .sel, .tx [0x80, 0x85] .ok, .desel, .sel, .tx [0x00] .ok,
          .rx 1 [0x81] .ok, .desel, .delay 10, .sel, .tx [0x80, 0xE3] .ok, .desel]
    ∧ fdStatusValue (after .fdAuto (rtdState 0 [taken, taken, taken, taken] [given [0xE3], given [0x81]] [])).regs
      = 0x0001E302 := by decide
theorem test_auto_abort :
    fdStatusValue (after .fdAuto (rtdState 1 [taken, lostPut, taken] [given [0xC1]] [])).regs = 0x0000C100
    ∧ (after .fdAuto (rtdState 1 [taken, lostPut, taken] [given [0xC1]] [])).responses = one false 0 := by decide
-- G1, G10
theorem test_mstart : fdStatusValue (after .fdMstart (rtdState 0 [taken, taken] [given [0xD3]] [])).regs
    = 0x0000D305 := by decide
theorem test_mstart_fails : fdStatusValue (after .fdMstart (rtdState 1 [taken, lostPut] [given [0x81]] [])).regs
    = 0 := by decide

/-- A state with a manual cycle armed and `FD_SAVED` as given. -/
def armed (saved : Byte) (s : State) : State :=
  s.withRegs { s.regs with fdState := .running, fdArmed := true, fdSaved := saved }

-- R148's example, G8
theorem test_mend :
    (after .fdMend (armed 0xD3 (rtdState 0 [taken, taken, taken] [given [0x91]] []))).trace
      = [.sel, .tx [0x80, 0x9D] .ok, .desel, .sel, .tx [0x00] .ok, .rx 1 [0x91] .ok, .desel, .delay 10, .sel,
          .tx [0x80, 0xD3] .ok, .desel]
    ∧ fdStatusValue (after .fdMend (armed 0xD3 (rtdState 0 [taken, taken, taken] [given [0x91]] []))).regs
      = 0x0001D302 := by decide
theorem test_mend_refused : after .fdMend State.reset = refuse State.reset := by decide
-- F12, F14
theorem test_rdfault :
    (after .fdRdfault (rtdState 1 [taken, taken, taken] [given [0x81], given [0xC4]] [])).trace
      = [.sel, .tx [0x00] .ok, .rx 1 [0x81] .ok, .desel, .sel, .tx [0x07] .ok, .rx 1 [0xC4] .ok, .desel, .sel,
          .tx [0x80, 0x83] .ok, .desel, .notify .rtd 0x0046] := by decide
theorem test_rdfault_clear_fails :
    (after .fdRdfault (rtdState 1 [taken, taken, lostPut] [given [0x81], given [0x80]] [])).trace.getLast?
      = some (.notify .rtd 0x0003) := by decide
-- W4 and its unspecified neighbour's limit W12, Y9
theorem test_erase :
    (after (.logErase 127 2) (nvmState [taken, taken] [] [true])).trace
      = [.blkWrite 0 127 [0xFF] 100 .ok, .blkReady 0 true, .blkWrite 0 128 [0xFF] 100 .ok]
    ∧ (after (.logErase 127 2) (nvmState [taken, taken] [] [true])).responses = one true 0 := by decide
theorem test_erase_gives_up :
    (after (.logErase 126 4) (nvmState [taken] [] [false, false, false, false, false])).trace
      = .blkWrite 0 126 [0xFF, 0xFF] 100 .ok :: List.replicate 5 (.blkReady 0 false) ++ [.notify .log 1] := by decide
-- M4, M38
theorem test_loginit :
    (after (.logInit 0x18BCFE56800) (nvmState [taken, taken, taken] [] [])).trace
      = [.blkWrite 0 0 [0x00, 0x00, 0x01, 0x8B, 0xCF, 0xE5, 0x68, 0x00] 100 .ok, .blkWrite 0 8 [0x00, 0x00] 100 .ok,
          .blkWrite 0 10 [0x23, 0xA4] 100 .ok] := by decide
theorem test_loginit_fails :
    (after (.logInit 0x18BCFE56800) (nvmState [taken, lostPut, lostPut, lostPut] [] [true, true])).responses
      = one false 0 := by decide
-- R194's example, M28's overflow with the sink on (M23)
theorem test_append :
    (after (.logAppend 0x07 0x012C 0x00006402)
      (nvmState [taken, taken, taken] [given [0x00, 0x12], given [0x23, 0xA4]] [true])).trace
      = [.blkRead 0 8 2 100 [0x00, 0x12] .ok, .blkRead 0 10 2 100 [0x23, 0xA4] .ok,
          .blkWrite 0 0xFE [0x07, 0x01] 100 .ok, .blkReady 0 true,
          .blkWrite 0 0x100 [0x2C, 0x00, 0x00, 0x64, 0x02] 100 .ok, .blkWrite 0 8 [0x00, 0x13] 100 .ok] := by decide
theorem test_append_overflow :
    (after (.logAppend 0 0 0) (nvmState [taken, taken] [given [0x00, 0x05], given [0x00, 0x00]] [])).trace.getLast?
      = some (.notify .log 0x0200)
    ∧ (after (.logAppend 0 0 0) (nvmState [taken, taken] [given [0x00, 0x05], given [0x00, 0x00]] [])).responses
      = one true 0 := by decide
-- M11, M14
theorem test_get :
    (after (.logGet 0) (nvmState [] [given [0x00, 0x01], given [0x23, 0xA4],
      given [0x07, 0x01, 0x2C, 0x00, 0x00, 0x64, 0x02]] [])).responses = one true 0x7012C00006402 := by decide
theorem test_get_bounds :
    (after (.logGet 0x23A4) (nvmState [] [given [0x00, 0x01], given [0x23, 0xA4]] [])).trace.getLast?
      = some (.notify .log 0x0800) := by decide
-- M16, M39, M7
theorem test_rdcnt : (after .logRdcnt (nvmState [] [given [0x00, 0x01]] [])).trace
    = [.blkRead 0 8 2 100 [0x00, 0x01] .ok] := by decide
theorem test_rdts_retries :
    (after .logRdts (nvmState [] [lostGet [], given [0x00, 0x00, 0x01, 0x8B, 0xCF, 0xE5, 0x68, 0x00]]
      [true])).responses = one true 0x18BCFE56800 := by decide
theorem test_rdcap : (after .logRdcap (nvmState [] [given [0x23, 0xA4]] [])).responses = one true 0x23A4 := by decide

/-! The step. -/

theorem test_step_runs_word :
    (stepped (State.reset.withFetchWord 72 0x020000000100000003)).regs.fdPollMax = 3
    ∧ (stepped (State.reset.withFetchWord 72 0x020000000100000003)).pc = 1 := by decide
theorem test_step_illegal : (stepped (State.reset.withFetchWord 72 0)).responses = one false 0 := by decide
-- R241: the restore write of a cut cycle is not made
theorem test_step_cut :
    (stepped { issue 0x300000000000000000 (rtdState 1 [taken, taken, taken, taken]
        [given [0xC1], given [0x81]] []) with
        resets := [some 7] }).trace.length = 7
    ∧ (stepped { issue 0x300000000000000000 (rtdState 1 [taken, taken, taken, taken]
        [given [0xC1], given [0x81]] []) with
        resets := [some 7] }).responses = [] := by decide

/-! Witnesses: for each statement with hypotheses, values that meet them together; a statement of several clauses has
one for each clause. -/

theorem witness_DecodeEncodeAgree :
    [Instr.rtdSethi (-2147483648), .convT2c 2147483647, .rtdSetlo 0, .logGet 65535, .logErase 4294967295 4294967295,
      .csrw 0xFF 0xFFFFFFFF, .logInit 0xFFFFFFFFFFFFFFFF].all Instr.wellFormed = true := by decide

theorem witness_DecodedCommandReencodes : decode 0x43DEADBEEFDEADBEEF = .ok .logRdcnt := by decide

theorem witness_ReservedOperandBitsIgnored :
    decode 0x100000000000004144 = .ok (.convC2t 0x4144)
    ∧ (0x10FFFFFFFFFFFF4144 : Command) &&& (Instr.convC2t 0x4144).usedBits
      = 0x100000000000004144 &&& (Instr.convC2t 0x4144).usedBits := by decide

theorem witness_IllegalOpcodesRefused :
    nextCommand (issue 0xFFFFFFFFFFFFFFFFFF State.reset) = some 0xFFFFFFFFFFFFFFFFFF
    ∧ resetInput (issue 0xFFFFFFFFFFFFFFFFFF State.reset) = none
    ∧ decode 0xFFFFFFFFFFFFFFFFFF = .error (.illegalOpcode 0xFF) := by decide

theorem witness_StepRunsDecodedCommand :
    nextCommand (issue 0x010000000800000000 State.reset) = some 0x010000000800000000
    ∧ decode 0x010000000800000000 = .ok (.csrr 0x08)
    ∧ resetInput (issue 0x010000000800000000 State.reset) = none
    ∧ (Instr.csrr 0x08).wellFormed = true := by decide

theorem witness_StepIdleWithoutCommand :
    nextCommand State.reset = none ∧ resetInput State.reset = none
    ∧ nextCommand { State.reset with resets := [some 0] } = none
    ∧ resetInput { State.reset with resets := [some 0] } = some 0 := by decide

/-- An automatic cycle about to run, its every reply scripted, the reset input asserted after `k` events. -/
def cutCycle (k : Nat) : State :=
  { issue 0x300000000000000000 (rtdState 1 [taken, taken, taken, taken] [given [0xC1], given [0x81]] []) with
    resets := [some k] }

theorem witness_ResetCutsCommand (k : Nat) :
    nextCommand (cutCycle k) = some 0x300000000000000000 ∧ decode 0x300000000000000000 = .ok .fdAuto
    ∧ exec .fdAuto (cutCycle k) = .next (after .fdAuto (cutCycle k))
    ∧ (after .fdAuto (cutCycle k)).trace = (cutCycle k).trace ++ (after .fdAuto (cutCycle k)).trace
    ∧ resetInput (cutCycle k) = some k := ⟨rfl, by decide, rfl, rfl, rfl⟩

/-- Both sides of the boundary between a cut and a reset after the response. -/
theorem witness_ResetCutsCommand_boundary :
    15 ≤ (after .fdAuto (cutCycle 15)).trace.length ∧ (after .fdAuto (cutCycle 16)).trace.length < 16 := by decide

theorem witness_ResetCutsCommand_illegal (k : Nat) :
    nextCommand { issue 0xFFFFFFFFFFFFFFFFFF State.reset with resets := [some k] } = some 0xFFFFFFFFFFFFFFFFFF
    ∧ decode 0xFFFFFFFFFFFFFFFFFF = .error (.illegalOpcode 0xFF)
    ∧ resetInput { issue 0xFFFFFFFFFFFFFFFFFF State.reset with resets := [some k] } = some k :=
  ⟨rfl, by decide, rfl⟩

/-- A log whose counter reads `0xFFFE`. -/
def nearlyFull : State := nvmState [taken, taken] [given [0xFF, 0xFE], given [0xFF, 0xFF]] []

theorem witness_EveryCommandAnswersOnce :
    ¬ unspecified (.logErase 4294967295 1) State.reset ∧ ¬ unspecified (.logAppend 0 0 0) nearlyFull
    ∧ ¬ unspecified .fdAuto State.reset := by
  refine ⟨by simp [unspecified], ?_, id⟩
  rintro ⟨cap, h⟩
  have : (readHeader nearlyFull).1 = some (0xFFFE, 0xFFFF) := by decide
  rw [this] at h
  simp at h

/-- A cycle about to run, its every reply scripted. -/
def cycleReady : State :=
  issue 0x300000000000000000 (rtdState 1 [taken, taken, taken, taken] [given [0xC1], given [0x81]] [])

/-- An erase over a page boundary about to run. -/
def eraseReady : State := issue 0x460000007F00000002 (nvmState [taken, taken] [] [true])

theorem witness_StepKeepsInvariant :
    admissible cycleReady.params = true ∧ invariant cycleReady = true ∧ step cycleReady = .next (stepped cycleReady)
    ∧ admissible eraseReady.params = true ∧ invariant eraseReady = true
    ∧ step eraseReady = .next (stepped eraseReady) := by
  exact ⟨by decide, by decide, rfl, by decide, by decide, rfl⟩

theorem witness_TraceAccountsForEnvironment :
    exec .fdAuto cycleReady = .next (after .fdAuto cycleReady)
    ∧ exec (.logErase 127 2) eraseReady = .next (after (.logErase 127 2) eraseReady) := ⟨rfl, rfl⟩

theorem witness_WritesStayWithinPages :
    1 ≤ eraseReady.params.pageLen ∧ eraseReady.trace.all (withinPage eraseReady.params.pageLen) = true
    ∧ step eraseReady = .next (stepped eraseReady) := ⟨by decide, by decide, rfl⟩

theorem witness_TransfersFitAddressSpace :
    admissible eraseReady.params = true ∧ eraseReady.trace.all within32 = true
    ∧ (∀ w start length, nextCommand eraseReady = some w → decode w = .ok (.logErase start length) →
        start + length ≤ 4294967296)
    ∧ step eraseReady = .next (stepped eraseReady) := by
  refine ⟨by decide, by decide, fun w start length h h' => ?_, rfl⟩
  obtain rfl : 0x460000007F00000002 = w := Option.some.inj h
  have e : decode 0x460000007F00000002 = .ok (.logErase 127 2) := by decide
  obtain ⟨rfl, rfl⟩ := Instr.logErase.inj (Except.ok.inj (e.symm.trans h'))
  omega

/-- The last erase R51 specifies, at the end of the address space. -/
theorem witness_TransfersFitAddressSpace_end :
    decode 0x46FFFFFFFF00000001 = .ok (.logErase 4294967295 1) ∧ 4294967295 + 1 ≤ 4294967296 := by decide

theorem witness_TransactionsAreBracketed :
    cycleReady.regs.cs = false ∧ exec .fdAuto cycleReady = .next (after .fdAuto cycleReady) := ⟨rfl, rfl⟩

/-- One command of each unit, in a state whose replies are scripted. -/
theorem witness_OneUnitPerCommand :
    exec (.csrw 1 3) State.reset = .next (after (.csrw 1 3) State.reset)
    ∧ exec (.convC2t 0) State.reset = .next (after (.convC2t 0) State.reset)
    ∧ exec .fdAuto cycleReady = .next (after .fdAuto cycleReady)
    ∧ exec (.logErase 127 2) eraseReady = .next (after (.logErase 127 2) eraseReady)
    ∧ partOf (.csrw 1 3) = .csr ∧ partOf (.convC2t 0) = .converter ∧ partOf .fdAuto = .rtd
    ∧ partOf (.logErase 127 2) = .log := ⟨rfl, rfl, rfl, rfl, rfl, rfl, rfl, rfl⟩

theorem witness_NotificationIsLastAndSingle :
    exec .logRdcnt (nvmState [] [lostGet [], lostGet [], lostGet []] [true, true])
      = .next (after .logRdcnt (nvmState [] [lostGet [], lostGet [], lostGet []] [true, true]))
    ∧ exec .rtdRead (rtdState 1 [taken] [given [0xFF, 0xFF]] [])
      = .next (after .rtdRead (rtdState 1 [taken] [given [0xFF, 0xFF]] [])) := ⟨rfl, rfl⟩

theorem witness_RegisterFrame :
    exec (.csrw 1 3) State.reset = .next (after (.csrw 1 3) State.reset)
    ∧ (csrRows.map fun row => row.addr) = [0, 1, 2, 3, 4, 5, 6, 7]
    ∧ (∀ v, Instr.csrw 1 3 ≠ .csrw 0 v ∧ Instr.csrw 1 3 ≠ .csrs 0 v ∧ Instr.csrw 1 3 ≠ .csrc 0 v)
    ∧ Instr.csrw 1 3 ≠ .fdAuto ∧ Instr.csrw 1 3 ≠ .fdMstart ∧ Instr.csrw 1 3 ≠ .fdMend
    ∧ partOf (.csrw 1 3) ≠ .rtd := ⟨rfl, by decide, by simp, by decide, by decide, by decide, by decide⟩

theorem witness_DeviceRegisterFrame :
    exec (.rtdSethi 0) (rtdState 0 [taken] [] []) = .next (after (.rtdSethi 0) (rtdState 0 [taken] [] []))
    ∧ 2 ∉ rtdWritten (.rtdSethi 0) ∧ 5 ∉ rtdWritten (.rtdSethi 0) ∧ 1 ∉ rtdWritten .fdAuto := by
  exact ⟨rfl, by decide, by decide, by decide⟩

/-- A log at counter 18, everything scripted. -/
def appendReady : State := nvmState [taken, taken, taken] [given [0x00, 0x12], given [0x23, 0xA4]] [true]

theorem witness_NvmFrame :
    exec (.logAppend 7 300 0x6402) appendReady = .next (after (.logAppend 7 300 0x6402) appendReady)
    ∧ ¬ nvmWritten (.logAppend 7 300 0x6402) appendReady 0xFD
    ∧ ¬ nvmWritten (.logAppend 7 300 0x6402) appendReady 0x105
    ∧ ¬ nvmWritten (.logInit 0) appendReady 12 ∧ ¬ nvmWritten (.logErase 127 2) appendReady 126
    ∧ ¬ nvmWritten (.logErase 127 2) appendReady 129 ∧ ¬ nvmWritten (.logGet 0) appendReady 0 := by
  have e : (readHeader appendReady).1 = some (18, 0x23A4) := by decide
  have p : recordAddr appendReady.params 18 = 0xFE := by decide
  refine ⟨rfl, ?_, ?_, by simp [nvmWritten], by simp [nvmWritten], by simp [nvmWritten], id⟩
  all_goals
    rintro (h | ⟨cnt, cap, h, h1, h2⟩)
    · omega
    · rw [e] at h
      obtain ⟨rfl, rfl⟩ := Prod.mk.inj (Option.some.inj h)
      omega

theorem witness_CsrReadAnswersValue : 0x09 ≤ (0x09 : BitVec 8).toNat ∧ 0x09 ≤ (0xFF : BitVec 8).toNat := by decide

theorem witness_CsrWriteStoresMaskedValue :
    (csrRows.map fun row => row.addr) = [0, 1, 2, 3, 4, 5, 6, 7] ∧ 0x08 ≤ (0x08 : BitVec 8).toNat
    ∧ 0x08 ≤ (0xFF : BitVec 8).toNat := by decide

theorem witness_CsrWriteReadsBack :
    (csrRows.map fun row => row.addr) = [0, 1, 2, 3, 4, 5, 6, 7] ∧ (0x08 : BitVec 8) ≠ 0x07
    ∧ exec (.csrw 0x07 250) State.reset = .next (after (.csrw 0x07 250) State.reset) := ⟨by decide, by decide, rfl⟩

theorem witness_CodeToTemperature : 1 ≤ State.reset.params.aNum := by decide

theorem witness_TemperatureToCode : 1 ≤ State.reset.params.rref ∧ 1 ≤ State.reset.params.aDen := by decide

theorem witness_ConverterLaws :
    (Config.defaults = Config.defaults ∨ Config.defaults = Config.defaultsPt1000) ∧ 32766 < 32767 ∧ 32767 ≤ 32767
    ∧ (-265957 : Int) ≤ -265957 ∧ (877662 : Int) ≤ 877662 := by decide

theorem witness_TemperatureRoundTripWithin18 :
    Config.defaults.c2t 0 ≤ -265975 ∧ -265975 ≤ Config.defaults.c2t 32767 ∧ Config.defaultsPt1000.c2t 0 ≤ 877679
    ∧ 877679 ≤ Config.defaultsPt1000.c2t 32767 := by decide +kernel

/-! The RTD side. -/

theorem witness_RegisterTransactions :
    repliesOf (rtdState 0 [taken] [given [0x41, 0x44]] []).env (readEv 0x01 [0x41, 0x44]) = true
    ∧ repliesOf (rtdState 0 [lostPut] [] []).env (lostReadEv 0x01 2 none) = true
    ∧ repliesOf (rtdState 0 [taken] [lostGet [1, 2]] []).env (lostReadEv 0x01 2 (some [1, 2])) = true
    ∧ repliesOf (rtdState 0 [taken] [] []).env (writeEv 0x03 [1, 2] .ok) = true
    ∧ repliesOf (rtdState 0 [lostPut] [] []).env (writeEv 0x03 [1, 2] .fail) = true := by decide

theorem witness_RtdInitWritesConfig :
    repliesOf (rtdState 0 [taken, taken] [given [0x00]] []).env
      (readEv 0x00 [0x00] ++ writeEv 0x00 [if true then 0x81 else 0x80] .ok) = true
    ∧ repliesOf (rtdState 0 [lostPut, lostPut] [] []).env
      (lostReadEv 0x00 1 none ++ writeEv 0x00 [if false then 0x81 else 0x80] .fail) = true := by decide

/-- A state for `RTD.READ1` with `OS_POLL_MAX = 2`. -/
def twoTests (ctrl : Word) (txs : List PutReply) (rxs : List GetReply) (levels : List Bool) : State :=
  (rtdState ctrl txs rxs levels).withRegs { (rtdState ctrl txs rxs levels).regs with osPollMax := 2 }

@[simp] theorem twoTests_ctrl (c : Word) (txs : List PutReply) (rxs : List GetReply) (levels : List Bool) :
    (twoTests c txs rxs levels).regs.ctrl = c := rfl

theorem test_not_ready_line (txs : List PutReply) (rxs : List GetReply) (levels : List Bool) :
    notReadyTest (twoTests 4 txs rxs levels) [.drdy true] ∧ isReadyTest (twoTests 4 txs rxs levels) [.drdy false] := by
  constructor
  · simp [notReadyTest]
  · simp [isReadyTest]

theorem test_not_ready_poll (txs : List PutReply) (rxs : List GetReply) (levels : List Bool) :
    notReadyTest (twoTests 0 txs rxs levels) (readEv 0x00 [0xA1])
    ∧ isReadyTest (twoTests 0 txs rxs levels) (readEv 0x00 [0x81]) := by
  constructor
  · rw [notReadyTest, twoTests_ctrl, if_neg (by decide)]
    exact ⟨0xA1, rfl, by decide⟩
  · rw [isReadyTest, twoTests_ctrl, if_neg (by decide)]
    exact ⟨0x81, rfl, by decide⟩

theorem witness_OneShotReading_data :
    [[Event.drdy true]].length < (twoTests 4 [] [] []).regs.osPollBound
    ∧ repliesOf
        (twoTests 4 [taken, taken, taken] [given [0xC1], given [0x41, 0x44]] [true, false]).env
        (readEv 0x00 [0xC1] ++ writeEv 0x00 [0xC1 ||| 0x20] .ok ++ spaced 1 ([[.drdy true]] ++ [[.drdy false]])
          ++ readEv 0x01 [0x41, 0x44]) = true := by decide

theorem witness_OneShotReading_lost_data :
    repliesOf
      (twoTests 0 [taken, taken, taken, taken, taken]
        [given [0x81], given [0xA1], given [0x81], lostGet [0, 0]] []).env
      (readEv 0x00 [0x81] ++ writeEv 0x00 [0x81 ||| 0x20] .ok
        ++ spaced 1 ([readEv 0x00 [0xA1]] ++ [readEv 0x00 [0x81]]) ++ lostReadEv 0x01 2 (some [0, 0])) = true := by
  decide

theorem witness_OneShotReading_timeout :
    [[Event.drdy true], [Event.drdy true]].length = (twoTests 4 [] [] []).regs.osPollBound
    ∧ repliesOf (twoTests 4 [taken, taken] [given [0x81]] [true, true]).env
        (readEv 0x00 [0x81] ++ writeEv 0x00 [0x81 ||| 0x20] .ok ++ spaced 1 [[.drdy true], [.drdy true]]) = true := by
  decide

theorem witness_OneShotReading_lost_poll :
    [readEv 0x00 [0xA1]].length < (twoTests 0 [] [] []).regs.osPollBound
    ∧ (twoTests 0 [] [] []).regs.ctrl.getLsbD 2 = false
    ∧ repliesOf
        (twoTests 0 [taken, taken, taken, lostPut] [given [0x81], given [0xA1]] []).env
        (readEv 0x00 [0x81] ++ writeEv 0x00 [0x81 ||| 0x20] .ok
          ++ spaced 1 ([readEv 0x00 [0xA1]] ++ [lostReadEv 0x00 1 none])) = true := by decide

theorem witness_OneShotReading_lost_start :
    repliesOf (twoTests 0 [taken, lostPut] [given [0x81]] []).env
      (readEv 0x00 [0x81] ++ writeEv 0x00 [0x81 ||| 0x20] .fail) = true
    ∧ repliesOf (twoTests 0 [lostPut] [] []).env (lostReadEv 0x00 1 none) = true := by decide

theorem witness_OneShotWaitIsBounded :
    exec .rtdRead1 (twoTests 4 [taken, taken] [given [0x81]] [true, true])
      = .next (after .rtdRead1 (twoTests 4 [taken, taken] [given [0x81]] [true, true])) := rfl

theorem witness_ContinuousModeSwitch :
    repliesOf (rtdState 0 [taken, taken] [given [0x81]] []).env
      (readEv 0x00 [0x81] ++ writeEv 0x00 [0x81 ||| 0x40] .ok) = true
    ∧ repliesOf (rtdState 0 [taken, lostPut] [given [0xFF]] []).env
      (readEv 0x00 [0xFF] ++ writeEv 0x00 [0xFF &&& 0xBF] .fail) = true
    ∧ repliesOf (rtdState 0 [taken] [lostGet [7]] []).env (lostReadEv 0x00 1 (some [7])) = true := by decide

theorem witness_TemperatureReading :
    repliesOf (rtdState 0 [taken] [given [0x3B, 0x89]] []).env (readEv 0x01 [0x3B, 0x89]) = true
    ∧ repliesOf (rtdState 0 [lostPut] [] []).env (lostReadEv 0x01 2 none) = true := by decide

theorem witness_ThresholdWrites :
    (rtdState 0 [taken] [] []).params.t2c 102400 = (0x52 : Byte) ++ (0x74 : Byte)
    ∧ repliesOf (rtdState 0 [taken] [] []).env (writeEv 0x03 [0x52, 0x74] .ok) = true
    ∧ repliesOf (rtdState 0 [lostPut] [] []).env (writeEv 0x05 [0x52, 0x74] .fail) = true := by decide +kernel

theorem witness_ThresholdReads :
    repliesOf (rtdState 0 [taken] [given [0x52, 0x75]] []).env (readEv 0x03 [0x52, 0x75]) = true
    ∧ repliesOf (rtdState 0 [taken] [given [0x00, 0x00]] []).env (readEv 0x05 [0x00, 0x00]) = true
    ∧ repliesOf (rtdState 0 [lostPut] [] []).env (lostReadEv 0x03 2 none) = true
    ∧ repliesOf (rtdState 0 [taken] [lostGet [0, 0]] []).env (lostReadEv 0x05 2 (some [0, 0])) = true := by decide

theorem witness_ThresholdReadsBack :
    (rtdState 0 [taken, taken] [held] []).env.txQ = taken :: taken :: []
    ∧ (rtdState 0 [taken, taken] [held] []).env.rxQ = held :: [] := by decide

/-! Fault detection. -/

/-- A state for the fault cycles with `FD_POLL_MAX` as given. -/
def polls (n : Word) (s : State) : State := s.withRegs { s.regs with fdPollMax := n }

theorem test_polled_fin (s : State) (h : 2 ≤ s.regs.fdPollBound) :
    fdPolled s .fin 2 (spaced s.regs.pollMs ([readEv 0x00 [0x85]] ++ [readEv 0x00 [0x81]])) :=
  ⟨[0x85], by decide, rfl, h, 0x81, by decide, rfl⟩

theorem test_polled_stuck (s : State) (h : s.regs.fdPollBound = 2) :
    fdPolled s .stuck 2 (spaced s.regs.pollMs [readEv 0x00 [0x85], readEv 0x00 [0x89]]) :=
  ⟨[0x85, 0x89], by decide, rfl, h.symm, rfl⟩

theorem test_polled_stuck_at_once (s : State) (h : s.regs.fdPollBound = 0) :
    fdPolled s .stuck 0 (spaced s.regs.pollMs []) :=
  ⟨[], by simp, rfl, h.symm, rfl⟩

theorem test_polled_abort (s : State) (h : 1 ≤ s.regs.fdPollBound) :
    fdPolled s .abort 1 (spaced s.regs.pollMs ([] ++ [lostReadEv 0x00 1 none])) :=
  ⟨[], by simp, rfl, h, none, rfl⟩

theorem witness_FaultPollLoop :
    (polls 2 (rtdState 0 [] [] [])).regs.fdPollBound = 2 ∧ (polls 0 (rtdState 0 [] [] [])).regs.fdPollBound = 0
    ∧ repliesOf (polls 2 (rtdState 0 [taken, taken] [given [0x85], given [0x81]] [])).env
      (spaced 1 ([readEv 0x00 [0x85]] ++ [readEv 0x00 [0x81]])) = true
    ∧ repliesOf (polls 2 (rtdState 0 [taken, taken] [given [0x85], given [0x89]] [])).env
      (spaced 1 [readEv 0x00 [0x85], readEv 0x00 [0x89]]) = true
    ∧ repliesOf (polls 0 (rtdState 0 [] [] [])).env (spaced 1 []) = true
    ∧ repliesOf (polls 2 (rtdState 0 [lostPut] [] [])).env (spaced 1 ([] ++ [lostReadEv 0x00 1 none])) = true := by
  decide

theorem witness_FaultCycleTail :
    repliesOf (rtdState 0 [taken] [] []).env (tailEv (rtdState 0 [taken] [] []) 0xC1 .fin .ok) = true
    ∧ repliesOf (rtdState 0 [lostPut] [] []).env (tailEv (rtdState 0 [lostPut] [] []) 0xC1 .stuck .fail) = true
    ∧ repliesOf (rtdState 0 [taken] [] []).env (tailEv (rtdState 0 [taken] [] []) 0xC1 .abort .ok) = true := by decide

theorem witness_AutomaticCycle :
    (rtdState 0 [] [] []).regs.fdArmed = false
    ∧ repliesOf
        (polls 2 (rtdState 0 [taken, taken, taken, taken, taken] [given [0xC1], given [0x85], given [0x81]] [])).env
        (readEv 0x00 [0xC1] ++ writeEv 0x00 [((0xC1 ||| 0x80) &&& 0x91) ||| 0x04] .ok
          ++ spaced 1 ([readEv 0x00 [0x85]] ++ [readEv 0x00 [0x81]])
          ++ tailEv (rtdState 0 [] [] []) 0xC1 .fin .ok) = true
    ∧ repliesOf
        (polls 2 (rtdState 0 [taken, taken, taken, taken, lostPut] [given [0xC1], given [0x85], given [0x89]] [])).env
        (readEv 0x00 [0xC1] ++ writeEv 0x00 [((0xC1 ||| 0x80) &&& 0x91) ||| 0x04] .ok
          ++ spaced 1 [readEv 0x00 [0x85], readEv 0x00 [0x89]]
          ++ tailEv (rtdState 0 [] [] []) 0xC1 .stuck .fail) = true
    ∧ repliesOf (rtdState 0 [taken, lostPut, taken] [given [0xC1]] []).env
        (readEv 0x00 [0xC1] ++ writeEv 0x00 [((0xC1 ||| 0x80) &&& 0x91) ||| 0x04] .fail ++ writeEv 0x00 [0xC1] .ok)
        = true
    ∧ repliesOf (rtdState 0 [lostPut] [] []).env (lostReadEv 0x00 1 none) = true := by decide

theorem witness_ManualCycleStart :
    (rtdState 0 [] [] []).regs.fdArmed = false
    ∧ repliesOf (rtdState 0 [taken, taken] [given [0xD3]] []).env
        (readEv 0x00 [0xD3] ++ writeEv 0x00 [((0xD3 ||| 0x80) &&& 0x91) ||| 0x08] .ok) = true
    ∧ repliesOf (rtdState 0 [taken, lostPut] [given [0xD3]] []).env
        (readEv 0x00 [0xD3] ++ writeEv 0x00 [((0xD3 ||| 0x80) &&& 0x91) ||| 0x08] .fail) = true
    ∧ repliesOf (rtdState 0 [lostPut] [] []).env (lostReadEv 0x00 1 none) = true := by decide

theorem witness_ManualCycleEnd :
    (armed 0xD3 (rtdState 0 [] [] [])).regs.fdArmed = true
    ∧ repliesOf (polls 2 (armed 0xD3 (rtdState 0 [taken, taken, taken, taken] [given [0x85], given [0x81]] []))).env
        (writeEv 0x00 [((0xD3 ||| 0x80) &&& 0x91) ||| 0x0C] .ok
          ++ spaced 1 ([readEv 0x00 [0x85]] ++ [readEv 0x00 [0x81]])
          ++ tailEv (rtdState 0 [] [] []) 0xD3 .fin .ok) = true
    ∧ repliesOf (armed 0xD3 (rtdState 0 [lostPut, taken] [] [])).env
        (writeEv 0x00 [((0xD3 ||| 0x80) &&& 0x91) ||| 0x0C] .fail ++ writeEv 0x00 [0xD3] .ok) = true := by decide

theorem witness_OutOfOrderCyclesRefused :
    (armed 0xD3 State.reset).regs.fdArmed = true ∧ State.reset.regs.fdArmed = false := by decide

theorem witness_FaultReport :
    (0x81 : Byte) &&& 0x0C = 0 ∧ (0x85 : Byte) &&& 0x0C ≠ 0
    ∧ repliesOf (rtdState 0 [taken, taken, lostPut] [given [0x81], given [0x80]] []).env
        (readEv 0x00 [0x81] ++ readEv 0x07 [0x80] ++ writeEv 0x00 [0x81 ||| 0x02] .fail) = true
    ∧ repliesOf (rtdState 0 [taken, taken] [given [0x81], lostGet [0]] []).env
        (readEv 0x00 [0x81] ++ lostReadEv 0x07 1 (some [0])) = true
    ∧ repliesOf (rtdState 0 [taken] [given [0x85]] []).env (readEv 0x00 [0x85]) = true
    ∧ repliesOf (rtdState 0 [lostPut] [] []).env (lostReadEv 0x00 1 none) = true := by decide

theorem witness_FaultStateTransitions :
    cycleReady.regs.fdArmed = (cycleReady.regs.fdState == .running)
    ∧ exec .fdAuto cycleReady = .next (after .fdAuto cycleReady)
    ∧ (armed 0xD3 State.reset).regs.fdArmed = ((armed 0xD3 State.reset).regs.fdState == .running)
    ∧ exec .fdAuto (armed 0xD3 State.reset) = .next (after .fdAuto (armed 0xD3 State.reset)) :=
  ⟨rfl, rfl, rfl, rfl⟩

theorem witness_MicroStepsAgreeWithCommand : 2 * State.reset.regs.fdPollBound + 6 ≤ 206 := by decide

/-! The NVM side. `once s` is `s` with `BLK_ATTEMPT_MAX = 1`. -/

/-- The state with one attempt for every NVM primitive. -/
def once (s : State) : State := s.withRegs { s.regs with blkAttemptMax := 1 }

theorem test_put_done (s : State) (a : Nat) (v : List Byte) (h : 0 < s.regs.attemptBound) :
    putDone s a v [putEv s a v .ok] := ⟨[], by simp [lostAttempts], h, rfl⟩

theorem test_put_lost (s : State) (a : Nat) (v : List Byte) (h : 1 = s.regs.attemptBound) :
    putLost s a v [putEv s a v .fail] :=
  .inr ⟨[], _, by simp [lostAttempts], rfl, .inl ⟨h, rfl⟩⟩

theorem test_get_done (s : State) (a : Nat) (b : List Byte) (h : 0 < s.regs.attemptBound) :
    getDone s a b [getEv s a b.length b .ok] := ⟨[], by simp [lostAttempts], h, rfl⟩

theorem test_get_lost (s : State) (a n : Nat) (b : List Byte) (h : 1 = s.regs.attemptBound) :
    getLost s a n [getEv s a n b .fail] :=
  .inr ⟨[], _, by simp [lostAttempts], ⟨b, rfl⟩, .inl ⟨h, rfl⟩⟩

theorem test_put_done_retried (s : State) (a : Nat) (v : List Byte) (h : 1 < s.regs.attemptBound)
    (g : 1 < s.regs.readyBound) :
    putDone s a v ([putEv s a v .fail] ++ readyAfter s 1 ++ [putEv s a v .ok]) :=
  ⟨[(putEv s a v .fail, 1)], by simpa [lostAttempts] using g, h, by simp [attemptsEv]⟩

theorem test_bounds (s : State) : (once s).regs.attemptBound = 1 := rfl

theorem witness_RetryPrimitives :
    1 < State.reset.regs.readyBound ∧ 1 < State.reset.regs.attemptBound
    ∧ repliesOf (nvmState [] [] [false, true]).env (readyAfter (nvmState [] [] []) 1) = true
    ∧ repliesOf (nvmState [] [] [false, false, false, false, false]).env (neverReady (nvmState [] [] [])) = true
    ∧ repliesOf (nvmState [lostPut, taken] [] [false, true]).env
        ([putEv State.reset 8 [1, 2] .fail] ++ readyAfter State.reset 1 ++ [putEv State.reset 8 [1, 2] .ok]) = true
    ∧ repliesOf (once (nvmState [lostPut] [] [])).env [putEv State.reset 8 [1, 2] .fail] = true
    ∧ repliesOf (nvmState [] [given [1, 2]] []).env [getEv State.reset 8 2 [1, 2] .ok] = true
    ∧ repliesOf (once (nvmState [] [lostGet [1, 2]] [])).env [getEv State.reset 8 2 [1, 2] .fail] = true := by decide

theorem test_pieces : pieces 128 127 [1, 2] = [(127, [1]), (128, [2])] := by decide

theorem witness_SpanningWrite :
    1 ≤ State.reset.params.pageLen
    ∧ repliesOf (nvmState [taken, taken] [] [true]).env
        ([putEv State.reset 127 [1] .ok] ++ (readyAfter State.reset 0 ++ [putEv State.reset 128 [2] .ok])) = true
    ∧ spanDone (nvmState [taken, taken] [] [true]) (pieces 128 127 [1, 2])
        ([putEv State.reset 127 [1] .ok] ++ (readyAfter State.reset 0 ++ [putEv State.reset 128 [2] .ok]))
    ∧ repliesOf (once (nvmState [lostPut] [] [])).env [putEv State.reset 127 [1] .fail] = true
    ∧ spanLost (once (nvmState [lostPut] [] [])) (pieces 128 127 [1, 2]) [putEv State.reset 127 [1] .fail] := by
  refine ⟨by decide, by decide, ?_, by decide, ?_⟩
  · rw [test_pieces]
    exact ⟨_, 0, _, test_put_done _ _ _ (by decide), by decide, test_put_done _ _ _ (by decide), rfl⟩
  · rw [test_pieces]
    exact .inl (test_put_lost _ _ _ rfl)

theorem witness_ChunksPartitionRegion : (1 ≤ 1 ∧ 1 ≤ 128) ∧ pieces 128 0 [7] = (0, [7]) :: [] := by decide

theorem test_pieces_top : pieces 128 4294967295 (List.replicate 1 0xFF) = [(4294967295, [0xFF])] := by decide +kernel

theorem witness_RegionErase :
    1 ≤ State.reset.params.pageLen ∧ 4294967295 + 1 ≤ 4294967296
    ∧ repliesOf (nvmState [taken] [] []).env [putEv State.reset 4294967295 [0xFF] .ok] = true
    ∧ spanDone (nvmState [taken] [] []) (pieces 128 4294967295 (List.replicate 1 0xFF))
        [putEv State.reset 4294967295 [0xFF] .ok]
    ∧ repliesOf (once (nvmState [lostPut] [] [])).env [putEv State.reset 4294967295 [0xFF] .fail] = true
    ∧ spanLost (once (nvmState [lostPut] [] [])) (pieces 128 4294967295 (List.replicate 1 0xFF))
        [putEv State.reset 4294967295 [0xFF] .fail] := by
  refine ⟨by decide, by decide, by decide, ?_, by decide, ?_⟩
  · rw [test_pieces_top]; exact test_put_done _ _ _ (by decide)
  · rw [test_pieces_top]; exact .inl (test_put_lost _ _ _ rfl)

/-- The three header writes of `LOG.INIT 0`, each answered as given. -/
def initEv (a b c : Status) : List (List Event) :=
  [[putEv State.reset 0 [0, 0, 0, 0, 0, 0, 0, 0] a], [putEv State.reset 8 [0x00, 0x00] b],
    [putEv State.reset 10 [0x23, 0xA4] c]]

theorem witness_LogFormat :
    12 ≤ State.reset.params.pageLen ∧ (0 : Data) = (0 : Byte) ++ (0 : Byte) ++ (0 : Byte) ++ (0 : Byte) ++ (0 : Byte)
      ++ (0 : Byte) ++ (0 : Byte) ++ (0 : Byte)
    ∧ ((0x23 : Byte) ++ (0xA4 : Byte) : Half).toNat = State.reset.params.pageLen * State.reset.params.freePages / 7
    ∧ repliesOf (nvmState [taken, taken, taken] [] []).env (initEv .ok .ok .ok).flatten = true
    ∧ repliesOf (once (nvmState [lostPut] [] [])).env ((initEv .fail .ok .ok).take 1).flatten = true
    ∧ repliesOf (once (nvmState [taken, lostPut] [] [])).env ((initEv .ok .fail .ok).take 2).flatten = true
    ∧ repliesOf (once (nvmState [taken, taken, lostPut] [] [])).env (initEv .ok .ok .fail).flatten = true := by
  decide +kernel

/-- The two header reads with a counter and a capacity. -/
def headEv (a b c d : Byte) : List Event := [getEv State.reset 8 2 [a, b] .ok] ++ [getEv State.reset 10 2 [c, d] .ok]

theorem test_pieces_record : pieces 128 (128 + 7 * 1) [7, 1, 0x2C, 0, 0, 0x64, 2] = [(135, [7, 1, 0x2C, 0, 0, 0x64, 2])] := by
  decide

theorem witness_LogAppendRecord :
    12 ≤ State.reset.params.pageLen ∧ ((0x00 : Byte) ++ (0x01 : Byte) : Half).toNat ≠ 0xFFFF
    ∧ ((0xFF : Byte) ++ (0xFE : Byte) : Half).toNat ≠ 0xFFFF
    ∧ ((0x00 : Byte) ++ (0x02 : Byte) : Half) = ((0x00 : Byte) ++ (0x01 : Byte) : Half) + 1
    ∧ repliesOf (once (nvmState [] [lostGet [0, 0]] [])).env [getEv State.reset 8 2 [0, 0] .fail] = true
    ∧ repliesOf (once (nvmState [] [given [0, 1], lostGet [0, 0]] [])).env
        ([getEv State.reset 8 2 [0, 1] .ok] ++ [getEv State.reset 10 2 [0, 0] .fail]) = true
    ∧ repliesOf (once (nvmState [lostPut] [given [0, 1], given [0x23, 0xA4]] [])).env
        (headEv 0 1 0x23 0xA4 ++ [putEv State.reset 135 [7, 1, 0x2C, 0, 0, 0x64, 2] .fail]) = true
    ∧ repliesOf (once (nvmState [taken, lostPut] [given [0, 1], given [0x23, 0xA4]] [])).env
        (headEv 0 1 0x23 0xA4 ++ [putEv State.reset 135 [7, 1, 0x2C, 0, 0, 0x64, 2] .ok]
          ++ [putEv State.reset 8 [0, 2] .fail]) = true
    ∧ repliesOf (nvmState [taken, taken] [given [0, 1], given [0, 2]] []).env
        (headEv 0 1 0 2 ++ [putEv State.reset 135 [7, 1, 0x2C, 0, 0, 0x64, 2] .ok]
          ++ [putEv State.reset 8 [0, 2] .ok]) = true
    ∧ spanDone (nvmState [taken, taken] [given [0, 1], given [0, 2]] [])
        (pieces 128 (128 + 7 * 1) [7, 1, 0x2C, 0, 0, 0x64, 2])
        [putEv State.reset 135 [7, 1, 0x2C, 0, 0, 0x64, 2] .ok] := by
  refine ⟨by decide, by decide, by decide, by decide, by decide, by decide, by decide, by decide, by decide, ?_⟩
  rw [test_pieces_record]
  exact test_put_done _ _ _ (by decide)

theorem witness_LogGetRecord :
    repliesOf (once (nvmState [] [lostGet [0, 0]] [])).env [getEv State.reset 8 2 [0, 0] .fail] = true
    ∧ repliesOf (once (nvmState [] [given [0, 1], lostGet [0, 0]] [])).env
        ([getEv State.reset 8 2 [0, 1] .ok] ++ [getEv State.reset 10 2 [0, 0] .fail]) = true
    ∧ repliesOf (nvmState [] [given [0, 0], given [0x23, 0xA4]] []).env (headEv 0 0 0x23 0xA4) = true
    ∧ ((0 : Byte) ++ (0 : Byte) : Half).toNat = 0
    ∧ repliesOf (nvmState [] [given [0, 1], given [0, 2]] []).env (headEv 0 1 0 2) = true
    ∧ ((0 : Byte) ++ (1 : Byte) : Half).toNat ≠ 0
    -- index 2 at capacity 2, index 1 at counter 1 below it, counter above capacity, index 0 readable
    ∧ ((0 : Byte) ++ (2 : Byte) : Half).toNat ≤ 2 ∧ 1 < ((0 : Byte) ++ (2 : Byte) : Half).toNat
    ∧ ((0 : Byte) ++ (1 : Byte) : Half).toNat ≤ ((0 : Byte) ++ (2 : Byte) : Half).toNat
    ∧ ((0 : Byte) ++ (1 : Byte) : Half).toNat ≤ 1
    ∧ ((0 : Byte) ++ (4 : Byte) : Half).toNat < ((0 : Byte) ++ (5 : Byte) : Half).toNat
    ∧ 0 < ((0 : Byte) ++ (1 : Byte) : Half).toNat
    ∧ repliesOf (once (nvmState [] [given [0, 1], given [0, 2], lostGet [1, 2, 3, 4, 5, 6, 7]] [])).env
        (headEv 0 1 0 2 ++ [getEv State.reset 128 7 [1, 2, 3, 4, 5, 6, 7] .fail]) = true
    ∧ repliesOf (nvmState [] [given [0, 1], given [0, 2], given [1, 2, 3, 4, 5, 6, 7]] []).env
        (headEv 0 1 0 2 ++ [getEv State.reset 128 7 [1, 2, 3, 4, 5, 6, 7] .ok]) = true := by decide

theorem witness_HeaderAccessors :
    repliesOf (nvmState [] [given [0, 1]] []).env [getEv State.reset 8 2 [0, 1] .ok] = true
    ∧ repliesOf (nvmState [] [given [0x23, 0xA4]] []).env [getEv State.reset 10 2 [0x23, 0xA4] .ok] = true
    ∧ repliesOf (nvmState [] [given [1, 2, 3, 4, 5, 6, 7, 8]] []).env
        [getEv State.reset 0 8 [1, 2, 3, 4, 5, 6, 7, 8] .ok] = true
    ∧ repliesOf (once (nvmState [] [lostGet [0, 1]] [])).env [getEv State.reset 8 2 [0, 1] .fail] = true
    ∧ repliesOf (once (nvmState [] [lostGet [0, 1]] [])).env [getEv State.reset 10 2 [0, 1] .fail] = true
    ∧ repliesOf (once (nvmState [] [lostGet [1, 2, 3, 4, 5, 6, 7, 8]] [])).env
        [getEv State.reset 0 8 [1, 2, 3, 4, 5, 6, 7, 8] .fail] = true := by decide

/-- A log whose header is known, at counter 18, on an NVM that stores what is written. -/
def heldLog : State :=
  { nvmState [taken, taken, taken] [held, held, held, held, held] [true] with
    env := { (nvmState [taken, taken, taken] [held, held, held, held, held] [true]).env with
      nvm := [(8, 0x00), (9, 0x12), (10, 0x23), (11, 0xA4)] } }

theorem witness_AppendThenGet :
    12 ≤ heldLog.params.pageLen ∧ 1 ≤ heldLog.regs.attemptBound ∧ 1 ≤ heldLog.regs.readyBound
    ∧ heldLog.env.blkWriteQ = taken :: taken :: taken :: [] ∧ heldLog.env.blkReadyQ = true :: []
    ∧ heldLog.env.blkReadQ = held :: held :: held :: held :: held :: [] ∧ heldCounter heldLog < heldCapacity heldLog := by
  decide

theorem witness_FormatThenReadHeader :
    12 ≤ State.reset.params.pageLen ∧ State.reset.params.pageLen * State.reset.params.freePages / 7 ≤ 65535
    ∧ 1 ≤ State.reset.regs.attemptBound
    ∧ (nvmState [taken, taken, taken] [held, held, held] []).env.blkWriteQ = taken :: taken :: taken :: []
    ∧ (nvmState [taken, taken, taken] [held, held, held] []).env.blkReadQ = held :: held :: held :: [] := by
  decide +kernel

end Sys2Proof.Tests
end

section
/-!
Proofs about the state (`10_state.md`): what every command leaves of the registers and of the devices, the invariant
between commands, the reset values, `FD_STATUS` and the step. The invariant is proved in three parts: an event that
fits its device keeps the device's memory canonical (`EventFits.apply`), every command performs such events only
and leaves the registers as its unit may (`exec_cases`), and a step commits all of a command's events or, where reset
cuts it, some of them (`commit_invariant`).
-/

namespace Sys2Proof.Machine

/-! ## Events and the devices' memories -/

/-- What a transfer stores lies inside its device: the eight RTD registers (R45), the 32-bit NVM (R51). -/
def EventFits (e : Event) : Prop :=
  match e with
  | .tx (a :: payload) _ => a.getLsbD 7 = true → (a.setWidth 7).toNat + payload.length ≤ 8
  | .blkWrite _ a bytes _ _ => a + bytes.length ≤ 4294967296
  | _ => True

/-- The memory clauses of the invariant (R27). -/
structure DevicesCanonical (v : Env) : Prop where
  rtdWf : v.rtdRegs.wf = true
  rtdBelow : below 8 v.rtdRegs = true
  nvmWf : v.nvm.wf = true
  nvmBelow : below 4294967296 v.nvm = true

theorem DevicesCanonical.of_same_memories {v v' : Env} (h : DevicesCanonical v) (hr : v'.rtdRegs = v.rtdRegs)
    (hn : v'.nvm = v.nvm) : DevicesCanonical v' := by
  obtain ⟨h1, h2, h3, h4⟩ := h
  exact ⟨hr ▸ h1, hr ▸ h2, hn ▸ h3, hn ▸ h4⟩

theorem DevicesCanonical.deviceTx {v : Env} (h : DevicesCanonical v) (bytes : List Byte) (st : Status) (r : PutReply)
    (hf : EventFits (.tx bytes st)) : DevicesCanonical (v.deviceTx bytes r) := by
  cases bytes with
  | nil => exact h
  | cons a payload =>
    by_cases ha : a.getLsbD 7 = true
    · simp only [Env.deviceTx, ha, if_true]
      exact { h with
        rtdWf := Memory.wf_store _ _ _ _ _ h.rtdWf
        rtdBelow := below_store _ _ _ _ _ _ h.rtdBelow (hf ha) }
    · exact h.of_same_memories (by rw [Env.deviceTx, if_neg ha]) (by simp)

theorem DevicesCanonical.blkWrite {v : Env} (h : DevicesCanonical v) (a : Nat) (bytes : List Byte)
    (hf : a + bytes.length ≤ 4294967296) : DevicesCanonical (v.blkWrite a bytes).2 := by
  have h1 : DevicesCanonical v.takeBlkWrite.2 := h.of_same_memories (by simp) (by simp)
  exact { h1 with
    nvmWf := Memory.wf_store _ _ _ _ _ h1.nvmWf
    nvmBelow := below_store _ _ _ _ _ _ h1.nvmBelow hf }

theorem EventFits.apply {e : Event} (hf : EventFits e) {v : Env} (h : DevicesCanonical v) :
    DevicesCanonical (v.apply e) := by
  cases e with
  | tx bytes st =>
    have h1 : DevicesCanonical v.takeTx.2 := h.of_same_memories (by simp) (by simp)
    exact h1.deviceTx bytes st _ hf
  | blkWrite dev a bytes ms st => exact h.blkWrite a bytes hf
  | rx n bytes st => exact h.of_same_memories (env_rx_rtdRegs v n) (env_rx_nvm v n)
  | drdy level => exact h.of_same_memories (takeDrdy_rtdRegs v) (takeDrdy_nvm v)
  | blkRead dev a n ms bytes st => exact h.of_same_memories (env_blkRead_rtdRegs v a n) (env_blkRead_nvm v a n)
  | blkReady dev bit => exact h.of_same_memories (takeBlkReady_rtdRegs v) (takeBlkReady_nvm v)
  | sel | desel | delay ms | notify c mask => exact h

theorem DevicesCanonical.replay {es : List Event} (hf : ∀ e ∈ es, EventFits e) {v : Env} (h : DevicesCanonical v) :
    DevicesCanonical (v.replay es) := by
  induction es generalizing v with
  | nil => exact h
  | cons e es ih =>
    obtain ⟨hhead, htail⟩ := List.forall_mem_cons.mp hf
    exact ih htail (hhead.apply h)

/-- Every write an RTD command may make stays inside the register map `0x00` to `0x07` (R45). -/
theorem allowedWrites_fit {i : Instr} {a : Byte} {n : Nat} (h : (a, n) ∈ allowedWrites i) :
    ((a ||| writeFlag).setWidth 7).toNat + n ≤ 8 := by
  have rows : (a, n) = (addrConfig, 1) ∨ (a, n) = (addrHigh, 2) ∨ (a, n) = (addrLow, 2) := by
    cases i <;> simp_all [allowedWrites]
  rcases rows with e | e | e <;> obtain ⟨rfl, rfl⟩ := Prod.mk.inj e <;> decide

theorem eventFits_txRead {a : Byte} (ha : a.getLsbD 7 = false) (st : Status) : EventFits (.tx [a] st) :=
  fun hflag => absurd (ha.symm.trans hflag) (by decide)

theorem RtdItem.fits {i : Instr} {es : List Event} (h : RtdItem (allowedWrites i) es) : ∀ e ∈ es, EventFits e := by
  cases h <;> simp only [List.forall_mem_cons, List.not_mem_nil, false_implies, implies_true, and_true]
  case readRefused a ha => exact ⟨trivial, eventFits_txRead ha _, trivial⟩
  case read a n b st ha => exact ⟨trivial, eventFits_txRead ha _, trivial, trivial⟩
  case write a b st hw => exact ⟨trivial, fun _ => allowedWrites_fit hw, trivial⟩
  case delay | drdy => trivial

theorem admissible_pageLen_le {p : Params} (h : admissible p = true) : p.pageLen ≤ 65535 := by
  simp only [admissible, Bool.and_eq_true, decide_eq_true_eq] at h
  omega

/-- The region a log command may write lies in the 32-bit address space (R51, R191). -/
theorem allowedRegion_fits {i : Instr} {s : State} {a n : Nat} (hp : admissible s.params = true)
    (h : allowedRegion i s a n) : a + n ≤ 4294967296 := by
  have hpage := admissible_pageLen_le hp
  cases i <;> simp only [allowedRegion, within, recordAddr] at h
  case logInit ts => omega
  case logAppend id deltaT payload =>
    rcases h with ⟨-, h⟩ | ⟨cnt, cap, -, hcnt, -, h⟩ <;> omega
  case logErase start length => omega

theorem NvmEvent.fits {i : Instr} {s : State} {r : Nat → Nat → Prop} {e : Event} (hp : admissible s.params = true)
    (h : NvmEvent r (allowedPuts i s) e) : EventFits e := by
  cases e with
  | blkWrite dev a bytes ms st => exact allowedRegion_fits hp h.1
  | tx bytes st => exact h.elim
  | sel | desel | rx | drdy | delay | blkRead | blkReady | notify => trivial

/-! ## What a command leaves -/

/-- From `s` to `t` a command performs the events `es` and gives one response (R56, R72); the parameters and the host's
side of the port are kept. -/
structure Answered (s t : State) (es : List Event) : Prop where
  params : t.params = s.params
  env : t.env = s.env.replay es
  program : t.program = s.program
  pc : t.pc = s.pc
  resets : t.resets = s.resets
  responses : ∃ r, t.responses = s.responses ++ [r]
  trace : t.trace = s.trace ++ es

theorem Moves.answered_respond {s s1 : State} {es : List Event} (m : Moves s s1 es) (ok : Bool) (d : Data) :
    Answered s (respond ok d s1) es where
  params := m.params
  env := m.env
  program := m.program
  pc := m.pc
  resets := m.resets
  responses := ⟨_, by rw [respond_responses, m.responses]⟩
  trace := m.trace

/-- A command's end adds at most a notification, which reaches no device (R213). -/
theorem Moves.answered_finish {s s1 : State} {es : List Event} (m : Moves s s1 es) (c : Comp) (err : Half) (ok : Bool)
    (d : Data) : ∃ due, Answered s (finish c err ok d s1) (es ++ due) ∧ ∀ e ∈ due, EventFits e := by
  obtain ⟨due, mdue, -, hdue⟩ := notifyIfDue_spec c err s1
  refine ⟨due, (m.trans mdue).answered_respond ok d, ?_⟩
  rcases hdue with rfl | ⟨rfl, -⟩ <;> simp [EventFits]

/-- What a command may do to the registers, by its unit (R40). -/
def RegsMoved (i : Instr) (r r' : Regs) : Prop :=
  match partOf i with
  | .csr => QuietRegs i r r'
  | .converter => QuietRegs i r r'
  | .rtd => csrPart r' = csrPart r ∧ (r.cs = false → r'.cs = false) ∧ FdMoved i r r'
  | .log => r' = r

/-- What every command does in every state, with the registers and the events it leaves. -/
def ExecDone (i : Instr) (s t : State) : Prop :=
  ∃ es, Answered s t es ∧ RegsMoved i s.regs t.regs ∧ (admissible s.params = true → ∀ e ∈ es, EventFits e)

theorem exec_done_of_quiet {i : Instr} (s : State) (h : partOf i = .csr ∨ partOf i = .converter) :
    ∃ t, exec i s = .next t ∧ ExecDone i s t := by
  obtain ⟨ok, d, r, e, hr⟩ := exec_quiet i s h
  refine ⟨_, e, [], (Moves.withRegs s r).answered_respond ok d, ?_, by simp⟩
  rcases h with h | h <;> simpa [RegsMoved, h] using hr

theorem exec_done_of_rtd {i : Instr} (s : State) (h : partOf i = .rtd) : ∃ t, exec i s = .next t ∧ ExecDone i s t := by
  obtain ⟨err, ok, d, s1, e, ⟨items, hitems, m, -, hcsr, hcs⟩, -, hfd⟩ := exec_rtd_done i s h
  obtain ⟨due, ans, hdue⟩ := m.answered_finish .rtd err ok d
  refine ⟨_, e, _, ans, by simpa [RegsMoved, h] using ⟨hcsr, hcs, hfd⟩, fun _ ev hev => ?_⟩
  rcases List.mem_append.mp hev with hev | hev
  · obtain ⟨item, hmem, hev⟩ := List.mem_flatten.mp hev
    exact (hitems item hmem).fits ev hev
  · exact hdue ev hev

theorem exec_done_of_log {i : Instr} (s : State) (h : partOf i = .log) : ∃ t, exec i s = .next t ∧ ExecDone i s t := by
  obtain ⟨err, ok, d, s1, e, ⟨es, hes, m, -, hregs⟩, -⟩ := exec_log_done i s h
  obtain ⟨due, ans, hdue⟩ := m.answered_finish .log err ok d
  refine ⟨_, e, _, ans, by simpa [RegsMoved, h] using hregs, fun hp ev hev => ?_⟩
  rcases List.mem_append.mp hev with hev | hev
  · exact (hes ev hev).fits hp
  · exact hdue ev hev

/-- Every command answers in every state (R215). -/
theorem exec_next (i : Instr) (s : State) : ∃ t, exec i s = .next t ∧ ExecDone i s t := by
  cases h : partOf i with
  | csr => exact exec_done_of_quiet s (.inl h)
  | converter => exact exec_done_of_quiet s (.inr h)
  | rtd => exact exec_done_of_rtd s h
  | log => exact exec_done_of_log s h

theorem exec_cases {i : Instr} {s t : State} (h : exec i s = .next t) : ExecDone i s t := by
  obtain ⟨t', e, hdone⟩ := exec_next i s
  obtain rfl := Host.Outcome.next.inj (e.symm.trans h)
  exact hdone

/-! ## The register clauses of the invariant -/

/-- The register clauses of the invariant (R12, R141, R44). -/
structure RegsConsistent (r : Regs) : Prop where
  clean : csrsClean r = true
  armed : r.fdArmed = true ↔ r.fdState = .running
  cs : r.cs = false

theorem invariant_iff (s : State) : invariant s = true ↔ RegsConsistent s.regs ∧ DevicesCanonical s.env := by
  have armed : (s.regs.fdArmed == (s.regs.fdState == .running)) = true
      ↔ (s.regs.fdArmed = true ↔ s.regs.fdState = .running) := by
    rw [beq_iff_eq, Bool.eq_iff_iff, beq_iff_eq]
  simp only [invariant, Bool.and_eq_true, armed, Bool.not_eq_true']
  constructor
  · rintro ⟨⟨⟨⟨⟨⟨h1, h2⟩, h3⟩, h4⟩, h5⟩, h6⟩, h7⟩
    exact ⟨⟨h1, h2, h3⟩, ⟨h4, h5, h6, h7⟩⟩
  · rintro ⟨⟨h1, h2, h3⟩, ⟨h4, h5, h6, h7⟩⟩
    exact ⟨⟨⟨⟨⟨⟨h1, h2⟩, h3⟩, h4⟩, h5⟩, h6⟩, h7⟩

theorem csrsClean_iff (r : Regs) : csrsClean r = true ↔ ∀ row ∈ csrRows, row.get r &&& ~~~row.mask = 0 := by
  simp [csrsClean]

/-- A row's register stands in `csrPart` at the row's address. -/
theorem csrPart_getElem?_addr {row : CsrRow} (h : row ∈ csrRows) (r : Regs) :
    (csrPart r)[row.addr.toNat]? = some (row.get r) := by
  simp only [csrRows, List.mem_cons, List.not_mem_nil, or_false] at h
  rcases h with rfl | rfl | rfl | rfl | rfl | rfl | rfl | rfl <;> rfl

theorem csrRow_get_congr {row : CsrRow} (h : row ∈ csrRows) {r r' : Regs} (he : csrPart r' = csrPart r) :
    row.get r' = row.get r := by
  rw [← Option.some_inj, ← csrPart_getElem?_addr h, ← csrPart_getElem?_addr h, he]

theorem csrsClean_congr {r r' : Regs} (he : csrPart r' = csrPart r) (h : csrsClean r = true) :
    csrsClean r' = true := by
  rw [csrsClean_iff] at h ⊢
  intro row hrow
  rw [csrRow_get_congr hrow he]
  exact h row hrow

theorem masked_reserved (v m : Word) : v &&& m &&& ~~~m = 0 := by
  simp [BitVec.and_assoc]

/-- A 16-bit parameter in a CSR leaves the reserved half 0. -/
theorem setWidth_reserved (h : Half) : h.setWidth 32 &&& ~~~0x0000FFFF#32 = 0 := by
  have low : h.setWidth 32 = 0#16 ++ h := BitVec.setWidth_eq_append (by decide)
  have high : ~~~0x0000FFFF#32 = 0xFFFF#16 ++ 0#16 := by decide
  rw [low, high, BitVec.and_append]
  simp

theorem csrRow_mask {row : CsrRow} (h : row ∈ csrRows) {c : Csr} (he : row.addr = csrAddr c) :
    row.mask = csrWmask c := by
  have hc : csrAt row.addr = some c := by rw [he, csrAt_addr]
  simp only [csrRows, List.mem_cons, List.not_mem_nil, or_false] at h
  rcases h with rfl | rfl | rfl | rfl | rfl | rfl | rfl | rfl <;> obtain rfl := Option.some.inj hc <;> rfl

/-- A store replaces the register at the CSR's address; `FD_STATUS`, at `0x08`, has none. -/
theorem csrPart_csrStore (c : Csr) (v : Word) (r : Regs) :
    csrPart (csrStore c v r) = (csrPart r).set (csrAddr c).toNat (v &&& csrWmask c) := by
  cases c <;> rfl

theorem csrRow_get_csrStore_same {row : CsrRow} (h : row ∈ csrRows) {c : Csr} (he : row.addr = csrAddr c) (v : Word)
    (r : Regs) : row.get (csrStore c v r) = v &&& row.mask := by
  obtain ⟨hlt, -⟩ := List.getElem?_eq_some_iff.mp (csrPart_getElem?_addr h r)
  rw [← Option.some_inj, ← csrPart_getElem?_addr h, csrPart_csrStore, ← he, List.getElem?_set_self hlt,
    csrRow_mask h he]

theorem csrRow_get_csrStore_other {row : CsrRow} (h : row ∈ csrRows) {c : Csr} (hne : row.addr ≠ csrAddr c) (v : Word)
    (r : Regs) : row.get (csrStore c v r) = row.get r := by
  have hidx : (csrAddr c).toNat ≠ row.addr.toNat := fun e => hne (BitVec.eq_of_toNat_eq e.symm)
  rw [← Option.some_inj, ← csrPart_getElem?_addr h, ← csrPart_getElem?_addr h, csrPart_csrStore,
    List.getElem?_set_ne hidx]

/-- A store to a CSR clears its reserved bits and keeps those of the others. -/
theorem csrsClean_csrStore {r : Regs} (h : csrsClean r = true) (c : Csr) (v : Word) :
    csrsClean (csrStore c v r) = true := by
  rw [csrsClean_iff] at h ⊢
  intro row hrow
  by_cases hadr : row.addr = csrAddr c
  · rw [csrRow_get_csrStore_same hrow hadr, masked_reserved]
  · rw [csrRow_get_csrStore_other hrow hadr]
    exact h row hrow

@[simp] theorem csrStore_cs (c : Csr) (v : Word) (r : Regs) : (csrStore c v r).cs = r.cs := by cases c <;> rfl

@[simp] theorem csrStore_fdState (c : Csr) (v : Word) (r : Regs) : (csrStore c v r).fdState = r.fdState := by
  cases c <;> rfl

@[simp] theorem csrStore_fdArmed (c : Csr) (v : Word) (r : Regs) : (csrStore c v r).fdArmed = r.fdArmed := by
  cases c <;> rfl

@[simp] theorem csrStore_fdSaved (c : Csr) (v : Word) (r : Regs) : (csrStore c v r).fdSaved = r.fdSaved := by
  cases c <;> rfl

@[simp] theorem csrStore_fdPolls (c : Csr) (v : Word) (r : Regs) : (csrStore c v r).fdPolls = r.fdPolls := by
  cases c <;> rfl

theorem fdPart_eq_iff (r r' : Regs) : fdPart r' = fdPart r ↔
    r'.fdState = r.fdState ∧ r'.fdArmed = r.fdArmed ∧ r'.fdSaved = r.fdSaved ∧ r'.fdPolls = r.fdPolls := by
  simp [fdPart]

theorem cycleEnd.ne_running {f : FdState} (h : cycleEnd f) : f ≠ .running := by
  rcases h with rfl | rfl | rfl <;> decide

/-- A fault-detection command arms exactly where it leaves `RUNNING` (R141). -/
theorem FdMoved.armed_iff_running {i : Instr} {r r' : Regs} (h : FdMoved i r r')
    (hr : r.fdArmed = true ↔ r.fdState = .running) : r'.fdArmed = true ↔ r'.fdState = .running := by
  have kept : fdPart r' = fdPart r → (r'.fdArmed = true ↔ r'.fdState = .running) := by
    rw [fdPart_eq_iff]
    rintro ⟨hstate, harmed, -⟩
    rw [hstate, harmed, hr]
  cases i
  case fdAuto =>
    obtain h | ⟨-, harmed, hend⟩ := h
    · exact kept h
    · simp [harmed, hend.ne_running]
  case fdMstart =>
    obtain h | ⟨-, harmed, hrun, -⟩ := h
    · exact kept h
    · simp [harmed, hrun]
  case fdMend =>
    obtain ⟨-, h⟩ | ⟨-, harmed, -, hend⟩ := h
    · exact kept h
    · simp [harmed, hend.ne_running]
  all_goals exact kept h

theorem QuietRegs.consistent {i : Instr} {r r' : Regs} (h : QuietRegs i r r') (hr : RegsConsistent r) :
    RegsConsistent r' := by
  obtain rfl | ⟨c, v, x, -, rfl, -⟩ := h
  · exact hr
  · exact ⟨csrsClean_csrStore hr.clean c x, by simpa using hr.armed, by simpa using hr.cs⟩

theorem RegsMoved.consistent {i : Instr} {r r' : Regs} (h : RegsMoved i r r') (hr : RegsConsistent r) :
    RegsConsistent r' := by
  unfold RegsMoved at h
  split at h
  · exact h.consistent hr
  · exact h.consistent hr
  · obtain ⟨hcsr, hcs, hfd⟩ := h
    exact ⟨csrsClean_congr hcsr hr.clean, hfd.armed_iff_running hr.armed, hcs hr.cs⟩
  · exact h ▸ hr

theorem regsConsistent_reset (p : Params) : RegsConsistent (Regs.reset p) where
  clean := by
    simp only [csrsClean_iff, csrRows, Regs.reset, List.forall_mem_cons, List.not_mem_nil, false_implies, implies_true,
      and_true]
    exact ⟨by decide, by decide, by decide, setWidth_reserved _, by decide, setWidth_reserved _, setWidth_reserved _,
      setWidth_reserved _⟩
  armed := by simp [Regs.reset]
  cs := rfl

/-! ## The step -/

theorem Answered.newEvents {s t : State} {es : List Event} (h : Answered s t es) : newEvents s t = es := by
  simp [Machine.newEvents, h.trace]

/-- A reset input, whenever it comes, leaves the invariant to the devices' memories. -/
theorem hardReset_invariant {s : State} (h : DevicesCanonical s.env) : invariant (hardReset s) = true :=
  (invariant_iff _).mpr ⟨regsConsistent_reset s.params, h⟩

/-- A command whose events fit leaves the invariant and the parameters, whole or cut at any event. -/
theorem commit_invariant {s t : State} {es : List Event} (ha : Answered s t es) (hf : ∀ e ∈ es, EventFits e)
    (hd : DevicesCanonical s.env) (hr : RegsConsistent t.regs) :
    invariant (commit s t) = true ∧ (commit s t).params = s.params := by
  have hwhole : DevicesCanonical t.env := ha.env ▸ hd.replay hf
  unfold commit
  split
  · exact ⟨(invariant_iff _).mpr ⟨hr, hwhole⟩, ha.params⟩
  · next k _ =>
    split
    · exact ⟨hardReset_invariant hwhole, ha.params⟩
    · have hcut : DevicesCanonical (s.env.replay (es.take k)) := hd.replay fun e he => hf e (List.mem_of_mem_take he)
      rw [cutShort, ha.newEvents]
      exact ⟨hardReset_invariant (s := performed (es.take k) s) hcut, rfl⟩

theorem idle_invariant {s : State} (h : invariant s = true) :
    invariant (idle s) = true ∧ (idle s).params = s.params := by
  unfold idle
  split
  · exact ⟨h, rfl⟩
  · exact ⟨hardReset_invariant ((invariant_iff s).mp h).2, rfl⟩

/-- What a step can do (R10, R76, R237). -/
theorem step_cases {s t : State} (h : step s = .next t) :
    (nextCommand s = none ∧ t = idle s)
      ∨ (∃ w e, nextCommand s = some w ∧ decode w = .error e ∧ t = commit s (refuse s))
      ∨ ∃ w i u, nextCommand s = some w ∧ decode w = .ok i ∧ exec i s = .next u ∧ t = commit s u := by
  unfold step at h
  split at h
  · next hn => exact .inl ⟨hn, (Host.Outcome.next.inj h).symm⟩
  · next w hn =>
    split at h
    · next e he => exact .inr (.inl ⟨w, e, hn, he, (Host.Outcome.next.inj h).symm⟩)
    · next i hi =>
      obtain ⟨u, hu, -⟩ := exec_next i s
      rw [hu] at h
      exact .inr (.inr ⟨w, i, u, hn, hi, hu, (Host.Outcome.next.inj h).symm⟩)

/-- Settles O12: the invariant splits into registers and devices; every command keeps the first and performs only
events that keep the second. -/
theorem stepKeepsInvariant : Obligations.StepKeepsInvariant := by
  intro s t hp hinv hstep
  obtain ⟨hregs, hdev⟩ := (invariant_iff s).mp hinv
  obtain ⟨-, rfl⟩ | ⟨w, e, -, -, rfl⟩ | ⟨w, i, u, -, -, hexec, rfl⟩ := step_cases hstep
  · exact idle_invariant hinv
  · exact commit_invariant ((Moves.refl s).answered_respond false 0) (by simp) hdev hregs
  · obtain ⟨es, hans, hmoved, hfit⟩ := exec_cases hexec
    exact commit_invariant hans (hfit hp) hdev (hmoved.consistent hregs)

/-! ## The frame of the registers -/

/-- The frame of the registers for a command that takes them from `r` to `r'`. -/
def RegsFramed (i : Instr) (r r' : Regs) : Prop :=
  (∀ row ∈ csrRows, (∀ v, i ≠ .csrw row.addr v ∧ i ≠ .csrs row.addr v ∧ i ≠ .csrc row.addr v) →
      row.get r' = row.get r)
    ∧ (i ≠ .fdAuto → i ≠ .fdMstart → i ≠ .fdMend → r'.fdState = r.fdState)
    ∧ (i ≠ .fdMstart → i ≠ .fdMend → r'.fdArmed = r.fdArmed)
    ∧ (i ≠ .fdAuto → i ≠ .fdMstart → r'.fdSaved = r.fdSaved)
    ∧ (i ≠ .fdAuto → i ≠ .fdMend → r'.fdPolls = r.fdPolls)
    ∧ (partOf i ≠ .rtd → r'.cs = r.cs)

theorem RegsFramed.refl (i : Instr) (r : Regs) : RegsFramed i r r := by simp [RegsFramed]

theorem QuietRegs.framed {i : Instr} {r r' : Regs} (h : QuietRegs i r r') : RegsFramed i r r' := by
  obtain rfl | ⟨c, v, x, -, rfl, hi⟩ := h
  · exact RegsFramed.refl i r'
  · refine ⟨fun row hrow hnot => csrRow_get_csrStore_other hrow (fun hadr => ?_) x r, by simp⟩
    obtain ⟨hw, hs, hc⟩ := hnot v
    rw [hadr] at hw hs hc
    rcases hi with rfl | rfl | rfl <;> contradiction

/-- The clauses about `FD_STATE`, `FD_ARMED`, `FD_SAVED`, `FD_POLLS` for every RTD command. -/
theorem FdMoved.framed {i : Instr} {r r' : Regs} (h : FdMoved i r r') :
    (i ≠ .fdAuto → i ≠ .fdMstart → i ≠ .fdMend → r'.fdState = r.fdState)
      ∧ (i ≠ .fdMstart → i ≠ .fdMend → r'.fdArmed = r.fdArmed)
      ∧ (i ≠ .fdAuto → i ≠ .fdMstart → r'.fdSaved = r.fdSaved)
      ∧ (i ≠ .fdAuto → i ≠ .fdMend → r'.fdPolls = r.fdPolls) := by
  cases i <;> simp only [FdMoved, fdPart_eq_iff] at h
  case fdAuto =>
    obtain ⟨-, harmed, -⟩ | ⟨h0, h1, -⟩ := h
    · simp [harmed]
    · simp [h0, h1]
  case fdMstart =>
    obtain ⟨-, -, -, hpolls⟩ | ⟨-, -, -, hpolls⟩ := h <;> simp [hpolls]
  case fdMend =>
    obtain ⟨-, -, -, hsaved, -⟩ | ⟨-, -, hsaved, -⟩ := h <;> simp [hsaved]
  all_goals simp [h]

theorem RegsMoved.framed {i : Instr} {r r' : Regs} (h : RegsMoved i r r') : RegsFramed i r r' := by
  unfold RegsMoved at h
  split at h
  · exact h.framed
  · exact h.framed
  · next hpart =>
    obtain ⟨hcsr, -, hfd⟩ := h
    obtain ⟨h1, h2, h3, h4⟩ := hfd.framed
    exact ⟨fun row hrow _ => csrRow_get_congr hrow hcsr, h1, h2, h3, h4, fun hne => absurd hpart hne⟩
  · exact h ▸ RegsFramed.refl i r

/-- Settles O20: by the unit of the command, from what its unit may do to the registers. -/
theorem registerFrame : Obligations.RegisterFrame := by
  intro i s t h
  obtain ⟨es, -, hmoved, -⟩ := exec_cases h
  exact hmoved.framed

/-! ## `FD_STATUS` -/

theorem fdStatusValue_state (r : Regs) : (fdStatusValue r).extractLsb' 0 2 = fdStateCode r.fdState :=
  BitVec.extractLsb'_append_eq_right

theorem fdStatusValue_armed (r : Regs) : (fdStatusValue r).getLsbD 2 = r.fdArmed := by
  unfold fdStatusValue
  rw [BitVec.getLsbD_append, if_neg (by decide), BitVec.getLsbD_append, if_pos (by decide)]
  simp

theorem fdStatusValue_reserved (r : Regs) : (fdStatusValue r).extractLsb' 3 5 = 0 := by
  unfold fdStatusValue
  rw [BitVec.extractLsb'_append_eq_of_le (by decide), BitVec.extractLsb'_append_eq_of_le (by decide)]
  exact BitVec.extractLsb'_append_eq_right

theorem fdStatusValue_saved (r : Regs) : (fdStatusValue r).extractLsb' 8 8 = r.fdSaved := by
  unfold fdStatusValue
  rw [BitVec.extractLsb'_append_eq_of_le (by decide), BitVec.extractLsb'_append_eq_of_le (by decide),
    BitVec.extractLsb'_append_eq_of_le (by decide)]
  exact BitVec.extractLsb'_append_eq_right

theorem fdStatusValue_polls (r : Regs) : (fdStatusValue r).extractLsb' 16 16 = r.fdPolls := by
  unfold fdStatusValue
  rw [BitVec.extractLsb'_append_eq_of_le (by decide), BitVec.extractLsb'_append_eq_of_le (by decide),
    BitVec.extractLsb'_append_eq_of_le (by decide)]
  exact BitVec.extractLsb'_append_eq_left

theorem fdStatusValue_reset (p : Params) : fdStatusValue (Regs.reset p) = 0 := by
  simp only [fdStatusValue, Regs.reset, fdStateCode]
  decide

theorem exec_csrr_fdStatus (s : State) :
    exec (.csrr 0x08) s = .next (ended s [] s.regs true ((fdStatusValue s.regs).setWidth 64)) := by
  rw [ended_nil, withRegs_same]
  rfl

/-- A write to the read-only `FD_STATUS` is refused (R25, R92). -/
theorem csrUpdate_fdStatus (f : Word → Word) (s : State) : csrUpdate 0x08 f s = ended s [] s.regs false 0 := by
  rw [ended_nil, withRegs_same]
  rfl

/-- Settles O26, field by field of the composed value. -/
theorem fdStatusLayout : Obligations.FdStatusLayout := by
  refine ⟨fun s => ⟨fdStatusValue s.regs, exec_csrr_fdStatus s, ?_, fdStatusValue_armed _, fdStatusValue_reserved _,
    fdStatusValue_saved _, fdStatusValue_polls _⟩, fun s => ?_, fun v s => ?_⟩
  · rw [fdStatusValue_state]
    cases s.regs.fdState <;> rfl
  · rw [exec_csrr_fdStatus, hardReset_regs, fdStatusValue_reset]
    rfl
  · exact ⟨congrArg Host.Outcome.next (csrUpdate_fdStatus _ s), congrArg Host.Outcome.next (csrUpdate_fdStatus _ s),
      congrArg Host.Outcome.next (csrUpdate_fdStatus _ s)⟩

/-! ## The step's command -/

theorem step_of_decode {s t : State} {w : Command} {i : Instr} (hn : nextCommand s = some w) (hd : decode w = .ok i)
    (he : exec i s = .next t) : step s = .next (commit s t) := by
  simp only [step, hn, hd, he]

theorem commit_of_no_reset {s : State} (t : State) (h : resetInput s = none) : commit s t = advance t := by
  simp only [commit, h]

theorem tableWord_toNat (w : Command) : tableWord 72 w.toNat = w := by
  rw [tableWord, Nat.mod_eq_of_lt w.isLt, BitVec.ofNat_toNat, BitVec.setWidth_eq]

theorem nextCommand_placeCommand (w : Command) (s : State) : nextCommand (placeCommand w s) = some w := by
  have hlen : (s.program.take s.pc ++ List.replicate (s.pc - s.program.length) 0).length = s.pc := by
    simp only [List.length_append, List.length_take, List.length_replicate]
    omega
  rw [nextCommand, placeCommand, List.getElem?_append_right hlen.le, hlen, Nat.sub_self]
  rfl

/-- Settles O6: every command answers and keeps the host's index and reset script, which the step then moves on. -/
theorem stepRunsDecodedCommand : Obligations.StepRunsDecodedCommand := by
  refine ⟨fun s w i hn hd hr => ?_, fun s i _ => ?_⟩
  · obtain ⟨t, he, es, hans, -⟩ := exec_next i s
    refine ⟨t, he, ?_⟩
    rw [step_of_decode hn hd he, commit_of_no_reset t hr, advance, hans.pc, hans.resets]
  · rw [State.withFetchWord, tableWord_toNat]
    exact nextCommand_placeCommand _ s

/-! ## Reset -/

/-- Settles O8: the registers of `Regs.reset` are those of the table of R33, and reset writes no other field. -/
theorem resetValues : Obligations.ResetValues :=
  fun s => ⟨rfl, fdStatusValue_reset s.params, rfl⟩

theorem devicesCanonical_unknown : DevicesCanonical Env.unknown := ⟨rfl, rfl, rfl, rfl⟩

/-- Settles O13: the reset registers are consistent, and of the devices nothing is known. -/
theorem resetStateMeetsInvariant : Obligations.ResetStateMeetsInvariant :=
  ⟨fun p => (invariant_iff _).mpr ⟨regsConsistent_reset p, devicesCanonical_unknown⟩, by decide, by decide⟩

end Sys2Proof.Machine
end

section
/-!
Proofs about the two devices and the trace (`20_memory.md`). What a command performs is said once: its events are
those its unit may perform (`CommandEvent`), they carry the environment's replies and they are bracketed
(`exec_ran`). A step adds all of a command's events to the trace or, where reset cuts it, the first of them
(`step_events`). Each statement is then about one event: a property it has (R51, R54), or a byte of its device it leaves
alone (`SparesRegister`, `SparesByte`).
-/

namespace Sys2Proof.Machine

/-! ## The events of a command -/

/-- What the RTD unit does on its side, event by event: the address byte of a read, a write to one of the registers of
`w` with that many bytes, and what reaches no device register. The counterpart of `NvmEvent`. -/
def RtdEvent (w : List (Byte × Nat)) (e : Event) : Prop :=
  match e with
  | .sel | .desel | .rx _ _ _ | .drdy _ | .delay _ => True
  | .tx bytes _ =>
    (∃ a, bytes = [a] ∧ a.getLsbD 7 = false)
      ∨ ∃ a payload, bytes = (a ||| writeFlag) :: payload ∧ (a, payload.length) ∈ w
  | .blkWrite _ _ _ _ _ | .blkRead _ _ _ _ _ _ | .blkReady _ _ | .notify _ _ => False

/-- What a command may perform: the events of its own unit and a notification (R40, R213). -/
def CommandEvent (i : Instr) (s : State) (e : Event) : Prop :=
  match partOf i with
  | .csr => False
  | .converter => False
  | .rtd => RtdEvent (allowedWrites i) e ∨ isNotify e = true
  | .log => NvmEvent (allowedReads i s.params) (allowedPuts i s) e ∨ isNotify e = true

theorem RtdItem.events {w : List (Byte × Nat)} {es : List Event} (h : RtdItem w es) : ∀ e ∈ es, RtdEvent w e := by
  cases h <;> simp only [List.forall_mem_cons, List.not_mem_nil, false_implies, implies_true, and_true]
  case readRefused a ha => exact ⟨trivial, .inl ⟨a, rfl, ha⟩, trivial⟩
  case read a n b st ha => exact ⟨trivial, .inl ⟨a, rfl, ha⟩, trivial, trivial⟩
  case write a b st hw => exact ⟨trivial, .inr ⟨a, b, rfl, hw⟩, trivial⟩
  case delay | drdy => trivial

theorem RtdEvent.isRtdSide {w : List (Byte × Nat)} {e : Event} (h : RtdEvent w e) : isRtdSide e = true := by
  cases e with
  | sel | desel | tx | rx | drdy | delay => rfl
  | blkWrite | blkRead | blkReady | notify => exact h.elim

theorem NvmEvent.isNvmSide {r : Nat → Nat → Prop} {w : Nat → List Byte → Prop} {e : Event} (h : NvmEvent r w e) :
    isNvmSide e = true := by
  cases e with
  | blkWrite | blkRead | blkReady => rfl
  | sel | desel | tx | rx | drdy | delay | notify => exact h.elim

/-- Only the RTD unit performs a `Tx`. -/
theorem CommandEvent.rtdEvent_of_tx {i : Instr} {s : State} {bytes : List Byte} {st : Status}
    (h : CommandEvent i s (.tx bytes st)) : RtdEvent (allowedWrites i) (.tx bytes st) := by
  cases hpart : partOf i <;> simp only [CommandEvent, hpart, NvmEvent, isNotify, Bool.false_eq_true, or_false] at h
  exact h

/-- Only the log unit performs a `BlkWrite`. -/
theorem CommandEvent.allowedPuts {i : Instr} {s : State} {dev a ms : Nat} {bytes : List Byte} {st : Status}
    (h : CommandEvent i s (.blkWrite dev a bytes ms st)) : allowedPuts i s a bytes := by
  cases hpart : partOf i <;>
    simp only [CommandEvent, hpart, RtdEvent, NvmEvent, isNotify, Bool.false_eq_true, or_false] at h
  exact h

/-- Only the log unit performs a `BlkRead`. -/
theorem CommandEvent.allowedReads {i : Instr} {s : State} {dev a n ms : Nat} {bytes : List Byte} {st : Status}
    (h : CommandEvent i s (.blkRead dev a n ms bytes st)) : allowedReads i s.params a n := by
  cases hpart : partOf i <;>
    simp only [CommandEvent, hpart, RtdEvent, NvmEvent, isNotify, Bool.false_eq_true, or_false] at h
  obtain ⟨hread, -⟩ := h
  exact hread

/-! ## Brackets -/

/-- A list that leaves the line deasserted may be followed by any list that starts with it deasserted (R44). -/
theorem bracketed_append {opened : Bool} {es : List Event} (h : bracketed opened es = true) (fs : List Event) :
    bracketed opened (es ++ fs) = bracketed false fs := by
  induction es generalizing opened with
  | nil =>
    obtain rfl : opened = false := by simpa [bracketed] using h
    rfl
  | cons e es ih =>
    cases e <;> simp only [bracketed, Bool.and_eq_true] at h <;> obtain ⟨hopened, hrest⟩ := h <;>
      simp only [List.cons_append, bracketed, hopened, ih hrest, Bool.true_and]

theorem RtdItem.bracketed {w : List (Byte × Nat)} {es : List Event} (h : RtdItem w es) :
    bracketed false es = true := by
  cases h <;> rfl

theorem bracketed_flatten {w : List (Byte × Nat)} {items : List (List Event)} (h : ∀ x ∈ items, RtdItem w x) :
    bracketed false items.flatten = true := by
  induction items with
  | nil => rfl
  | cons x xs ih =>
    obtain ⟨hx, hxs⟩ := List.forall_mem_cons.mp h
    rw [List.flatten_cons, bracketed_append hx.bracketed]
    exact ih hxs

/-- Events of the log unit may stand wherever the line is deasserted. -/
theorem bracketed_of_nvm {r : Nat → Nat → Prop} {w : Nat → List Byte → Prop} {es : List Event}
    (h : ∀ e ∈ es, NvmEvent r w e) : bracketed false es = true := by
  induction es with
  | nil => rfl
  | cons e es ih =>
    obtain ⟨he, hes⟩ := List.forall_mem_cons.mp h
    cases e with
    | blkWrite | blkRead | blkReady => exact ih hes
    | sel | desel | tx | rx | drdy | delay | notify => exact he.elim

/-! ## What a command performs -/

/-- From `s` to `t` the command performs the events `es`, which are its unit's, answered by the environment (R57) and
bracketed (R44). -/
structure CommandRan (i : Instr) (s t : State) (es : List Event) : Prop where
  answered : Answered s t es
  events : ∀ e ∈ es, CommandEvent i s e
  replies : repliesOf s.env es = true
  bracketed : bracketed false es = true

/-- A command's end keeps replies and brackets and adds at most a notification (R213). -/
theorem Moves.ran_finish {i : Instr} {s s1 : State} {es : List Event} (m : Moves s s1 es) (c : Comp) (err : Half)
    (ok : Bool) (d : Data) (hr : repliesOf s.env es = true) (hb : bracketed false es = true)
    (he : ∀ e, e ∈ es ∨ isNotify e = true → CommandEvent i s e) :
    ∃ fs, CommandRan i s (finish c err ok d s1) fs := by
  obtain ⟨due, mdue, -, hdue⟩ := notifyIfDue_spec c err s1
  refine ⟨es ++ due, (m.trans mdue).answered_respond ok d, fun e hmem => he e ?_, ?_, ?_⟩
  · rcases hdue with rfl | ⟨rfl, -⟩
    · simpa using Or.inl hmem
    · rcases List.mem_append.mp hmem with hmem | hmem
      · exact .inl hmem
      · rw [List.mem_singleton.mp hmem]
        exact .inr rfl
  · rw [repliesOf_append, hr]
    rcases hdue with rfl | ⟨rfl, -⟩ <;> rfl
  · rw [bracketed_append hb]
    rcases hdue with rfl | ⟨rfl, -⟩ <;> rfl

theorem exec_ran_of_quiet {i : Instr} (s : State) (h : partOf i = .csr ∨ partOf i = .converter) :
    ∃ t es, exec i s = .next t ∧ CommandRan i s t es := by
  obtain ⟨ok, d, r, e, -⟩ := exec_quiet i s h
  exact ⟨_, [], e, (Moves.withRegs s r).answered_respond ok d, by simp, rfl, rfl⟩

theorem exec_ran_of_rtd {i : Instr} (s : State) (h : partOf i = .rtd) :
    ∃ t es, exec i s = .next t ∧ CommandRan i s t es := by
  obtain ⟨err, ok, d, s1, e, ⟨items, hitems, m, hreplies, -⟩, -⟩ := exec_rtd_done i s h
  have hown : ∀ ev, ev ∈ items.flatten ∨ isNotify ev = true → CommandEvent i s ev := by
    intro ev hev
    simp only [CommandEvent, h]
    refine hev.imp_left fun hev => ?_
    obtain ⟨item, hmem, hev⟩ := List.mem_flatten.mp hev
    exact (hitems item hmem).events ev hev
  obtain ⟨es, hran⟩ := m.ran_finish .rtd err ok d hreplies (bracketed_flatten hitems) hown
  exact ⟨_, es, e, hran⟩

theorem exec_ran_of_log {i : Instr} (s : State) (h : partOf i = .log) :
    ∃ t es, exec i s = .next t ∧ CommandRan i s t es := by
  obtain ⟨err, ok, d, s1, e, ⟨es, hes, m, hreplies, -⟩, -⟩ := exec_log_done i s h
  have hown : ∀ ev, ev ∈ es ∨ isNotify ev = true → CommandEvent i s ev := by
    intro ev hev
    simp only [CommandEvent, h]
    exact hev.imp_left (hes ev)
  obtain ⟨fs, hran⟩ := m.ran_finish .log err ok d hreplies (bracketed_of_nvm hes) hown
  exact ⟨_, fs, e, hran⟩

theorem exec_ran {i : Instr} {s t : State} (h : exec i s = .next t) : ∃ es, CommandRan i s t es := by
  have total : ∃ t es, exec i s = .next t ∧ CommandRan i s t es := by
    cases hpart : partOf i with
    | csr => exact exec_ran_of_quiet s (.inl hpart)
    | converter => exact exec_ran_of_quiet s (.inr hpart)
    | rtd => exact exec_ran_of_rtd s hpart
    | log => exact exec_ran_of_log s hpart
  obtain ⟨t', es, e, hran⟩ := total
  obtain rfl := Host.Outcome.next.inj (e.symm.trans h)
  exact ⟨es, hran⟩

/-- Settles O14: the events of `exec_ran` stand at the end of the trace, with the environment's replies. -/
theorem traceAccountsForEnvironment : Obligations.TraceAccountsForEnvironment := by
  intro i s t h
  obtain ⟨es, hran⟩ := exec_ran h
  exact ⟨es, hran.answered.trace, hran.replies, hran.answered.env⟩

/-- The chip-select is deasserted after a command that found it so (R44). -/
theorem RegsMoved.cs_deasserted {i : Instr} {r r' : Regs} (h : RegsMoved i r r') (hcs : r.cs = false) :
    r'.cs = false := by
  by_cases hpart : partOf i = .rtd
  · simp only [RegsMoved, hpart] at h
    obtain ⟨-, hkeep, -⟩ := h
    exact hkeep hcs
  · obtain ⟨-, -, -, -, -, hkeep⟩ := h.framed
    rw [hkeep hpart, hcs]

/-- Settles O17: whole items bracket their transfers, and nothing else asserts the line. -/
theorem transactionsAreBracketed : Obligations.TransactionsAreBracketed := by
  intro i s t hcs h
  obtain ⟨es, hran⟩ := exec_ran h
  obtain ⟨-, -, hmoved, -⟩ := exec_cases h
  exact ⟨es, hran.answered.trace, hran.bracketed, hmoved.cs_deasserted hcs⟩

/-- Settles O18: by the unit of the command, from the events that unit may perform. -/
theorem oneUnitPerCommand : Obligations.OneUnitPerCommand := by
  intro i s t h
  obtain ⟨es, hran⟩ := exec_ran h
  refine ⟨es, hran.answered.trace, ?_⟩
  have hown := hran.events
  cases hpart : partOf i <;> simp only [CommandEvent, hpart] at hown
  case csr | converter => exact List.eq_nil_iff_forall_not_mem.mpr hown
  case rtd => exact fun e he => (hown e he).imp_left RtdEvent.isRtdSide
  case log => exact fun e he => (hown e he).imp_left NvmEvent.isNvmSide

/-! ## The trace after a step -/

/-- A committed command adds its events to the trace, all of them or, where reset cuts it, the first ones (R241). -/
theorem Answered.commit_trace {s t : State} {es : List Event} (h : Answered s t es) :
    (commit s t).params = s.params ∧ ∃ fs, (commit s t).trace = s.trace ++ fs ∧ fs ⊆ es := by
  unfold commit
  split
  · exact ⟨h.params, es, h.trace, List.Subset.refl es⟩
  · next k _ =>
    split
    · exact ⟨h.params, es, h.trace, List.Subset.refl es⟩
    · rw [cutShort, h.newEvents]
      exact ⟨rfl, es.take k, rfl, List.take_subset k es⟩

theorem idle_trace (s : State) : (idle s).params = s.params ∧ (idle s).trace = s.trace := by
  unfold idle
  split <;> exact ⟨rfl, rfl⟩

/-- A step keeps the parameters and adds to the trace events of one command only. -/
theorem step_events {s t : State} (h : step s = .next t) :
    t.params = s.params ∧ ∃ fs, t.trace = s.trace ++ fs ∧ ∀ e ∈ fs, ∃ i, CommandEvent i s e := by
  obtain ⟨-, rfl⟩ | ⟨w, e, -, -, rfl⟩ | ⟨w, i, u, -, -, hexec, rfl⟩ := step_cases h
  · obtain ⟨hparams, htrace⟩ := idle_trace s
    exact ⟨hparams, [], by simpa using htrace, by simp⟩
  · have refused : Answered s (refuse s) [] := (Moves.refl s).answered_respond false 0
    obtain ⟨hparams, fs, htrace, hsub⟩ := refused.commit_trace
    exact ⟨hparams, fs, htrace, fun e he => absurd (hsub he) List.not_mem_nil⟩
  · obtain ⟨es, hran⟩ := exec_ran hexec
    obtain ⟨hparams, fs, htrace, hsub⟩ := hran.answered.commit_trace
    exact ⟨hparams, fs, htrace, fun e he => ⟨i, hran.events e (hsub he)⟩⟩

/-- A property of every event a command may perform is kept of the whole trace by every step. -/
theorem step_trace_all {s t : State} {p : Event → Bool} (hstep : step s = .next t)
    (hevent : ∀ i e, CommandEvent i s e → p e = true) (htrace : s.trace.all p = true) : t.trace.all p = true := by
  obtain ⟨-, fs, e, hfs⟩ := step_events hstep
  rw [e, List.all_append, htrace, Bool.true_and, List.all_eq_true]
  intro ev hev
  obtain ⟨i, hown⟩ := hfs ev hev
  exact hevent i ev hown

/-- The chunks of the paged writer stay within their pages (R174); no other event is a `BlkWrite`. -/
theorem CommandEvent.withinPage {i : Instr} {s : State} {e : Event} (h : CommandEvent i s e)
    (hp : 1 ≤ s.params.pageLen) : withinPage s.params.pageLen e = true := by
  cases e with
  | blkWrite dev a bytes ms st =>
    obtain ⟨-, hpage⟩ := h.allowedPuts
    exact decide_eq_true (hpage hp)
  | sel | desel | tx | rx | drdy | delay | blkRead | blkReady | notify => rfl

/-- Settles O15: every write is a chunk of `WriteSpanning`, and a step adds no other. -/
theorem writesStayWithinPages : Obligations.WritesStayWithinPages := by
  intro s t hp htrace hstep
  obtain ⟨hparams, -⟩ := step_events hstep
  rw [hparams]
  exact step_trace_all hstep (fun i e he => he.withinPage hp) htrace

/-- The header and every record `LOG.GET` reads lie in the 32-bit address space (R51, R191). -/
theorem allowedReads_fit {i : Instr} {p : Params} {a n : Nat} (hp : admissible p = true) (h : allowedReads i p a n) :
    a + n ≤ 4294967296 := by
  have hpage := admissible_pageLen_le hp
  cases i <;> simp only [allowedReads, List.mem_append, List.mem_cons, List.not_mem_nil, or_false, Prod.mk.injEq] at h
  case logGet index =>
    split at h
    · next hindex =>
      simp only [recordAddr, List.mem_singleton, Prod.mk.injEq] at h
      omega
    · simp only [List.not_mem_nil, or_false] at h
      omega
  all_goals omega

theorem CommandEvent.within32 {i : Instr} {s : State} {e : Event} (h : CommandEvent i s e)
    (hp : admissible s.params = true) : within32 e = true := by
  cases e with
  | blkWrite dev a bytes ms st =>
    obtain ⟨hregion, -⟩ := h.allowedPuts
    exact decide_eq_true (allowedRegion_fits hp hregion)
  | blkRead dev a n ms bytes st =>
    exact decide_eq_true (allowedReads_fit hp h.allowedReads)
  | sel | desel | tx | rx | drdy | delay | blkReady | notify => rfl

/-- Settles O16, without its premise about U6 (b): the model refuses that erase and performs no event (log 8). -/
theorem transfersFitAddressSpace : Obligations.TransfersFitAddressSpace := by
  intro s t hp htrace _ hstep
  exact step_trace_all hstep (fun i e he => he.within32 hp) htrace

/-! ## The frame of the RTD device registers -/

/-- The event stores nothing in the device register at `x` (R45, R112). -/
def SparesRegister (x : Nat) (e : Event) : Prop :=
  match e with
  | .tx (a :: payload) _ =>
    a.getLsbD 7 = true → x < (a.setWidth 7).toNat ∨ (a.setWidth 7).toNat + payload.length ≤ x
  | _ => True

/-- A `Tx` changes no device register outside the bytes it carries. -/
theorem env_tx_outside (v : Env) (a : Byte) (payload : List Byte) (x : Nat)
    (h : a.getLsbD 7 = true → x < (a.setWidth 7).toNat ∨ (a.setWidth 7).toNat + payload.length ≤ x) :
    (v.tx (a :: payload)).2.rtdRegs.read x = v.rtdRegs.read x := by
  by_cases ha : a.getLsbD 7 = true
  · simp only [Env.tx, Env.deviceTx, ha, if_true]
    rw [Memory.read_store_outside _ _ _ _ _ _ (h ha), takeTx_rtdRegs]
  · rw [env_tx_read_rtdRegs v a payload (Bool.eq_false_of_not_eq_true ha)]

theorem SparesRegister.apply {x : Nat} {e : Event} (h : SparesRegister x e) (v : Env) :
    (v.apply e).rtdByte x = v.rtdByte x := by
  have of_read : (v.apply e).rtdRegs.read x = v.rtdRegs.read x → (v.apply e).rtdByte x = v.rtdByte x :=
    fun hread => by rw [Env.rtdByte, Env.rtdByte, hread]
  apply of_read
  cases e with
  | tx bytes st =>
    cases bytes with
    | nil => simp [Env.apply, Env.tx, Env.deviceTx]
    | cons a payload => exact env_tx_outside v a payload x h
  | sel | desel | delay | notify => rfl
  | rx | drdy | blkWrite | blkRead | blkReady => simp [Env.apply]

theorem replay_rtdByte {x : Nat} {es : List Event} (h : ∀ e ∈ es, SparesRegister x e) (v : Env) :
    (v.replay es).rtdByte x = v.rtdByte x := by
  induction es generalizing v with
  | nil => rfl
  | cons e es ih =>
    obtain ⟨he, hes⟩ := List.forall_mem_cons.mp h
    rw [replay_cons, ih hes, he.apply]

/-- The registers of a write an RTD command may make are those `rtdWritten` lists for it. -/
theorem mem_rtdWritten_of_allowed {i : Instr} {a : Byte} {n x : Nat} (h : (a, n) ∈ allowedWrites i)
    (hlo : ((a ||| writeFlag).setWidth 7).toNat ≤ x) (hhi : x < ((a ||| writeFlag).setWidth 7).toNat + n) :
    x ∈ rtdWritten i := by
  have rows : ((a, n) = (addrConfig, 1) ∧ rtdWritten i = [0]) ∨ ((a, n) = (addrHigh, 2) ∧ rtdWritten i = [3, 4])
      ∨ ((a, n) = (addrLow, 2) ∧ rtdWritten i = [5, 6]) := by
    cases i <;> simp_all [allowedWrites, rtdWritten]
  have config : ((addrConfig ||| writeFlag).setWidth 7).toNat = 0 := by decide
  have high : ((addrHigh ||| writeFlag).setWidth 7).toNat = 3 := by decide
  have low : ((addrLow ||| writeFlag).setWidth 7).toNat = 5 := by decide
  rcases rows with ⟨e, hw⟩ | ⟨e, hw⟩ | ⟨e, hw⟩ <;> obtain ⟨rfl, rfl⟩ := Prod.mk.inj e <;>
    simp only [hw, config, high, low, List.mem_cons, List.not_mem_nil, or_false] at hlo hhi ⊢ <;> omega

theorem CommandEvent.sparesRegister {i : Instr} {s : State} {e : Event} {x : Nat} (h : CommandEvent i s e)
    (hx : x ∉ rtdWritten i) : SparesRegister x e := by
  cases e with
  | tx bytes st =>
    rcases h.rtdEvent_of_tx with ⟨a, rfl, hread⟩ | ⟨a, payload, rfl, hmem⟩
    · exact fun hflag => absurd (hread.symm.trans hflag) (by decide)
    · intro _
      by_contra hin
      exact hx (mem_rtdWritten_of_allowed hmem (by omega) (by omega))
  | sel | desel | rx | drdy | delay | blkWrite | blkRead | blkReady | notify => trivial

/-- Settles O21: no event of the command stores to the register. -/
theorem deviceRegisterFrame : Obligations.DeviceRegisterFrame := by
  intro i s t x h hx
  obtain ⟨es, hran⟩ := exec_ran h
  rw [hran.answered.env]
  exact replay_rtdByte (fun e he => (hran.events e he).sparesRegister hx) s.env

/-! ## The frame of the NVM -/

/-- The event stores nothing in the NVM byte at `x` (R52). -/
def SparesByte (x : Nat) (e : Event) : Prop :=
  match e with
  | .blkWrite _ a bytes _ _ => x < a ∨ a + bytes.length ≤ x
  | _ => True

theorem SparesByte.apply {x : Nat} {e : Event} (h : SparesByte x e) (v : Env) :
    (v.apply e).nvmByte x = v.nvmByte x := by
  have of_read : (v.apply e).nvm.read x = v.nvm.read x → (v.apply e).nvmByte x = v.nvmByte x :=
    fun hread => by rw [Env.nvmByte, Env.nvmByte, hread]
  apply of_read
  cases e with
  | blkWrite dev a bytes ms st => exact env_blkWrite_outside v a bytes x h
  | sel | desel | delay | notify => rfl
  | tx | rx | drdy | blkRead | blkReady => simp [Env.apply]

theorem replay_nvmByte {x : Nat} {es : List Event} (h : ∀ e ∈ es, SparesByte x e) (v : Env) :
    (v.replay es).nvmByte x = v.nvmByte x := by
  induction es generalizing v with
  | nil => rfl
  | cons e es ih =>
    obtain ⟨he, hes⟩ := List.forall_mem_cons.mp h
    rw [replay_cons, ih hes, he.apply]

/-- The region a log command may write is the one `nvmWritten` gives for it. -/
theorem nvmWritten_of_allowedRegion {i : Instr} {s : State} {a n x : Nat} (h : allowedRegion i s a n) (hlo : a ≤ x)
    (hhi : x < a + n) : nvmWritten i s x := by
  cases i <;> simp only [allowedRegion, within] at h
  case logInit ts =>
    show x < 12
    omega
  case logAppend id deltaT payload =>
    rcases h with hcounter | ⟨cnt, cap, hheader, -, hrecord⟩
    · exact .inl (by omega)
    · exact .inr ⟨cnt, cap, hheader, by omega, by omega⟩
  case logErase start length =>
    show start ≤ x ∧ x < start + length
    omega

theorem CommandEvent.sparesByte {i : Instr} {s : State} {e : Event} {x : Nat} (h : CommandEvent i s e)
    (hx : ¬ nvmWritten i s x) : SparesByte x e := by
  cases e with
  | blkWrite dev a bytes ms st =>
    obtain ⟨hregion, -⟩ := h.allowedPuts
    by_contra hin
    simp only [SparesByte] at hin
    exact hx (nvmWritten_of_allowedRegion hregion (by omega) (by omega))
  | sel | desel | tx | rx | drdy | delay | blkRead | blkReady | notify => trivial

/-- Settles O22: no event of the command stores to the byte. -/
theorem nvmFrame : Obligations.NvmFrame := by
  intro i s t x h hx
  obtain ⟨es, hran⟩ := exec_ran h
  rw [hran.answered.env]
  exact replay_nvmByte (fun e he => (hran.events e he).sparesByte hx) s.env

end Sys2Proof.Machine
end

section
/-!
Proofs about the command word and the command set (`30_encoding.md`). Decoding reads the operands of the command with
the word's opcode (`decode_eq_ok_iff`), so the two directions of R71 are facts about the operand field only: reading
back what was written gives the command again (`readOperands_arg`), writing back what was read gives the named bits
(`arg_readOperands`). Each of the two is assembled from one lemma per format of R71.
-/

namespace Sys2Proof

/-! ## Words made of fields -/

theorem append_fields {k n : Nat} (a : BitVec (k + n)) : a.extractLsb' n k ++ a.extractLsb' 0 n = a := by
  rw [BitVec.extractLsb'_append_extractLsb'_eq_extractLsb' (Nat.zero_add n).symm, BitVec.extractLsb'_eq_self]

/-- Masking a word field by field. -/
theorem append_eq_and {k n : Nat} {x x' m : BitVec k} {y y' m' : BitVec n} (hx : x' = x &&& m) (hy : y' = y &&& m') :
    x' ++ y' = (x ++ y) &&& (m ++ m') := by
  rw [hx, hy, BitVec.and_append]

/-- A word has nothing outside a mask where none of its fields has. -/
theorem append_and_not {k n : Nat} {x m : BitVec k} {y m' : BitVec n} (hx : x &&& ~~~m = 0) (hy : y &&& ~~~m' = 0) :
    (x ++ y) &&& ~~~(m ++ m') = 0#(k + n) := by
  rw [BitVec.not_append, BitVec.and_append, hx, hy]
  exact BitVec.zero_append_zero

theorem and_not_allOnes {n : Nat} (x : BitVec n) : x &&& ~~~BitVec.allOnes n = 0 := by
  rw [BitVec.not_allOnes, BitVec.and_zero]
  rfl

/-- Keeping the low `n` bits is masking with `n` ones. -/
theorem zero_append_low (k n : Nat) (a : BitVec (k + n)) :
    0#k ++ a.extractLsb' 0 n = a &&& (0#k ++ BitVec.allOnes n) := by
  conv_rhs => rw [← append_fields a]
  exact append_eq_and BitVec.and_zero.symm BitVec.and_allOnes.symm

theorem zero_append_and_not_low (k n : Nat) (x : BitVec n) :
    (0#k ++ x) &&& ~~~(0#k ++ BitVec.allOnes n) = 0#(k + n) :=
  append_and_not BitVec.zero_and (and_not_allOnes x)

/-! ## The formats of R71: reading what was written -/

theorem csrField_argC (csr : BitVec 8) (value : Word) : csrField (argC csr value) = csr := by
  rw [csrField, argC, BitVec.extractLsb'_append_eq_of_le (Nat.le_refl 32)]
  exact BitVec.extractLsb'_append_eq_right

theorem valueField_argC (csr : BitVec 8) (value : Word) : valueField (argC csr value) = value :=
  BitVec.extractLsb'_append_eq_right

theorem rawField_append (raw : Half) : rawField (0#48 ++ raw) = raw := BitVec.extractLsb'_append_eq_right

theorem tempInRange_iff (t : Int) : Instr.tempInRange t = true ↔ -2147483648 ≤ t ∧ t ≤ 2147483647 := by
  simp [Instr.tempInRange]

/-- An s32 survives two's complement and sign extension (R75). -/
theorem tempField_argT {t : Int} (h : Instr.tempInRange t = true) : tempField (argT t) = t := by
  obtain ⟨hlo, hhi⟩ := (tempInRange_iff t).mp h
  rw [tempField, argT, BitVec.extractLsb'_append_eq_right]
  exact BitVec.toInt_ofInt_eq_self (by decide) (by omega) (by omega)

theorem filterField_append (filter : Bool) : filterField (0#63 ++ BitVec.ofBool filter) = filter := by
  cases filter <;> rfl

theorem idField_append (id : Byte) (deltaT : Half) (payload : Word) :
    idField (0#8 ++ id ++ deltaT ++ payload) = id := by
  rw [idField, BitVec.extractLsb'_append_eq_of_le (by decide), BitVec.extractLsb'_append_eq_of_le (by decide)]
  exact BitVec.extractLsb'_append_eq_right

theorem deltaField_append (id : Byte) (deltaT : Half) (payload : Word) :
    deltaField (0#8 ++ id ++ deltaT ++ payload) = deltaT := by
  rw [deltaField, BitVec.extractLsb'_append_eq_of_le (by decide)]
  exact BitVec.extractLsb'_append_eq_right

theorem payloadField_append (id : Byte) (deltaT : Half) (payload : Word) :
    payloadField (0#8 ++ id ++ deltaT ++ payload) = payload :=
  BitVec.extractLsb'_append_eq_right

theorem indexField_append {index : Nat} (h : Instr.indexInRange index = true) :
    indexField (0#48 ++ BitVec.ofNat 16 index) = index := by
  rw [indexField, BitVec.extractLsb'_append_eq_right, BitVec.toNat_ofNat]
  exact Nat.mod_eq_of_lt (of_decide_eq_true h)

theorem startField_append {start : Nat} (h : Instr.wordInRange start = true) (length : Nat) :
    startField (BitVec.ofNat 32 start ++ BitVec.ofNat 32 length) = start := by
  rw [startField, BitVec.extractLsb'_append_eq_left, BitVec.toNat_ofNat]
  exact Nat.mod_eq_of_lt (of_decide_eq_true h)

theorem lengthField_append {length : Nat} (h : Instr.wordInRange length = true) (start : Nat) :
    lengthField (BitVec.ofNat 32 start ++ BitVec.ofNat 32 length) = length := by
  rw [lengthField, BitVec.extractLsb'_append_eq_right, BitVec.toNat_ofNat]
  exact Nat.mod_eq_of_lt (of_decide_eq_true h)

/-! ## The formats of R71: writing what was read -/

theorem append_formatC (a : Data) : a.extractLsb' 40 24 ++ csrField a ++ valueField a = a := by
  have high : a.extractLsb' 40 24 ++ csrField a = a.extractLsb' 32 32 :=
    BitVec.extractLsb'_append_extractLsb'_eq_extractLsb' rfl
  rw [high]
  exact append_fields (k := 32) (n := 32) a

theorem argC_fields (a : Data) :
    argC (csrField a) (valueField a) = a &&& (0#24 ++ BitVec.allOnes 8 ++ BitVec.allOnes 32) := by
  conv_rhs => rw [← append_formatC a]
  exact append_eq_and (append_eq_and BitVec.and_zero.symm BitVec.and_allOnes.symm) BitVec.and_allOnes.symm

/-- `CSRR` writes its `value` field 0 (R81). -/
theorem argC_csrField_zero (a : Data) : argC (csrField a) 0 = a &&& (0#24 ++ BitVec.allOnes 8 ++ 0#32) := by
  conv_rhs => rw [← append_formatC a]
  exact append_eq_and (append_eq_and BitVec.and_zero.symm BitVec.and_allOnes.symm) BitVec.and_zero.symm

theorem argT_tempField (a : Data) : argT (tempField a) = a &&& (0#32 ++ BitVec.allOnes 32) := by
  rw [← zero_append_low 32 32 a, argT, tempField, BitVec.ofInt_toInt]

theorem append_filterField (a : Data) :
    0#63 ++ BitVec.ofBool (filterField a) = a &&& (0#63 ++ BitVec.allOnes 1) := by
  rw [← zero_append_low 63 1 a, filterField]
  congr 1
  exact BitVec.eq_of_getLsbD_eq (by simp)

theorem append_formatR (a : Data) : a.extractLsb' 56 8 ++ idField a ++ deltaField a ++ payloadField a = a := by
  have high : a.extractLsb' 56 8 ++ idField a = a.extractLsb' 48 16 :=
    BitVec.extractLsb'_append_extractLsb'_eq_extractLsb' rfl
  have mid : a.extractLsb' 48 16 ++ deltaField a = a.extractLsb' 32 32 :=
    BitVec.extractLsb'_append_extractLsb'_eq_extractLsb' rfl
  rw [high, mid]
  exact append_fields (k := 32) (n := 32) a

theorem append_record (a : Data) :
    0#8 ++ idField a ++ deltaField a ++ payloadField a
      = a &&& (0#8 ++ BitVec.allOnes 8 ++ BitVec.allOnes 16 ++ BitVec.allOnes 32) := by
  conv_rhs => rw [← append_formatR a]
  exact append_eq_and (append_eq_and (append_eq_and BitVec.and_zero.symm BitVec.and_allOnes.symm)
    BitVec.and_allOnes.symm) BitVec.and_allOnes.symm

theorem append_indexField (a : Data) :
    0#48 ++ BitVec.ofNat 16 (indexField a) = a &&& (0#48 ++ BitVec.allOnes 16) := by
  rw [← zero_append_low 48 16 a, indexField, BitVec.ofNat_toNat, BitVec.setWidth_eq]

theorem append_region (a : Data) : BitVec.ofNat 32 (startField a) ++ BitVec.ofNat 32 (lengthField a) = a := by
  rw [startField, lengthField, BitVec.ofNat_toNat, BitVec.ofNat_toNat, BitVec.setWidth_eq, BitVec.setWidth_eq]
  exact append_fields (k := 32) (n := 32) a

theorem tempInRange_tempField (a : Data) : Instr.tempInRange (tempField a) = true := by
  have hlo := BitVec.le_toInt (a.extractLsb' 0 32)
  have hhi := BitVec.toInt_lt (x := a.extractLsb' 0 32)
  rw [tempInRange_iff, tempField]
  omega

theorem indexInRange_indexField (a : Data) : Instr.indexInRange (indexField a) = true :=
  decide_eq_true (a.extractLsb' 0 16).isLt

theorem wordInRange_startField (a : Data) : Instr.wordInRange (startField a) = true :=
  decide_eq_true (a.extractLsb' 32 32).isLt

theorem wordInRange_lengthField (a : Data) : Instr.wordInRange (lengthField a) = true :=
  decide_eq_true (a.extractLsb' 0 32).isLt

/-! ## Reading the operands of a command -/

/-- The command with the opcode of `i` and the operands that stand in `a` (R71). -/
def Instr.readOperands (i : Instr) (a : Data) : Instr :=
  match i with
  | .csrr _ => .csrr (csrField a)
  | .csrw _ _ => .csrw (csrField a) (valueField a)
  | .csrs _ _ => .csrs (csrField a) (valueField a)
  | .csrc _ _ => .csrc (csrField a) (valueField a)
  | .convC2t _ => .convC2t (rawField a)
  | .convT2c _ => .convT2c (tempField a)
  | .rtdInit _ => .rtdInit (filterField a)
  | .rtdRead1 => .rtdRead1
  | .rtdStart => .rtdStart
  | .rtdStop => .rtdStop
  | .rtdRead => .rtdRead
  | .rtdSethi _ => .rtdSethi (tempField a)
  | .rtdSetlo _ => .rtdSetlo (tempField a)
  | .rtdGethi => .rtdGethi
  | .rtdGetlo => .rtdGetlo
  | .fdAuto => .fdAuto
  | .fdMstart => .fdMstart
  | .fdMend => .fdMend
  | .fdRdfault => .fdRdfault
  | .logInit _ => .logInit a
  | .logAppend _ _ _ => .logAppend (idField a) (deltaField a) (payloadField a)
  | .logGet _ => .logGet (indexField a)
  | .logRdcnt => .logRdcnt
  | .logRdts => .logRdts
  | .logRdcap => .logRdcap
  | .logErase _ _ => .logErase (startField a) (lengthField a)

/-- The bits of the operand field that the command's format names (R71; `usedBits_eq`). -/
def Instr.argMask (i : Instr) : Data :=
  match i with
  | .csrr _ => 0#24 ++ BitVec.allOnes 8 ++ 0#32
  | .csrw _ _ | .csrs _ _ | .csrc _ _ => 0#24 ++ BitVec.allOnes 8 ++ BitVec.allOnes 32
  | .convC2t _ | .logGet _ => 0#48 ++ BitVec.allOnes 16
  | .convT2c _ | .rtdSethi _ | .rtdSetlo _ => 0#32 ++ BitVec.allOnes 32
  | .rtdInit _ => 0#63 ++ BitVec.allOnes 1
  | .logAppend _ _ _ => 0#8 ++ BitVec.allOnes 8 ++ BitVec.allOnes 16 ++ BitVec.allOnes 32
  | .logInit _ | .logErase _ _ => BitVec.allOnes 64
  | .rtdRead1 | .rtdStart | .rtdStop | .rtdRead | .rtdGethi | .rtdGetlo | .fdAuto | .fdMstart | .fdMend | .fdRdfault
  | .logRdcnt | .logRdts | .logRdcap => 0

theorem usedBits_eq (i : Instr) : i.usedBits = BitVec.allOnes 8 ++ i.argMask := by
  cases i <;> simp only [Instr.usedBits, Instr.argMask] <;> decide

theorem readOperands_readOperands (i : Instr) (a b : Data) :
    (i.readOperands a).readOperands b = i.readOperands b := by cases i <;> rfl

theorem decodeOp_opcode (i : Instr) (a : Data) : decodeOp i.opcode a = .ok (i.readOperands a) := by cases i <;> rfl

/-- No two rows of R74 share an opcode. -/
theorem opcode_of_decodeOp {op : BitVec 8} {a : Data} {i : Instr} (h : decodeOp op a = .ok i) : op = i.opcode := by
  unfold decodeOp at h
  split at h
  case h_27 => simp at h
  all_goals
    next hop =>
    obtain rfl := Except.ok.inj h
    exact BitVec.eq_of_toNat_eq hop

theorem decode_eq_ok_iff (w : Command) (i : Instr) :
    decode w = .ok i ↔ opField w = i.opcode ∧ i.readOperands (argField w) = i := by
  constructor
  · intro h
    have hop := opcode_of_decodeOp h
    rw [decode, hop, decodeOp_opcode] at h
    exact ⟨hop, Except.ok.inj h⟩
  · rintro ⟨hop, harg⟩
    rw [decode, hop, decodeOp_opcode, harg]

/-- Reading back the operands that were written. -/
theorem readOperands_arg {i : Instr} (h : i.wellFormed = true) : i.readOperands i.arg = i := by
  cases i
  case csrr csr => exact congrArg Instr.csrr (csrField_argC csr 0)
  case csrw csr value => exact congrArg₂ Instr.csrw (csrField_argC csr value) (valueField_argC csr value)
  case csrs csr value => exact congrArg₂ Instr.csrs (csrField_argC csr value) (valueField_argC csr value)
  case csrc csr value => exact congrArg₂ Instr.csrc (csrField_argC csr value) (valueField_argC csr value)
  case convC2t raw => exact congrArg Instr.convC2t (rawField_append raw)
  case convT2c t => exact congrArg Instr.convT2c (tempField_argT h)
  case rtdInit filter => exact congrArg Instr.rtdInit (filterField_append filter)
  case rtdSethi t => exact congrArg Instr.rtdSethi (tempField_argT h)
  case rtdSetlo t => exact congrArg Instr.rtdSetlo (tempField_argT h)
  case logAppend id deltaT payload =>
    simp only [Instr.readOperands, Instr.arg, idField_append, deltaField_append, payloadField_append]
  case logGet index => exact congrArg Instr.logGet (indexField_append h)
  case logErase start length =>
    obtain ⟨hstart, hlength⟩ := Bool.and_eq_true_iff.mp h
    exact congrArg₂ Instr.logErase (startField_append hstart length) (lengthField_append hlength start)
  all_goals rfl

theorem wellFormed_readOperands (i : Instr) (a : Data) : (i.readOperands a).wellFormed = true := by
  cases i
  case convT2c | rtdSethi | rtdSetlo => exact tempInRange_tempField a
  case logGet => exact indexInRange_indexField a
  case logErase => exact Bool.and_eq_true_iff.mpr ⟨wordInRange_startField a, wordInRange_lengthField a⟩
  all_goals rfl

/-- Writing back the operands that were read keeps the named bits and clears the others (R77). -/
theorem arg_readOperands (i : Instr) (a : Data) : (i.readOperands a).arg = a &&& i.argMask := by
  cases i
  case csrr => exact argC_csrField_zero a
  case csrw | csrs | csrc => exact argC_fields a
  case convC2t => exact zero_append_low 48 16 a
  case convT2c | rtdSethi | rtdSetlo => exact argT_tempField a
  case rtdInit => exact append_filterField a
  case logInit => exact BitVec.and_allOnes.symm
  case logAppend => exact append_record a
  case logGet => exact append_indexField a
  case logErase => exact (append_region a).trans BitVec.and_allOnes.symm
  all_goals exact BitVec.and_zero.symm

/-- The encoder writes the operand bits a format does not name 0, for operands out of range too (R77). -/
theorem arg_and_not_argMask (i : Instr) : i.arg &&& ~~~i.argMask = 0 := by
  have csrPlaced (csr : BitVec 8) : (0#24 ++ csr) &&& ~~~(0#24 ++ BitVec.allOnes 8) = 0 :=
    zero_append_and_not_low 24 8 csr
  cases i
  case csrr csr => exact append_and_not (csrPlaced csr) BitVec.zero_and
  case csrw csr value | csrs csr value | csrc csr value => exact append_and_not (csrPlaced csr) (and_not_allOnes value)
  case convC2t | logGet => exact zero_append_and_not_low 48 16 _
  case convT2c | rtdSethi | rtdSetlo => exact zero_append_and_not_low 32 32 _
  case rtdInit => exact zero_append_and_not_low 63 1 _
  case logInit | logErase => exact and_not_allOnes _
  case logAppend id deltaT payload =>
    exact append_and_not (append_and_not (zero_append_and_not_low 8 8 id) (and_not_allOnes deltaT))
      (and_not_allOnes payload)
  all_goals exact BitVec.zero_and

/-- The operands do not depend on bits the format does not name (R77). -/
theorem readOperands_and_argMask (i : Instr) (a : Data) : i.readOperands (a &&& i.argMask) = i.readOperands a := by
  have h := readOperands_arg (wellFormed_readOperands i a)
  rwa [arg_readOperands, readOperands_readOperands] at h

/-! ## The command word -/

theorem opField_append_argField (w : Command) : opField w ++ argField w = w := append_fields (k := 8) (n := 64) w

theorem and_usedBits (w : Command) (i : Instr) : w &&& i.usedBits = opField w ++ (argField w &&& i.argMask) := by
  conv_lhs => rw [← opField_append_argField w, usedBits_eq]
  rw [BitVec.and_append, BitVec.and_allOnes]

/-- Settles O1: the fields of the encoded word are the command's opcode and operands. -/
theorem decodeEncodeAgree : Obligations.DecodeEncodeAgree := by
  intro i h
  obtain ⟨hop, harg⟩ := Laws.opcodeField i
  exact (decode_eq_ok_iff _ i).mpr ⟨hop, by rw [harg, readOperands_arg h]⟩

/-- Settles O2, from the operands as the decoder reads them. -/
theorem decodedCommandReencodes : Obligations.DecodedCommandReencodes := by
  intro w i h
  obtain ⟨hop, harg⟩ := (decode_eq_ok_iff w i).mp h
  have hwf : i.wellFormed = true := by rw [← harg]; exact wellFormed_readOperands i _
  have hbits : i.arg = argField w &&& i.argMask := by rw [← arg_readOperands, harg]
  exact ⟨hwf, by rw [and_usedBits, hop, ← hbits, encode]⟩

/-- Settles O3: the two words have the same opcode and the same named operand bits, and the operands are read from
those. -/
theorem reservedOperandBitsIgnored : Obligations.ReservedOperandBitsIgnored := by
  refine ⟨fun w w' i h hsame => ?_, fun i => ?_⟩
  · obtain ⟨hop, harg⟩ := (decode_eq_ok_iff w i).mp h
    rw [and_usedBits, and_usedBits] at hsame
    have hop' : opField w' = opField w := by simpa only [Laws.opField_append] using congrArg opField hsame
    have hnamed : argField w' &&& i.argMask = argField w &&& i.argMask := by
      simpa only [Laws.argField_append] using congrArg argField hsame
    refine (decode_eq_ok_iff w' i).mpr ⟨hop'.trans hop, ?_⟩
    rw [← readOperands_and_argMask, hnamed, readOperands_and_argMask, harg]
  · rw [usedBits_eq, encode]
    exact append_and_not (and_not_allOnes _) (arg_and_not_argMask i)

/-- The opcodes that are no row of R74 (R76). -/
theorem decodeOp_eq_illegal_iff (op : BitVec 8) (a : Data) :
    decodeOp op a = .error (.illegalOpcode op)
      ↔ op.toNat = 0 ∨ 0x05 ≤ op.toNat ∧ op.toNat ≤ 0x0F ∨ 0x12 ≤ op.toNat ∧ op.toNat ≤ 0x1F
        ∨ 0x29 ≤ op.toNat ∧ op.toNat ≤ 0x2F ∨ 0x34 ≤ op.toNat ∧ op.toNat ≤ 0x3F ∨ 0x47 ≤ op.toNat := by
  unfold decodeOp
  split
  case h_27 =>
    simp only [imp_false] at *
    simp only [true_iff]
    omega
  all_goals
    simp only [reduceCtorEq, false_iff]
    omega

end Sys2Proof

namespace Sys2Proof.Machine

/-- An illegal command is refused (R76); the counterpart of `step_of_decode`. -/
theorem step_of_decode_error {s : State} {w : Command} {e : DecodeError} (hn : nextCommand s = some w)
    (hd : decode w = .error e) : step s = .next (commit s (refuse s)) := by
  simp only [step, hn, hd]

/-- Settles O4: the ranges from the rows of the decoder, their number by evaluation, and the step since a refused
command leaves only its response. -/
theorem illegalOpcodesRefused : Obligations.IllegalOpcodesRefused := by
  refine ⟨fun w => decodeOp_eq_illegal_iff _ _, by decide +kernel, fun s w e hn hr hd => ?_⟩
  rw [step_of_decode_error hn hd, commit_of_no_reset _ hr]
  rfl

theorem decode_of_encode_eq {i : Instr} {w : Command} (hw : encode i = w) (h : i.wellFormed = true) :
    decode w = .ok i := hw ▸ decodeEncodeAgree i h

/-- Settles O5: each word is what the encoder writes for its command. -/
theorem specWordsDecode : Obligations.SpecWordsDecode := by
  refine ⟨?_, ?_, ?_, ?_, ?_, ?_, ?_, ?_⟩ <;> exact decode_of_encode_eq (by decide) rfl

/-- Settles O11, in the cases of U6 too: there the model refuses the command (logs 7 and 8). -/
theorem everyCommandAnswersOnce : Obligations.EveryCommandAnswersOnce := by
  intro i s _
  obtain ⟨t, hexec, es, hans, -⟩ := exec_next i s
  obtain ⟨r, hresponse⟩ := hans.responses
  exact ⟨t, r, hexec, hresponse, hans.params, hans.program, hans.pc, hans.resets⟩

/-- `CSRW`, `CSRS`, `CSRC` on `CTRL` (R13, R90): no event, the old value answered, the new one masked. -/
theorem csrUpdate_ctrl (f : Word → Word) (s : State) :
    csrUpdate 0x00 f s
      = ended s [] { s.regs with ctrl := f (s.regs.ctrl &&& 0x7) &&& 0x7 } true
          ((s.regs.ctrl &&& 0x7).setWidth 64) := by
  rw [ended_nil]
  rfl

/-- `CSRS` on `CTRL` sets the implemented bits of its operand (R93). -/
theorem exec_csrs_ctrl (b : Word) (s : State) :
    exec (.csrs 0x00 b) s
      = .next (ended s [] { s.regs with ctrl := (s.regs.ctrl &&& 0x7) ||| (b &&& 0x7) } true
          ((s.regs.ctrl &&& 0x7).setWidth 64)) := by
  have hmask : ((s.regs.ctrl &&& 0x7) ||| b) &&& 0x7 = (s.regs.ctrl &&& 0x7) ||| (b &&& 0x7) := by
    rw [BitVec.and_or_distrib_right, BitVec.and_assoc, BitVec.and_self]
  rw [← hmask, ← csrUpdate_ctrl fun old => old ||| b]
  rfl

/-- `CSRC` on `CTRL` keeps the implemented bits that are not in its operand (R94). -/
theorem exec_csrc_ctrl (b : Word) (s : State) :
    exec (.csrc 0x00 b) s
      = .next (ended s [] { s.regs with ctrl := s.regs.ctrl &&& (0x7 &&& ~~~b &&& 0x7) } true
          ((s.regs.ctrl &&& 0x7).setWidth 64)) := by
  have hmask : (s.regs.ctrl &&& 0x7) &&& ~~~b &&& 0x7 = s.regs.ctrl &&& (0x7 &&& ~~~b &&& 0x7) := by
    simp only [BitVec.and_assoc]
  rw [← hmask, ← csrUpdate_ctrl fun old => old &&& ~~~b]
  rfl

/-- Settles O27: the expansion row by row, then the store to `CTRL` it makes. -/
theorem pseudoInstructionsSwitchControlBits : Obligations.PseudoInstructionsSwitchControlBits := by
  intro p s
  cases p
  case rtdAttach => exact ⟨rfl, exec_csrs_ctrl 0x1 s⟩
  case rtdDetach => exact ⟨rfl, exec_csrc_ctrl 0x1 s⟩
  case logAttach => exact ⟨rfl, exec_csrs_ctrl 0x2 s⟩
  case logDetach => exact ⟨rfl, exec_csrc_ctrl 0x2 s⟩
  case drdyAttach => exact ⟨rfl, exec_csrs_ctrl 0x4 s⟩
  case drdyDetach => exact ⟨rfl, exec_csrc_ctrl 0x4 s⟩

end Sys2Proof.Machine
end

section
/-!
Proofs about the CSR commands (`40_csr.md` R90 to R94). What a command does is said once by the CSR at its address
(`exec_csrr_addr`, `csrUpdate_row`) and once for the addresses it refuses (`exec_csrr_unimplemented`,
`csrUpdate_refused`). The rows of R13 to R20 are tied to the model's CSRs by `CsrRow.Describes`, so each statement about
rows is one about `csrValue` and `csrStore`.
-/

namespace Sys2Proof.Machine

/-! ## Masked and zero-extended words -/

/-- Masking before setting bits and again after it is masking once. -/
theorem masked_or_masked (w v m : Word) : ((w &&& m) ||| v) &&& m = (w ||| v) &&& m := by
  rw [BitVec.and_or_distrib_right, BitVec.and_or_distrib_right, BitVec.and_assoc, BitVec.and_self]

/-- Masking before clearing bits and again after it is masking once. -/
theorem masked_and_masked (w v m : Word) : (w &&& m) &&& v &&& m = w &&& v &&& m := by
  rw [BitVec.and_assoc w m v, BitVec.and_comm m v, ← BitVec.and_assoc, BitVec.and_assoc (w &&& v), BitVec.and_self]

/-- Zero-extending a word of two fields extends the upper one. -/
theorem setWidth_append_left {j n : Nat} (k : Nat) (x : BitVec j) (y : BitVec n) :
    (x ++ y).setWidth (k + n) = x.setWidth k ++ y := by
  rw [BitVec.setWidth_append_of_eq rfl, BitVec.setWidth_eq]

/-- A register's low field as a response carries it (R72): what the mask of that field leaves, zero-extended. -/
theorem setWidth_and_low (j k n : Nat) (w : BitVec (j + n)) :
    (w &&& (0#j ++ BitVec.allOnes n)).setWidth (k + n) = 0#k ++ w.extractLsb' 0 n := by
  rw [← zero_append_low, setWidth_append_left, BitVec.setWidth_zero]

/-- The composed `FD_STATUS` (R25) as a response carries it. -/
theorem fdStatusValue_setWidth (r : Regs) :
    (fdStatusValue r).setWidth 64
      = 0#32 ++ r.fdPolls ++ r.fdSaved ++ 0#5 ++ BitVec.ofBool r.fdArmed ++ fdStateCode r.fdState := by
  have hpolls : r.fdPolls.setWidth (32 + 16) = 0#32 ++ r.fdPolls := BitVec.setWidth_eq_append (by decide)
  rw [← hpolls, ← setWidth_append_left, ← setWidth_append_left, ← setWidth_append_left, ← setWidth_append_left]
  rfl

/-! ## The CSRs: addresses, values, stores -/

theorem csrAt_eq_none_iff (a : BitVec 8) : csrAt a = none ↔ 0x09 ≤ a.toNat := by
  unfold csrAt
  split
  case h_10 =>
    simp only [imp_false] at *
    simp only [true_iff]
    omega
  all_goals
    simp only [reduceCtorEq, false_iff]
    omega

theorem csrAddr_injective : Function.Injective csrAddr := fun c c' h => by
  simpa only [csrAt_addr, Option.some.injEq] using congrArg csrAt h

/-- The value of a writable CSR is its register's implemented bits (R12). -/
theorem csrValue_eq_masked {c : Csr} (h : c ≠ .fdStatus) (r : Regs) :
    some (csrValue c r) = (csrPart r)[(csrAddr c).toNat]?.map (· &&& csrWmask c) := by
  cases c
  case fdStatus => exact absurd rfl h
  all_goals rfl

/-- A store leaves the value of every other CSR, `FD_STATUS` included. -/
theorem csrValue_csrStore_other {c c' : Csr} (hne : c' ≠ c) (v : Word) (r : Regs) :
    csrValue c' (csrStore c v r) = csrValue c' r := by
  by_cases hstatus : c' = .fdStatus
  · simp only [hstatus, csrValue, fdStatusValue, csrStore_fdState, csrStore_fdArmed, csrStore_fdSaved,
      csrStore_fdPolls]
  · have hidx : (csrAddr c).toNat ≠ (csrAddr c').toNat := fun e =>
      hne (csrAddr_injective (BitVec.eq_of_toNat_eq e)).symm
    rw [← Option.some_inj, csrValue_eq_masked hstatus, csrValue_eq_masked hstatus, csrPart_csrStore,
      List.getElem?_set_ne hidx]

/-- A row of R13 to R20 is a CSR of the model: at its address, writable, read and stored as the row says. -/
structure CsrRow.Describes (row : CsrRow) (c : Csr) : Prop where
  addr : row.addr = csrAddr c
  writable : csrWritable c = true
  value : ∀ r, csrValue c r = row.get r &&& row.mask
  store : ∀ v r, csrStore c v r = row.set (v &&& row.mask) r

theorem csrRow_describes {row : CsrRow} (h : row ∈ csrRows) : ∃ c, row.Describes c := by
  simp only [csrRows, List.mem_cons, List.not_mem_nil, or_false] at h
  rcases h with rfl | rfl | rfl | rfl | rfl | rfl | rfl | rfl
  · exact ⟨.ctrl, rfl, rfl, fun _ => rfl, fun _ _ => rfl⟩
  · exact ⟨.fdPollMax, rfl, rfl, fun _ => rfl, fun _ _ => rfl⟩
  · exact ⟨.pollInterval, rfl, rfl, fun _ => rfl, fun _ _ => rfl⟩
  · exact ⟨.fdSettle, rfl, rfl, fun _ => rfl, fun _ _ => rfl⟩
  · exact ⟨.osPollMax, rfl, rfl, fun _ => rfl, fun _ _ => rfl⟩
  · exact ⟨.blkAttemptMax, rfl, rfl, fun _ => rfl, fun _ _ => rfl⟩
  · exact ⟨.blkReadyMax, rfl, rfl, fun _ => rfl, fun _ _ => rfl⟩
  · exact ⟨.blkTimeout, rfl, rfl, fun _ => rfl, fun _ _ => rfl⟩

/-! ## The commands, by the CSR at the address -/

/-- R91 at an implemented address. -/
theorem exec_csrr_addr (c : Csr) (s : State) :
    exec (.csrr (csrAddr c)) s = .next (ended s [] s.regs true ((csrValue c s.regs).setWidth 64)) := by
  rw [ended_nil, withRegs_same, exec, execCsrr, csrAt_addr]
  rfl

/-- R91 at an unimplemented address. -/
theorem exec_csrr_unimplemented {a : BitVec 8} (h : 0x09 ≤ a.toNat) (s : State) :
    exec (.csrr a) s = .next (ended s [] s.regs false 0) := by
  rw [ended_nil, withRegs_same, exec, execCsrr, (csrAt_eq_none_iff a).mpr h]
  rfl

/-- R91 at a CSR of 16 implemented bits: the response is the field, zero-extended. -/
theorem exec_csrr_half {c : Csr} {s : State} {w : Word} (h : csrValue c s.regs = w &&& 0x0000FFFF) :
    exec (.csrr (csrAddr c)) s = .next (ended s [] s.regs true (0#48 ++ w.extractLsb' 0 16)) := by
  rw [exec_csrr_addr, h, ← setWidth_and_low 16 48 16]
  rfl

/-- The common form of R92 to R94 at a row of R13 to R20. -/
theorem csrUpdate_row {row : CsrRow} (h : row ∈ csrRows) (f : Word → Word) (s : State) :
    csrUpdate row.addr f s
      = ended s [] (row.set (f (row.get s.regs &&& row.mask) &&& row.mask) s.regs) true
          ((row.get s.regs &&& row.mask).setWidth 64) := by
  obtain ⟨c, hc⟩ := csrRow_describes h
  rw [ended_nil, csrUpdate, hc.addr, csrAt_addr, ← hc.store, ← hc.value]
  exact if_pos hc.writable

/-- The common form of R92 to R94 at `FD_STATUS` and at the unimplemented addresses. -/
theorem csrUpdate_refused {a : BitVec 8} (h : 0x08 ≤ a.toNat) (f : Word → Word) (s : State) :
    csrUpdate a f s = ended s [] s.regs false 0 := by
  rcases h.eq_or_lt with hstatus | hunimplemented
  · obtain rfl : a = 0x08 := BitVec.eq_of_toNat_eq hstatus.symm
    exact csrUpdate_fdStatus f s
  · rw [ended_nil, withRegs_same, csrUpdate, (csrAt_eq_none_iff a).mpr hunimplemented]
    rfl

/-- R92 at a row of R13 to R20. -/
theorem exec_csrw_row {row : CsrRow} (h : row ∈ csrRows) (v : Word) (s : State) :
    exec (.csrw row.addr v) s
      = .next (ended s [] (row.set (v &&& row.mask) s.regs) true ((row.get s.regs &&& row.mask).setWidth 64)) :=
  congrArg Host.Outcome.next (csrUpdate_row h (fun _ => v) s)

/-- After a store, `CSRR` of every other address answers what it answered before. -/
theorem exec_csrr_csrStore_other {c : Csr} {a : BitVec 8} (hne : a ≠ csrAddr c) {v : Word} {s t : State}
    (ht : t.regs = csrStore c v s.regs) :
    ∃ ok d, exec (.csrr a) s = .next (ended s [] s.regs ok d)
      ∧ exec (.csrr a) t = .next (ended t [] t.regs ok d) := by
  cases ha : csrAt a with
  | none =>
    have h9 := (csrAt_eq_none_iff a).mp ha
    exact ⟨false, 0, exec_csrr_unimplemented h9 s, exec_csrr_unimplemented h9 t⟩
  | some c' =>
    obtain rfl := csrAddr_of_csrAt ha
    refine ⟨true, _, exec_csrr_addr c' s, ?_⟩
    rw [exec_csrr_addr, ht, csrValue_csrStore_other fun e => hne (congrArg csrAddr e)]

/-! ## The statements -/

/-- Settles O24: at a row the model masks the old value and the new one (R90), which is the same as masking the new
one only. -/
theorem csrWriteStoresMaskedValue : Obligations.CsrWriteStoresMaskedValue := by
  refine ⟨fun row hrow v s => ⟨exec_csrw_row hrow v s, ?csrs, ?csrc⟩, fun a v s ha => ⟨?_, ?_, ?_⟩⟩
  case csrs =>
    rw [← masked_or_masked]
    exact congrArg Host.Outcome.next (csrUpdate_row hrow (fun old => old ||| v) s)
  case csrc =>
    rw [← masked_and_masked]
    exact congrArg Host.Outcome.next (csrUpdate_row hrow (fun old => old &&& ~~~v) s)
  all_goals exact congrArg Host.Outcome.next (csrUpdate_refused ha _ s)

/-- Settles O25: the command is a store to the CSR the row describes, which fills that row's register and leaves the
value of every other CSR. -/
theorem csrWriteReadsBack : Obligations.CsrWriteReadsBack := by
  intro row hrow v s t hexec
  obtain ⟨c, hc⟩ := csrRow_describes hrow
  have hregs : t.regs = csrStore c v s.regs := by
    rw [exec_csrw_row hrow, ← hc.store] at hexec
    rw [← Host.Outcome.next.inj hexec, ended_nil, respond_regs, withRegs_regs]
  have hget : row.get t.regs = v &&& row.mask := hregs ▸ csrRow_get_csrStore_same hrow hc.addr v s.regs
  refine ⟨hget, ?_, fun a hne => exec_csrr_csrStore_other (hc.addr ▸ hne) hregs⟩
  rw [hc.addr, exec_csrr_addr, hc.value, hget, BitVec.and_assoc, BitVec.and_self]

/-- Settles O23: each CSR's value as a zero-extended field; the numbers and bits of the last clause are these fields
by definition. -/
theorem csrReadAnswersValue : Obligations.CsrReadAnswersValue := by
  refine ⟨fun s => ⟨?ctrl, exec_csrr_half (c := .fdPollMax) rfl, exec_csrr_half (c := .pollInterval) rfl,
    exec_csrr_half (c := .fdSettle) rfl, exec_csrr_half (c := .osPollMax) rfl,
    exec_csrr_half (c := .blkAttemptMax) rfl, exec_csrr_half (c := .blkReadyMax) rfl,
    exec_csrr_half (c := .blkTimeout) rfl, ?fdStatus⟩, fun a s ha => exec_csrr_unimplemented ha s,
    fun r => ⟨rfl, rfl, rfl, rfl, rfl, rfl, rfl, rfl, rfl, rfl⟩⟩
  case ctrl =>
    rw [← setWidth_and_low 29 61 3]
    exact exec_csrr_addr .ctrl s
  case fdStatus =>
    rw [exec_csrr_fdStatus, fdStatusValue_setWidth]
    cases s.regs.fdState <;> rfl

end Sys2Proof.Machine
end

section
/-!
Proofs about the converter (`41_converter.md`). Each of the two functions has one floor division, said once as an
inequality that has no division in it (`le_c2t_iff`, `le_nearestCode_iff`). The laws of R104 are proved for every
parameter set from the size of a code in counts, which is `RREF * A_DEN / (32 * A_NUM)`; the default parameter sets come
in only through the numbers of `DefaultNumbers`.
-/

namespace Sys2Proof.Machine

section
variable {p : Params} {code : Nat} {t u c : Int}

/-! ## The two divisions -/

theorem r0_eq (p : Params) : (p.r0 : Int) = if p.rtdType = .pt100 then 100 else 1000 := by
  unfold Params.r0
  cases p.rtdType <;> rfl

theorem le_c2t_iff (ha : 1 ≤ p.aNum) :
    t ≤ p.c2t code ↔ t * (32 * p.aNum) ≤ ((code : Int) * p.rref - (p.r0 : Int) * 32768) * p.aDen :=
  Int.le_ediv_iff_mul_le (by omega)

theorem c2t_lt_iff (ha : 1 ≤ p.aNum) :
    p.c2t code < t ↔ ((code : Int) * p.rref - (p.r0 : Int) * 32768) * p.aDen < t * (32 * p.aNum) := by
  rw [← not_le, le_c2t_iff ha, not_le]

/-- R102: the floor of the exact temperature, in `1 / (32 * A_NUM)` of a count. -/
theorem c2t_floor (ha : 1 ≤ p.aNum) (code : Nat) :
    p.c2t code * (32 * p.aNum) ≤ ((code : Int) * p.rref - (p.r0 : Int) * 32768) * p.aDen
      ∧ ((code : Int) * p.rref - (p.r0 : Int) * 32768) * p.aDen < (p.c2t code + 1) * (32 * p.aNum) :=
  ⟨(le_c2t_iff ha).mp le_rfl, (c2t_lt_iff ha).mp (Int.lt_add_one_of_le le_rfl)⟩

/-- R103: rounding to nearest with ties upward, in halves of a code. -/
theorem le_nearestCode_iff (hcode : 0 < p.rref * p.aDen) :
    c ≤ p.nearestCode t
      ↔ (2 * c - 1) * (p.rref * p.aDen) ≤ 2 * (t * p.aNum * 32 + (p.r0 : Int) * 32768 * p.aDen) := by
  have hpos : (0 : Int) < 2 * ((p.rref : Int) * p.aDen) := by exact_mod_cast Nat.mul_pos Nat.two_pos hcode
  rw [Params.nearestCode, Int.le_ediv_iff_mul_le hpos]
  constructor <;> intro h <;> linarith

theorem nearestCode_lt_iff (hcode : 0 < p.rref * p.aDen) :
    p.nearestCode t < c
      ↔ 2 * (t * p.aNum * 32 + (p.r0 : Int) * 32768 * p.aDen) < (2 * c - 1) * (p.rref * p.aDen) := by
  rw [← not_le, le_nearestCode_iff hcode, not_le]

theorem nearestCode_mono (hcode : 0 < p.rref * p.aDen) (h : t ≤ u) : p.nearestCode t ≤ p.nearestCode u := by
  have hnum : t * p.aNum ≤ u * p.aNum := mul_le_mul_of_nonneg_right h (Int.natCast_nonneg _)
  have hnearest := (le_nearestCode_iff hcode).mp (le_refl (p.nearestCode t))
  rw [le_nearestCode_iff hcode]
  linarith

/-! ## Saturation and the code's bits -/

theorem code15_eq (raw : Half) : code15 raw = raw.toNat / 2 := by
  rw [code15, BitVec.extractLsb'_toNat, Nat.shiftRight_eq_div_pow]
  omega

theorem satCode_of_mem (h0 : 0 ≤ p.nearestCode t) (h1 : p.nearestCode t ≤ 32767) :
    p.satCode t = p.nearestCode t := by
  rw [Params.satCode, max_eq_right h0, min_eq_right h1]

/-- The saturated code fits the 15 bits above bit 0, so nothing wraps (R103). -/
theorem t2c_toNat (p : Params) (t : Int) : (p.t2c t).toNat = 2 * (p.satCode t).toNat := by
  rw [Params.t2c, BitVec.toNat_ofInt, Params.satCode]
  omega

theorem halfData_t2c (p : Params) (t : Int) :
    halfData (p.t2c t) = BitVec.ofNat 64 (2 * (min 32767 (max 0 (p.nearestCode t))).toNat) := by
  rw [halfData, ← BitVec.ofNat_toNat, t2c_toNat, Params.satCode]

theorem t2c_of_nearestCode_le (h : p.nearestCode t ≤ 0) : p.t2c t = 0x0000 := by
  rw [Params.t2c, Params.satCode, max_eq_left h]
  rfl

theorem t2c_of_le_nearestCode (h : 32767 ≤ p.nearestCode t) : p.t2c t = 0xFFFE := by
  rw [Params.t2c, Params.satCode, min_eq_left (h.trans (le_max_right _ _))]
  rfl

/-! ## The laws of R104 for every parameter set -/

theorem code_pos (ha : 1 ≤ p.aNum) (hhalf : 64 * p.aNum ≤ p.rref * p.aDen) : 0 < p.rref * p.aDen := by
  omega

/-- R104 (b): a code more adds the size of a code, rounded down or up to whole counts. -/
theorem c2t_succ (ha : 1 ≤ p.aNum) {k : Int} (hlow : k * (32 * p.aNum) ≤ p.rref * p.aDen)
    (hhigh : p.rref * p.aDen ≤ (k + 1) * (32 * p.aNum)) :
    p.c2t (code + 1) = p.c2t code + k ∨ p.c2t (code + 1) = p.c2t code + (k + 1) := by
  obtain ⟨hfloor, hceil⟩ := c2t_floor ha code
  have hge : p.c2t code + k ≤ p.c2t (code + 1) := by
    rw [le_c2t_iff ha]
    push_cast
    linarith
  have hlt : p.c2t (code + 1) < p.c2t code + (k + 2) := by
    rw [c2t_lt_iff ha]
    push_cast
    linarith
  omega

/-- R104 (c): the floor is less than a count below the exact temperature, so where a count is at most half a code the
nearest code is the one it came from. -/
theorem nearestCode_c2t (ha : 1 ≤ p.aNum) (hhalf : 64 * p.aNum ≤ p.rref * p.aDen) :
    p.nearestCode (p.c2t code) = code := by
  have hcode := code_pos ha hhalf
  have hhalf' : 64 * (p.aNum : Int) ≤ p.rref * p.aDen := by exact_mod_cast hhalf
  obtain ⟨hfloor, hceil⟩ := c2t_floor ha code
  have hge : (code : Int) ≤ p.nearestCode (p.c2t code) := by
    rw [le_nearestCode_iff hcode]
    linarith
  have hlt : p.nearestCode (p.c2t code) < code + 1 := by
    rw [nearestCode_lt_iff hcode]
    linarith
  omega

/-- R104 (d): a temperature is at most half a code away from the exact temperature of its code, and the floor takes less
than a count off that. -/
theorem c2t_nearestCode_within (ha : 1 ≤ p.aNum) (hcode : 0 < p.rref * p.aDen) (hc : p.nearestCode t = code) {k : Int}
    (hk : p.rref * p.aDen ≤ k * (64 * p.aNum)) : p.c2t code - t ≤ k ∧ t - p.c2t code ≤ k := by
  have hlow := (le_nearestCode_iff hcode).mp hc.ge
  have hhigh := (nearestCode_lt_iff hcode).mp (Int.lt_add_one_of_le hc.le)
  have hlt : p.c2t code < t + k + 1 := by
    rw [c2t_lt_iff ha]
    linarith
  have hge : t - k ≤ p.c2t code := by
    rw [le_c2t_iff ha]
    linarith
  omega

/-- A temperature between those of the lowest and the highest code has its nearest code in range. -/
theorem satCode_of_c2t_le (ha : 1 ≤ p.aNum) (hhalf : 64 * p.aNum ≤ p.rref * p.aDen) (h0 : p.c2t 0 ≤ t)
    (h1 : t ≤ p.c2t 32767) : p.satCode t = p.nearestCode t := by
  have hcode := code_pos ha hhalf
  apply satCode_of_mem
  · exact (nearestCode_c2t (code := 0) ha hhalf).ge.trans (nearestCode_mono hcode h0)
  · exact (nearestCode_mono hcode h1).trans (nearestCode_c2t (code := 32767) ha hhalf).le

theorem t2c_c2t (ha : 1 ≤ p.aNum) (hhalf : 64 * p.aNum ≤ p.rref * p.aDen) (hc : code ≤ 32767) :
    (p.t2c (p.c2t code)).toNat = 2 * code := by
  have hn := nearestCode_c2t (code := code) ha hhalf
  rw [t2c_toNat, satCode_of_mem (by omega) (by omega), hn, Int.toNat_natCast]

/-! ## The default parameter sets -/

/-- The numbers the default parameter sets share (R101: `RREF / R0` and `alpha / R0` are the same in both). -/
structure DefaultNumbers (p : Params) : Prop where
  aNum_pos : 1 ≤ p.aNum
  /-- A count is at most half a code. -/
  half : 64 * p.aNum ≤ p.rref * p.aDen
  /-- A code is 34 to 35 counts. -/
  code_ge : 34 * (32 * p.aNum : Int) ≤ p.rref * p.aDen
  code_le : p.rref * p.aDen ≤ 35 * (32 * p.aNum : Int)
  bottom : p.c2t 0 = -265975
  top : p.c2t 32767 = 877679
  saturates_low : p.nearestCode (-265957) = 0
  saturates_high : p.nearestCode 877662 = 32767

theorem defaultNumbers (h : p = Config.defaults ∨ p = Config.defaultsPt1000) : DefaultNumbers p := by
  rcases h with rfl | rfl <;> constructor <;> decide

end

/-! ## The commands -/

/-- R105. -/
theorem exec_convC2t (raw : Half) (s : State) :
    exec (.convC2t raw) s = .next (ended s [] s.regs true (tempData (s.params.rawTemp raw))) := by
  rw [ended_nil, withRegs_same]
  rfl

/-- R106. -/
theorem exec_convT2c (t : Int) (s : State) :
    exec (.convT2c t) s = .next (ended s [] s.regs true (halfData (s.params.t2c t))) := by
  rw [ended_nil, withRegs_same]
  rfl

/-! ## The statements -/

/-- Settles O28: the answered temperature is `c2t` of the code's upper 15 bits, which is the floor (`c2t_floor`). -/
theorem codeToTemperature : Obligations.CodeToTemperature := by
  intro raw s ha
  refine ⟨s.params.rawTemp raw, exec_convC2t raw s, ?_⟩
  rw [Params.rawTemp, code15_eq, ← r0_eq]
  exact c2t_floor ha _

/-- Settles O29: the code before saturation is `nearestCode`, between the half codes around it by `le_nearestCode_iff`
and `nearestCode_lt_iff`. -/
theorem temperatureToCode : Obligations.TemperatureToCode := by
  intro t s hr hd
  have hcode : 0 < s.params.rref * s.params.aDen := Nat.mul_pos hr hd
  refine ⟨s.params.nearestCode t, by rw [exec_convT2c, halfData_t2c], ?_⟩
  rw [← r0_eq]
  have hlt := (nearestCode_lt_iff hcode).mp (Int.lt_add_one_of_le (le_refl (s.params.nearestCode t)))
  exact ⟨(le_nearestCode_iff hcode).mp le_rfl, by linarith⟩

/-- Settles O30: the laws for every parameter set at the numbers of the default ones; saturation since `nearestCode` is
monotone. -/
theorem converterLaws : Obligations.ConverterLaws := by
  intro p hp
  have hn := defaultNumbers hp
  have hcode := code_pos hn.aNum_pos hn.half
  refine ⟨hn.bottom, hn.top, fun c _ => c2t_succ hn.aNum_pos hn.code_ge hn.code_le,
    fun c hc => t2c_c2t hn.aNum_pos hn.half hc, fun t ht => ?low, fun t ht => ?high⟩
  case low => exact t2c_of_nearestCode_le ((nearestCode_mono hcode ht).trans hn.saturates_low.le)
  case high => exact t2c_of_le_nearestCode (hn.saturates_high.ge.trans (nearestCode_mono hcode ht))

/-- Settles O31: in range nothing saturates, and half a code is at most 17.5 counts. -/
theorem temperatureRoundTripWithin18 : Obligations.TemperatureRoundTripWithin18 := by
  intro p t hp h0 h1
  have hn := defaultNumbers hp
  have hsat : p.satCode t = p.nearestCode t := satCode_of_c2t_le hn.aNum_pos hn.half h0 h1
  have hcode : p.nearestCode t = ((p.t2c t).toNat / 2 : Nat) := by
    rw [t2c_toNat, ← hsat, Params.satCode]
    omega
  have hsize := hn.code_le
  exact c2t_nearestCode_within hn.aNum_pos (code_pos hn.aNum_pos hn.half) hcode (by linarith)

end Sys2Proof.Machine
end

section
/-!
Proofs about the RTD driver (`42_rtd_driver.md`). A register transaction whose replies the environment gives is one
equation: the call's result and the state after its events (`regRead_eq`, `regRead_eq_lost`, `regWrite_eq`). Such
states are `transacted`; a command is its transactions' events one after another, then its end.
-/

namespace Sys2Proof.Machine

/-! ## After whole register transactions -/

/-- The state after the events `es` of whole register transactions, which leave the chip-select deasserted (R44). -/
def transacted (es : List Event) (s : State) : State := (performed es s).withRegs (deselected s.regs)

@[simp] theorem transacted_params (es : List Event) (s : State) : (transacted es s).params = s.params := rfl
@[simp] theorem transacted_env (es : List Event) (s : State) : (transacted es s).env = s.env.replay es := rfl
@[simp] theorem transacted_regs (es : List Event) (s : State) : (transacted es s).regs = deselected s.regs := rfl

@[simp] theorem performed_transacted (es fs : List Event) (s : State) :
    performed fs (transacted es s) = transacted (es ++ fs) s := by
  rw [transacted, performed_withRegs, performed_performed, transacted]

@[simp] theorem transacted_transacted (es fs : List Event) (s : State) :
    transacted fs (transacted es s) = transacted (es ++ fs) s := by
  rw [transacted, performed_transacted]
  rfl

@[simp] theorem deselected_deselected (r : Regs) : deselected (deselected r) = deselected r := rfl

theorem transacted_eq_performed {s : State} (h : s.regs.cs = false) (es : List Event) :
    transacted es s = performed es s := by
  rw [transacted, deselected, ← h]
  rfl

@[simp] theorem dueEv_transacted (es : List Event) (s : State) (c : Comp) (err : Half) :
    dueEv (transacted es s) c err = dueEv s c err := by
  cases c <;> rfl

@[simp] theorem ended_transacted (es fs : List Event) (s : State) (r : Regs) (ok : Bool) (d : Data) :
    ended (transacted es s) fs r ok d = ended s (es ++ fs) r ok d := by
  rw [ended, performed_transacted]
  rfl

@[simp] theorem dueEv_eNone (s : State) (c : Comp) : dueEv s c eNone = [] := dueEv_zero s c

theorem finish_transacted (c : Comp) (err : Half) (ok : Bool) (d : Data) (es : List Event) (s : State) :
    finish c err ok d (transacted es s) = ended s (es ++ dueEv s c err) (deselected s.regs) ok d :=
  finish_eq c err ok d es _ s rfl

theorem repliesOf_append_iff {v : Env} {es fs : List Event} :
    repliesOf v (es ++ fs) = true ↔ repliesOf v es = true ∧ repliesOf (v.replay es) fs = true := by
  rw [repliesOf_append, Bool.and_eq_true]

/-! ## The framed transactions (R111, R112) -/

/-- What stands between `Sel` and `Desel` leaves the chip-select deasserted (R44). -/
theorem desel_performed_sel (es : List Event) (s : State) :
    desel (performed es (sel s)) = transacted (.sel :: (es ++ [.desel])) s := by
  rw [sel_eq, desel_eq, performed_withRegs, performed_withRegs, performed_performed, performed_performed]
  rfl

theorem regRead_eq {a : Byte} {b : List Byte} {s : State} (h : repliesOf s.env (readEv a b) = true) :
    regRead a b.length s = (some b, transacted (readEv a b) s) := by
  simp only [readEv, repliesOf_cons, Bool.and_eq_true] at h
  obtain ⟨-, htx, hrx, -⟩ := h
  simp only [regRead, tx_eq (s := sel s) htx, rx_eq (s := performed [.tx [a] .ok] (sel s)) hrx,
    performed_performed, desel_performed_sel]
  rfl

theorem regRead_eq_lost {a : Byte} {n : Nat} {o : Option (List Byte)} {s : State}
    (h : repliesOf s.env (lostReadEv a n o) = true) :
    regRead a n s = (none, transacted (lostReadEv a n o) s) := by
  cases o with
  | none =>
    simp only [lostReadEv, repliesOf_cons, Bool.and_eq_true] at h
    obtain ⟨-, htx, -⟩ := h
    simp only [regRead, tx_eq (s := sel s) htx, desel_performed_sel]
    rfl
  | some b =>
    simp only [lostReadEv, repliesOf_cons, Bool.and_eq_true] at h
    obtain ⟨-, htx, hrx, -⟩ := h
    simp only [regRead, tx_eq (s := sel s) htx, rx_eq (s := performed [.tx [a] .ok] (sel s)) hrx,
      performed_performed, desel_performed_sel]
    rfl

theorem regWrite_eq {a : Byte} {b : List Byte} {st : Status} {s : State}
    (h : repliesOf s.env (writeEv a b st) = true) : regWrite a b s = (st, transacted (writeEv a b st) s) := by
  simp only [writeEv, repliesOf_cons, Bool.and_eq_true] at h
  obtain ⟨-, htx, -⟩ := h
  simp only [regWrite, writeFlag, tx_eq (s := sel s) htx, desel_performed_sel]
  rfl

/-- A register read succeeds or is lost, whatever the environment answers. -/
theorem repliesOf_read (a : Byte) (n : Nat) (v : Env) :
    (∃ b, b.length = n ∧ repliesOf v (readEv a b) = true) ∨ ∃ o, repliesOf v (lostReadEv a n o) = true := by
  cases htx : (v.tx [a]).1 with
  | fail => exact .inr ⟨none, by simp [lostReadEv, replyOf, Env.apply, htx]⟩
  | ok =>
    have hlen := env_rx_length (v.tx [a]).2 n
    rcases hrx : ((v.tx [a]).2.rx n).1 with ⟨b, _ | _⟩
    · rw [hrx] at hlen
      exact .inl ⟨b, hlen, by simp_all [readEv, replyOf, Env.apply]⟩
    · exact .inr ⟨some b, by simp [lostReadEv, replyOf, Env.apply, htx, hrx]⟩

theorem repliesOf_write (a : Byte) (b : List Byte) (v : Env) : ∃ st, repliesOf v (writeEv a b st) = true :=
  ⟨(v.tx ((a ||| 0x80) :: b)).1, by simp [writeEv, replyOf, Env.apply]⟩

/-- Settles O32: the equations of the two transactions, and the reply there is at each transfer. -/
theorem registerTransactions : Obligations.RegisterTransactions :=
  ⟨fun _ _ _ h => regRead_eq h, fun _ _ _ _ h => regRead_eq_lost h, fun _ _ _ _ h => regWrite_eq h,
    fun a n b s => ⟨repliesOf_read a n s.env, repliesOf_write a b s.env⟩⟩

theorem readConfig_eq {c : Byte} {s : State} (h : repliesOf s.env (readEv 0x00 [c]) = true) :
    readConfig s = (some c, transacted (readEv 0x00 [c]) s) := by
  have hread : regRead addrConfig 1 s = (some [c], _) := regRead_eq h
  rw [readConfig, hread]
  rfl

theorem readConfig_eq_lost {o : Option (List Byte)} {s : State} (h : repliesOf s.env (lostReadEv 0x00 1 o) = true) :
    readConfig s = (none, transacted (lostReadEv 0x00 1 o) s) := by
  have hread : regRead addrConfig 1 s = (none, _) := regRead_eq_lost h
  rw [readConfig, hread]
  rfl

/-! ## Ends of the commands -/

/-- A failed transfer ends a command (R110). -/
theorem finishTransport_transacted (es : List Event) (s : State) :
    finishTransport .rtd (transacted es s) = ended s (es ++ dueEv s .rtd 0x0001) (deselected s.regs) false 0 :=
  finish_transacted .rtd eTransport false 0 es s

/-- A command's last write: `ok` is its status, a failure raises `E_TRANSPORT`. -/
theorem finishWrite_regWrite {a : Byte} {b : List Byte} {st : Status} {s : State}
    (h : repliesOf s.env (writeEv a b st) = true) :
    finishWrite (regWrite a b s)
      = ended s (writeEv a b st ++ dueEv s .rtd (if st = .ok then 0 else 0x0001)) (deselected s.regs)
          (st == .ok) 0 := by
  rw [regWrite_eq h]
  cases st with
  | ok => exact finish_transacted .rtd eNone true 0 _ s
  | fail => exact finishTransport_transacted _ s

/-! ## The converter's pair of bytes -/

theorem rawOfList_pair (d0 d1 : Byte) : rawOfList [d0, d1] = d0 ++ d1 := rfl

theorem toNat_append_byte (d0 d1 : Byte) : (d0 ++ d1 : Half).toNat = d0.toNat * 256 + d1.toNat := by
  rw [BitVec.toNat_append, ← Nat.shiftLeft_add_eq_or_of_lt d1.isLt, Nat.shiftLeft_eq]

theorem faultFlag_pair (d0 d1 : Byte) : faultFlag (rawOfList [d0, d1]) = d1.getLsbD 0 := by
  rw [rawOfList_pair, faultFlag, BitVec.getLsbD_append, if_pos (by decide)]

/-- The temperature of a pair is that of its bits 15:1 (R41, R49). -/
theorem tempData_pair (p : Params) (d0 d1 : Byte) : tempData (p.rawTemp (rawOfList [d0, d1])) = pairTemp p d0 d1 := by
  rw [tempData, Params.rawTemp, code15_eq, rawOfList_pair, toNat_append_byte, pairTemp]

theorem bytesOfRaw_append (hi lo : Byte) : bytesOfRaw (hi ++ lo) = [hi, lo] := by
  rw [bytesOfRaw, BitVec.extractLsb'_append_eq_left, BitVec.extractLsb'_append_eq_right]

/-- Bit 0 of a written threshold is 0 (R119). -/
theorem getLsbD_zero_of_t2c {p : Params} {T : Int} {hi lo : Byte} (h : p.t2c T = hi ++ lo) :
    lo.getLsbD 0 = false := by
  have heven : (hi ++ lo : Half).toNat = 2 * (p.satCode T).toNat := h ▸ t2c_toNat p T
  rw [toNat_append_byte] at heven
  rw [BitVec.getLsbD, Nat.testBit_zero, decide_eq_false_iff_not]
  omega

/-! ## `RTD.INIT` (R114) -/

/-- Settles O33: the read leaves its events whether it succeeds or is lost, and the write that follows ends the
command. -/
theorem rtdInitWritesConfig : Obligations.RtdInitWritesConfig := by
  intro filter first st s hfirst h
  obtain ⟨hread, hwrite⟩ := repliesOf_append_iff.mp h
  have thrown : (regRead addrConfig 1 s).2 = transacted first s := by
    rcases hfirst with ⟨c, rfl⟩ | ⟨o, rfl⟩
    · exact congrArg Prod.snd (regRead_eq (b := [c]) hread)
    · exact congrArg Prod.snd (regRead_eq_lost hread)
  have value : cfgVbias ||| (if filter then cfgFilt50 else 0) = if filter then 0x81 else 0x80 := by
    cases filter <;> rfl
  show Host.Outcome.next (finishWrite (writeConfig _ _)) = _
  rw [thrown, value, writeConfig, addrConfig, finishWrite_regWrite (s := transacted first s) hwrite]
  simp

/-! ## `RTD.START` and `RTD.STOP` (R116, R117) -/

theorem modifyConfig_eq {f : Byte → Byte} {c : Byte} {st : Status} {s : State}
    (h : repliesOf s.env (readEv 0x00 [c] ++ writeEv 0x00 [f c] st) = true) :
    modifyConfig f s
      = ended s (readEv 0x00 [c] ++ writeEv 0x00 [f c] st ++ dueEv s .rtd (if st = .ok then 0 else 0x0001))
          (deselected s.regs) (st == .ok) 0 := by
  obtain ⟨hread, hwrite⟩ := repliesOf_append_iff.mp h
  rw [modifyConfig, readConfig_eq hread]
  dsimp only
  rw [writeConfig, addrConfig, finishWrite_regWrite (s := transacted (readEv 0x00 [c]) s) hwrite]
  simp

theorem modifyConfig_eq_lost {f : Byte → Byte} {o : Option (List Byte)} {s : State}
    (h : repliesOf s.env (lostReadEv 0x00 1 o) = true) :
    modifyConfig f s = ended s (lostReadEv 0x00 1 o ++ dueEv s .rtd 0x0001) (deselected s.regs) false 0 := by
  rw [modifyConfig, readConfig_eq_lost h]
  exact finishTransport_transacted _ s

/-- Settles O36: both commands are `modifyConfig`, and `~cfgAuto` is `0xBF`. -/
theorem continuousModeSwitch : Obligations.ContinuousModeSwitch := by
  intro c st o s
  refine ⟨fun h => ?start, fun h => ?stop, fun h => ⟨?startLost, ?stopLost⟩⟩
  case start => exact congrArg Host.Outcome.next (modifyConfig_eq h)
  case stop => exact congrArg Host.Outcome.next (modifyConfig_eq (f := fun c => c &&& ~~~cfgAuto) h)
  case startLost | stopLost => exact congrArg Host.Outcome.next (modifyConfig_eq_lost h)

/-! ## `RTD.READ` (R113, R118) -/

theorem readTemp_eq {d0 d1 : Byte} {s : State} (h : repliesOf s.env (readEv 0x01 [d0, d1]) = true) :
    readTemp s
      = ended s (readEv 0x01 [d0, d1] ++ dueEv s .rtd (if d1.getLsbD 0 then 0x0100 else 0)) (deselected s.regs)
          (!d1.getLsbD 0) (pairTemp s.params d0 d1) := by
  have hread : regRead addrData 2 s = (some [d0, d1], transacted (readEv 0x01 [d0, d1]) s) := regRead_eq h
  have hcause : raiseIf (d1.getLsbD 0) eGeneralFault eNone = if d1.getLsbD 0 then 0x0100 else 0 := by
    cases d1.getLsbD 0 <;> rfl
  rw [readTemp, hread]
  dsimp only
  rw [faultFlag_pair, transacted_params, tempData_pair, hcause, finish_transacted]

theorem readTemp_eq_lost {o : Option (List Byte)} {s : State} (h : repliesOf s.env (lostReadEv 0x01 2 o) = true) :
    readTemp s = ended s (lostReadEv 0x01 2 o ++ dueEv s .rtd 0x0001) (deselected s.regs) false 0 := by
  have hread : regRead addrData 2 s = (none, transacted (lostReadEv 0x01 2 o) s) := regRead_eq_lost h
  rw [readTemp, hread]
  exact finishTransport_transacted _ s

/-- Settles O37: the command is `ReadTemp()`. -/
theorem temperatureReading : Obligations.TemperatureReading :=
  fun _ _ _ _ => ⟨fun h => congrArg Host.Outcome.next (readTemp_eq h),
    fun h => congrArg Host.Outcome.next (readTemp_eq_lost h)⟩

/-! ## The thresholds (R119 to R122) -/

theorem writeThreshold_eq {a : Byte} {T : Int} {hi lo : Byte} {st : Status} {s : State}
    (hcode : s.params.t2c T = hi ++ lo) (h : repliesOf s.env (writeEv a [hi, lo] st) = true) :
    writeThreshold a T s
      = ended s (writeEv a [hi, lo] st ++ dueEv s .rtd (if st = .ok then 0 else 0x0001)) (deselected s.regs)
          (st == .ok) 0 := by
  rw [writeThreshold, hcode, bytesOfRaw_append, finishWrite_regWrite h]

/-- Settles O38: both commands are `writeThreshold`, and the code is even. -/
theorem thresholdWrites : Obligations.ThresholdWrites :=
  fun _ _ _ _ _ hcode => ⟨getLsbD_zero_of_t2c hcode, fun h => congrArg Host.Outcome.next (writeThreshold_eq hcode h),
    fun h => congrArg Host.Outcome.next (writeThreshold_eq hcode h)⟩

theorem readThreshold_eq {a d0 d1 : Byte} {s : State} (h : repliesOf s.env (readEv a [d0, d1]) = true) :
    readThreshold a s = ended s (readEv a [d0, d1]) (deselected s.regs) true (pairTemp s.params d0 d1) := by
  have hread : regRead a 2 s = (some [d0, d1], transacted (readEv a [d0, d1]) s) := regRead_eq h
  rw [readThreshold, hread]
  dsimp only
  rw [transacted_params, tempData_pair, finish_transacted, dueEv_eNone, List.append_nil]

theorem readThreshold_eq_lost {a : Byte} {o : Option (List Byte)} {s : State}
    (h : repliesOf s.env (lostReadEv a 2 o) = true) :
    readThreshold a s = ended s (lostReadEv a 2 o ++ dueEv s .rtd 0x0001) (deselected s.regs) false 0 := by
  rw [readThreshold, regRead_eq_lost h]
  exact finishTransport_transacted _ s

/-- Settles O39: both commands are `readThreshold`. -/
theorem thresholdReads : Obligations.ThresholdReads :=
  fun _ _ _ _ => ⟨fun h => congrArg Host.Outcome.next (readThreshold_eq h),
    fun h => congrArg Host.Outcome.next (readThreshold_eq h),
    fun h => congrArg Host.Outcome.next (readThreshold_eq_lost h),
    fun h => congrArg Host.Outcome.next (readThreshold_eq_lost h)⟩

/-! ## A device that stores what is written -/

theorem env_tx_write_taken {v : Env} {a : Byte} {payload : List Byte} {q : List PutReply} (h : v.txQ = taken :: q) :
    v.tx ((a ||| 0x80) :: payload)
      = (.ok, { v with txQ := q, rtdRegs := v.rtdRegs.store (a.setWidth 7).toNat payload [] true }) := by
  have hflag : (a ||| 0x80).getLsbD 7 = true := by simp
  have haddr : (a ||| 0x80).setWidth 7 = a.setWidth 7 := by simp [BitVec.setWidth_or]
  simp only [Env.tx, takeTx_cons v _ q h, Env.deviceTx, hflag, haddr, if_true]
  rfl

theorem env_tx_read_taken {v : Env} {a : Byte} {q : List PutReply} (ha : a.getLsbD 7 = false)
    (h : v.txQ = taken :: q) : v.tx [a] = (.ok, { v with txQ := q, rtdPtr := a.setWidth 7 }) := by
  simp only [Env.tx, takeTx_cons v _ q h, Env.deviceTx, ha]
  rfl

theorem env_rx_held {v : Env} {n : Nat} {q : List GetReply} (h : v.rxQ = held :: q) :
    v.rx n = (((List.range n).map fun i => v.rtdByte (v.rtdPtr.toNat + i), .ok), { v with rxQ := q }) := by
  simp only [Env.rx, takeRx_cons v _ q h]
  rfl

/-- What is stored at an address on is held there, byte for byte. -/
theorem map_rtdByte_of_stored {v : Env} {m : Memory} {a : Nat} {b : List Byte}
    (h : v.rtdRegs = m.store a b [] true) : ((List.range b.length).map fun i => v.rtdByte (a + i)) = b := by
  refine List.ext_getElem (by simp) fun i _ hi => ?_
  rw [List.getElem_map, List.getElem_range, Env.rtdByte, h, Memory.read_store_inside b m a i hi, Option.getD_some]

/-- Bytes written to a register and then read from it come back (R45, R112, R111). -/
theorem repliesOf_write_read {v : Env} {a : Byte} (b : List Byte) {q : List PutReply} {q' : List GetReply}
    (ha : a.getLsbD 7 = false) (htx : v.txQ = taken :: taken :: q) (hrx : v.rxQ = held :: q') :
    repliesOf v (writeEv a b .ok ++ readEv a b) = true := by
  obtain ⟨w, hwrite, hw⟩ : ∃ w, v.tx ((a ||| 0x80) :: b) = (.ok, w)
      ∧ w = { v with txQ := taken :: q, rtdRegs := v.rtdRegs.store (a.setWidth 7).toNat b [] true } :=
    ⟨_, env_tx_write_taken htx, rfl⟩
  have hread : w.tx [a] = (.ok, { w with txQ := q, rtdPtr := a.setWidth 7 }) :=
    env_tx_read_taken ha (by rw [hw])
  have hbytes : ({ w with txQ := q, rtdPtr := a.setWidth 7 }.rx b.length).1 = (b, .ok) := by
    rw [env_rx_held (q := q') (by rw [hw]; exact hrx)]
    exact congrArg (·, Status.ok) (map_rtdByte_of_stored (m := v.rtdRegs) (by rw [hw]))
  simp only [writeEv, readEv, List.cons_append, List.nil_append, repliesOf_cons, repliesOf_nil, replyOf, Env.apply,
    hwrite, hread, hbytes, decide_true, Bool.and_self]

/-- A threshold written and read back at its address `a`, by the commands that do so. -/
theorem readThreshold_writeThreshold {a : Byte} {T : Int} {s : State} {q : List PutReply} {q' : List GetReply}
    (ha : a.getLsbD 7 = false) (htx : s.env.txQ = taken :: taken :: q) (hrx : s.env.rxQ = held :: q') :
    (readThreshold a (writeThreshold a T s)).responses
      = s.responses ++ [{ ok := true, data := 0 },
          { ok := true, data := 0#32 ++ BitVec.ofInt 32 (s.params.c2t ((s.params.t2c T).toNat / 2)) }] := by
  obtain ⟨hi, lo, hcode⟩ : ∃ hi lo : Byte, s.params.t2c T = hi ++ lo := ⟨_, _, (append_fields (k := 8) (n := 8) _).symm⟩
  obtain ⟨hwrite, hread⟩ := repliesOf_append_iff.mp (repliesOf_write_read [hi, lo] ha htx hrx)
  have hset : writeThreshold a T s = ended s (writeEv a [hi, lo] .ok) (deselected s.regs) true 0 := by
    simpa using writeThreshold_eq hcode hwrite
  rw [hset, readThreshold_eq hread, hcode, toNat_append_byte]
  simp [ended, pairTemp]

/-- Settles O40: the bytes of the code come back, and no event of a command stores to the other pair (O21). -/
theorem thresholdReadsBack : Obligations.ThresholdReadsBack := by
  intro T s q q' htx hrx
  refine ⟨⟨_, _, rfl, rfl, ?_, ?_, readThreshold_writeThreshold (a := 0x03) (by decide) htx hrx⟩,
    ⟨_, _, rfl, rfl, ?_, ?_, readThreshold_writeThreshold (a := 0x05) (by decide) htx hrx⟩⟩
  · exact deviceRegisterFrame (.rtdSethi T) s _ 5 rfl (by simp [rtdWritten])
  · exact deviceRegisterFrame (.rtdSethi T) s _ 6 rfl (by simp [rtdWritten])
  · exact deviceRegisterFrame (.rtdSetlo T) s _ 3 rfl (by simp [rtdWritten])
  · exact deviceRegisterFrame (.rtdSetlo T) s _ 4 rfl (by simp [rtdWritten])

end Sys2Proof.Machine
end

section
/-!
Proofs about `RTD.READ1` (`42_rtd_driver.md` R115). The wait loop has one equation for each outcome of a ready test
(`oneShotWait_ready` and those after it). Tests that find "not ready" bring it to the test after them
(`oneShotWait_notReady_tests`), and that one ends it (`oneShotWait_concat`).
-/

namespace Sys2Proof.Machine

/-! ## Spaced polls -/

/-- Polls with a delay after each. -/
def delayedPolls (ms : Nat) (polls : List (List Event)) : List Event := polls.flatMap fun es => es ++ [.delay ms]

@[simp] theorem delayedPolls_nil (ms : Nat) : delayedPolls ms [] = [] := rfl

@[simp] theorem delayedPolls_cons (ms : Nat) (es : List Event) (polls : List (List Event)) :
    delayedPolls ms (es :: polls) = es ++ .delay ms :: delayedPolls ms polls := by
  simp [delayedPolls]

@[simp] theorem spaced_nil (ms : Nat) : spaced ms [] = [] := rfl

/-- Every poll but the last has a delay after it (R115, R143). -/
theorem spaced_concat (ms : Nat) (polls : List (List Event)) (last : List Event) :
    spaced ms (polls ++ [last]) = delayedPolls ms polls ++ last := by
  induction polls with
  | nil => simp [spaced]
  | cons es polls ih =>
    have hcons : spaced ms (es :: (polls ++ [last])) = es ++ .delay ms :: spaced ms (polls ++ [last]) := by
      cases polls <;> simp [spaced]
    rw [List.cons_append, hcons, ih, delayedPolls_cons, List.append_assoc, List.cons_append]

/-! ## The ready test of R115 -/

theorem readyTest_line {level : Bool} {s : State} (hen : s.regs.drdyEn = true)
    (h : repliesOf s.env [.drdy level] = true) : readyTest s = (some (!level), performed [.drdy level] s) := by
  rw [repliesOf_cons, Bool.and_eq_true] at h
  obtain ⟨hlevel, -⟩ := h
  rw [readyTest, if_pos hen, drdy_eq hlevel]

theorem readyTest_config {c : Byte} {s : State} (hen : s.regs.drdyEn = false)
    (h : repliesOf s.env (readEv 0x00 [c]) = true) :
    readyTest s = (some (c &&& 0x20 == 0), transacted (readEv 0x00 [c]) s) := by
  rw [readyTest, hen, if_neg Bool.false_ne_true, readConfig_eq h]
  rfl

theorem readyTest_lost {o : Option (List Byte)} {s : State} (hen : s.regs.drdyEn = false)
    (h : repliesOf s.env (lostReadEv 0x00 1 o) = true) :
    readyTest s = (none, transacted (lostReadEv 0x00 1 o) s) := by
  rw [readyTest, hen, if_neg Bool.false_ne_true, readConfig_eq_lost h]

/-- With the registers `r`, the events `es` are a ready test with the outcome `o`. -/
def TestAnswers (r : Regs) (o : Option Bool) (es : List Event) : Prop :=
  ∀ s : State, s.regs = r → repliesOf s.env es = true → readyTest s = (o, performed es s)

theorem testAnswers_line {r : Regs} (level : Bool) (hen : r.drdyEn = true) :
    TestAnswers r (some (!level)) [.drdy level] := by
  rintro s rfl h
  exact readyTest_line hen h

theorem testAnswers_config {r : Regs} (c : Byte) (hcs : r.cs = false) (hen : r.drdyEn = false) :
    TestAnswers r (some (c &&& 0x20 == 0)) (readEv 0x00 [c]) := by
  rintro s rfl h
  rw [readyTest_config hen h, transacted_eq_performed hcs]

theorem testAnswers_lost {r : Regs} (o : Option (List Byte)) (hcs : r.cs = false) (hen : r.drdyEn = false) :
    TestAnswers r none (lostReadEv 0x00 1 o) := by
  rintro s rfl h
  rw [readyTest_lost hen h, transacted_eq_performed hcs]

theorem notReadyTest.testAnswers {s : State} {es : List Event} (h : notReadyTest s es) :
    TestAnswers (deselected s.regs) (some false) es := by
  unfold notReadyTest at h
  split at h
  · next hen => exact h ▸ testAnswers_line true hen
  · next hen =>
    obtain ⟨c, rfl, hc⟩ := h
    rw [← beq_eq_false_iff_ne.mpr hc]
    exact testAnswers_config c rfl (Bool.eq_false_of_not_eq_true hen)

theorem isReadyTest.testAnswers {s : State} {es : List Event} (h : isReadyTest s es) :
    TestAnswers (deselected s.regs) (some true) es := by
  unfold isReadyTest at h
  split at h
  · next hen => exact h ▸ testAnswers_line false hen
  · next hen =>
    obtain ⟨c, rfl, hc⟩ := h
    rw [← beq_iff_eq.mpr hc]
    exact testAnswers_config c rfl (Bool.eq_false_of_not_eq_true hen)

/-! ## The wait loop of R115 -/

theorem oneShotWait_ready {k : Nat} {s t : State} (h : readyTest s = (some true, t)) :
    oneShotWait (k + 1) s = (.ready, t) := by
  rw [oneShotWait, h]

theorem oneShotWait_abort {k : Nat} {s t : State} (h : readyTest s = (none, t)) :
    oneShotWait (k + 1) s = (.abort, t) := by
  rw [oneShotWait, h]

theorem oneShotWait_notReady_last {s t : State} (h : readyTest s = (some false, t)) :
    oneShotWait 1 s = (.timeout, t) := by
  rw [oneShotWait, h]
  rfl

theorem oneShotWait_notReady {k : Nat} {s t : State} (h : readyTest s = (some false, t)) :
    oneShotWait (k + 2) s = oneShotWait (k + 1) (delay t.regs.pollMs t) := by
  rw [oneShotWait, h]
  rfl

section
variable {r : Regs} {tests : List (List Event)} {s : State}

/-- Tests that find "not ready" bring the loop to the test after them. -/
theorem oneShotWait_notReady_tests (k : Nat) (hn : ∀ es ∈ tests, TestAnswers r (some false) es) (hs : s.regs = r)
    (h : repliesOf s.env (delayedPolls r.pollMs tests) = true) :
    oneShotWait (tests.length + (k + 1)) s = oneShotWait (k + 1) (performed (delayedPolls r.pollMs tests) s) := by
  induction tests generalizing s with
  | nil => simp
  | cons es tests ih =>
    obtain ⟨hes, hn⟩ := List.forall_mem_cons.mp hn
    rw [delayedPolls_cons, repliesOf_append_iff, repliesOf_cons, Bool.and_eq_true] at h
    obtain ⟨htest, -, hrest⟩ := h
    rw [List.length_cons, show tests.length + 1 + (k + 1) = tests.length + k + 2 by omega,
      oneShotWait_notReady (hes s hs htest), delay_eq, performed_regs, hs, Nat.add_assoc,
      ih (s := performed [.delay r.pollMs] (performed es s)) hn hs hrest]
    simp

/-- The loop at its last test, whose outcome `o` ends it with `e`. -/
theorem oneShotWait_concat {k : Nat} {o : Option Bool} {e : WaitEnd} {last : List Event}
    (hend : ∀ {u t}, readyTest u = (o, t) → oneShotWait (k + 1) u = (e, t))
    (hn : ∀ es ∈ tests, TestAnswers r (some false) es) (hlast : TestAnswers r o last) (hs : s.regs = r)
    (h : repliesOf s.env (spaced r.pollMs (tests ++ [last])) = true) :
    oneShotWait (tests.length + (k + 1)) s = (e, performed (spaced r.pollMs (tests ++ [last])) s) := by
  rw [spaced_concat, repliesOf_append_iff] at h
  obtain ⟨htests, hreply⟩ := h
  rw [oneShotWait_notReady_tests k hn hs htests, hend (hlast (performed (delayedPolls r.pollMs tests) s) hs hreply),
    performed_performed, spaced_concat]

/-- The loop that uses up its tests. -/
theorem oneShotWait_timeout (hn : ∀ es ∈ tests, TestAnswers r (some false) es) (hs : s.regs = r)
    (h : repliesOf s.env (spaced r.pollMs tests) = true) :
    oneShotWait tests.length s = (.timeout, performed (spaced r.pollMs tests) s) := by
  rcases List.eq_nil_or_concat' tests with rfl | ⟨init, last, rfl⟩
  · rw [spaced_nil, performed_nil]
    rfl
  · rw [List.length_append]
    exact oneShotWait_concat oneShotWait_notReady_last (fun es hes => hn es (by simp [hes])) (hn last (by simp)) hs h

end

/-! ## `RTD.READ1` (R115) -/

/-- The events of `RTD.READ1` before its wait. -/
def oneShotStart (c : Byte) : List Event := readEv 0x00 [c] ++ writeEv 0x00 [c ||| 0x20] .ok

section
variable {c : Byte} {s : State}

theorem exec_rtdRead1_started (h : repliesOf s.env (oneShotStart c) = true) :
    exec .rtdRead1 s
      = .next (finishOneShot (oneShotWait s.regs.osPollBound (transacted (oneShotStart c) s))) := by
  obtain ⟨hread, hwrite⟩ := repliesOf_append_iff.mp h
  have hstart : writeConfig (c ||| cfgOneshot) (transacted (readEv 0x00 [c]) s)
      = (.ok, transacted (oneShotStart c) s) := by
    rw [writeConfig, addrConfig, cfgOneshot, regWrite_eq (s := transacted (readEv 0x00 [c]) s) hwrite,
      transacted_transacted]
    rfl
  rw [exec, execRtdRead1, readConfig_eq hread]
  dsimp only
  rw [hstart]
  rfl

/-- A start that is not written (R110). -/
theorem exec_rtdRead1_lostStart (h : repliesOf s.env (readEv 0x00 [c] ++ writeEv 0x00 [c ||| 0x20] .fail) = true) :
    exec .rtdRead1 s
      = .next (ended s (readEv 0x00 [c] ++ writeEv 0x00 [c ||| 0x20] .fail ++ dueEv s .rtd 0x0001)
          (deselected s.regs) false 0) := by
  obtain ⟨hread, hwrite⟩ := repliesOf_append_iff.mp h
  rw [exec, execRtdRead1, readConfig_eq hread]
  dsimp only
  rw [writeConfig, addrConfig, cfgOneshot, regWrite_eq (s := transacted (readEv 0x00 [c]) s) hwrite,
    transacted_transacted]
  exact congrArg Host.Outcome.next (finishTransport_transacted _ s)

theorem exec_rtdRead1_lostRead {o : Option (List Byte)} (h : repliesOf s.env (lostReadEv 0x00 1 o) = true) :
    exec .rtdRead1 s
      = .next (ended s (lostReadEv 0x00 1 o ++ dueEv s .rtd 0x0001) (deselected s.regs) false 0) := by
  rw [exec, execRtdRead1, readConfig_eq_lost h]
  exact congrArg Host.Outcome.next (finishTransport_transacted _ s)

variable {tests : List (List Event)} (hn : ∀ es ∈ tests, notReadyTest s es)
include hn

theorem exec_rtdRead1_timeout (hlen : tests.length = s.regs.osPollBound)
    (h : repliesOf s.env (oneShotStart c ++ spaced s.regs.pollMs tests) = true) :
    exec .rtdRead1 s
      = .next (finishOneShot (.timeout, transacted (oneShotStart c ++ spaced s.regs.pollMs tests) s)) := by
  obtain ⟨hstart, hwait⟩ := repliesOf_append_iff.mp h
  rw [exec_rtdRead1_started hstart, ← hlen, ← performed_transacted]
  exact congrArg (Host.Outcome.next ∘ finishOneShot)
    (oneShotWait_timeout (r := deselected s.regs) (s := transacted (oneShotStart c) s)
      (fun es hes => (hn es hes).testAnswers) rfl hwait)

/-- The wait that ends with `e` at a test within the bound. -/
theorem exec_rtdRead1_waited {last : List Event} {o : Option Bool} {e : WaitEnd}
    (hend : ∀ {k u t}, readyTest u = (o, t) → oneShotWait (k + 1) u = (e, t))
    (hlast : TestAnswers (deselected s.regs) o last) (hlen : tests.length < s.regs.osPollBound)
    (h : repliesOf s.env (oneShotStart c ++ spaced s.regs.pollMs (tests ++ [last])) = true) :
    exec .rtdRead1 s
      = .next (finishOneShot (e, transacted (oneShotStart c ++ spaced s.regs.pollMs (tests ++ [last])) s)) := by
  obtain ⟨hstart, hwait⟩ := repliesOf_append_iff.mp h
  obtain ⟨k, hk⟩ := Nat.exists_eq_add_of_lt hlen
  rw [exec_rtdRead1_started hstart, hk, ← performed_transacted]
  exact congrArg (Host.Outcome.next ∘ finishOneShot)
    (oneShotWait_concat (r := deselected s.regs) (s := transacted (oneShotStart c) s) hend
      (fun es hes => (hn es hes).testAnswers) hlast rfl hwait)

end

/-- Settles O34: the tests bring the wait loop to its end, and each end closes the command. -/
theorem oneShotReading : Obligations.OneShotReading := by
  intro c tests s hn
  refine ⟨?data, ?lostData, ?timeout, ?lostTest, exec_rtdRead1_lostStart, fun _ => exec_rtdRead1_lostRead⟩
  case data =>
    intro last d0 d1 hlen hready h
    obtain ⟨hwait, hdata⟩ := repliesOf_append_iff.mp h
    rw [exec_rtdRead1_waited hn oneShotWait_ready hready.testAnswers hlen hwait, finishOneShot,
      readTemp_eq (s := transacted (oneShotStart c ++ spaced s.regs.pollMs (tests ++ [last])) s) hdata]
    simp [oneShotStart]
  case lostData =>
    intro last o hlen hready h
    obtain ⟨hwait, hdata⟩ := repliesOf_append_iff.mp h
    rw [exec_rtdRead1_waited hn oneShotWait_ready hready.testAnswers hlen hwait, finishOneShot,
      readTemp_eq_lost (s := transacted (oneShotStart c ++ spaced s.regs.pollMs (tests ++ [last])) s) hdata]
    simp [oneShotStart]
  case timeout =>
    intro hlen h
    rw [exec_rtdRead1_timeout hn hlen h]
    exact congrArg Host.Outcome.next (finish_transacted .rtd eFdStuck false 0 _ s)
  case lostTest =>
    intro o hlen hen h
    rw [exec_rtdRead1_waited hn oneShotWait_abort (testAnswers_lost o rfl hen) hlen h]
    exact congrArg Host.Outcome.next (finishTransport_transacted _ s)

end Sys2Proof.Machine
end

section
/-!
Proofs about the bounds of `RTD.READ1` (`42_rtd_driver.md` R115, `70_reset_and_hazards.md` R265). What a part of the
command spends is bounded whatever the environment answers (`Spends`), and the bounds of parts add up (`Spends.trans`).
-/

namespace Sys2Proof.Machine

/-! ## Events of bounded number -/

/-- The event is a delay. -/
def isDelay (e : Event) : Bool := match e with | .delay _ => true | _ => false

/-- The event is a sample of the data-ready line. -/
def isSample (e : Event) : Bool := match e with | .drdy _ => true | _ => false

/-- The event asks the device for `CONFIG`. -/
def isConfigRead (e : Event) : Bool := match e with | .tx [a] _ => a == 0x00 | _ => false

/-- The event opens a register transaction. -/
def isSel (e : Event) : Bool := match e with | .sel => true | _ => false

/-- Events with at most `d` delays, each of `ms`, `l` samples of the line, `c` reads of `CONFIG`, `x` transactions. -/
structure AtMost (ms d l c x : Nat) (es : List Event) : Prop where
  delays : countEvents isDelay es ≤ d
  interval : ∀ m, Event.delay m ∈ es → m = ms
  samples : countEvents isSample es ≤ l
  configReads : countEvents isConfigRead es ≤ c
  transactions : countEvents isSel es ≤ x

@[simp] theorem countEvents_nil (kind : Event → Bool) : countEvents kind [] = 0 := rfl

@[simp] theorem countEvents_cons (kind : Event → Bool) (e : Event) (es : List Event) :
    countEvents kind (e :: es) = countEvents kind es + if kind e then 1 else 0 := by
  simp only [countEvents, ← List.countP_eq_length_filter, List.countP_cons]

theorem countEvents_append (kind : Event → Bool) (es fs : List Event) :
    countEvents kind (es ++ fs) = countEvents kind es + countEvents kind fs := by
  simp [countEvents]

section
variable {ms d l c x d' l' c' x' : Nat} {es fs : List Event}

theorem AtMost.append (h : AtMost ms d l c x es) (g : AtMost ms d' l' c' x' fs) :
    AtMost ms (d + d') (l + l') (c + c') (x + x') (es ++ fs) where
  delays := by rw [countEvents_append]; exact Nat.add_le_add h.delays g.delays
  interval := fun m hm => (List.mem_append.mp hm).elim (h.interval m) (g.interval m)
  samples := by rw [countEvents_append]; exact Nat.add_le_add h.samples g.samples
  configReads := by rw [countEvents_append]; exact Nat.add_le_add h.configReads g.configReads
  transactions := by rw [countEvents_append]; exact Nat.add_le_add h.transactions g.transactions

theorem AtMost.mono (h : AtMost ms d l c x es) (hd : d ≤ d') (hl : l ≤ l') (hc : c ≤ c') (hx : x ≤ x') :
    AtMost ms d' l' c' x' es :=
  ⟨h.delays.trans hd, h.interval, h.samples.trans hl, h.configReads.trans hc, h.transactions.trans hx⟩

end

theorem atMost_nil (ms : Nat) : AtMost ms 0 0 0 0 [] := by
  constructor <;> simp

theorem atMost_delay (ms : Nat) : AtMost ms 1 0 0 0 [.delay ms] := by
  constructor <;> simp [isDelay, isSample, isConfigRead, isSel]

theorem atMost_sample (ms : Nat) (level : Bool) : AtMost ms 0 1 0 0 [.drdy level] := by
  constructor <;> simp [isDelay, isSample, isConfigRead, isSel]

theorem atMost_notify (ms : Nat) (comp : Comp) (m : Half) : AtMost ms 0 0 0 0 [.notify comp m] := by
  constructor <;> simp [isDelay, isSample, isConfigRead, isSel]

theorem atMost_write (ms : Nat) (a b : Byte) (st : Status) : AtMost ms 0 0 0 1 [.sel, .tx [a, b] st, .desel] := by
  constructor <;> simp [isDelay, isSample, isConfigRead, isSel]

theorem atMost_read (ms : Nat) {a : Byte} {n : Nat} {es : List Event} {o : Option (List Byte)}
    (h : readEvents a n es o) : AtMost ms 0 0 (if a == 0x00 then 1 else 0) 1 es := by
  rcases h with ⟨rfl, -⟩ | ⟨b, rfl, -⟩ | ⟨b, rfl, -⟩ <;> constructor <;>
    simp [isDelay, isSample, isConfigRead, isSel]

/-! ## What the parts of the command spend -/

/-- From `s` to `t` such events happen, and no register changes but the chip-select. -/
def Spends (s t : State) (d l c x : Nat) : Prop :=
  ∃ es, t.trace = s.trace ++ es ∧ AtMost s.regs.pollMs d l c x es ∧ ∃ cs, t.regs = { s.regs with cs := cs }

section
variable {s t u : State} {d l c x d' l' c' x' : Nat}

theorem Spends.trans (h : Spends s t d l c x) (g : Spends t u d' l' c' x') :
    Spends s u (d + d') (l + l') (c + c') (x + x') := by
  obtain ⟨es, htrace, hmost, cs, hregs⟩ := h
  obtain ⟨fs, gtrace, gmost, cs', gregs⟩ := g
  rw [hregs] at gmost gregs
  exact ⟨es ++ fs, by rw [gtrace, htrace, List.append_assoc], hmost.append gmost, cs', gregs⟩

theorem Spends.mono (h : Spends s t d l c x) (hd : d ≤ d') (hl : l ≤ l') (hc : c ≤ c') (hx : x ≤ x') :
    Spends s t d' l' c' x' := by
  obtain ⟨es, htrace, hmost, hregs⟩ := h
  exact ⟨es, htrace, hmost.mono hd hl hc hx, hregs⟩

theorem Spends.drdyEn (h : Spends s t d l c x) : t.regs.drdyEn = s.regs.drdyEn := by
  obtain ⟨-, -, -, cs, hregs⟩ := h
  rw [hregs]
  rfl

theorem Spends.osPollBound (h : Spends s t d l c x) : t.regs.osPollBound = s.regs.osPollBound := by
  obtain ⟨-, -, -, cs, hregs⟩ := h
  rw [hregs]
  rfl

end

theorem spends_refl (s : State) : Spends s s 0 0 0 0 := ⟨[], by simp, atMost_nil _, s.regs.cs, rfl⟩

theorem delay_spends (s : State) : Spends s (delay s.regs.pollMs s) 1 0 0 0 :=
  ⟨_, delay_trace _ s, atMost_delay _, s.regs.cs, rfl⟩

theorem drdy_spends {s t : State} {level : Bool} (h : drdy s = (level, t)) : Spends s t 0 1 0 0 := by
  obtain ⟨hmoves, hregs⟩ := drdy_spec h
  exact ⟨_, hmoves.trace, atMost_sample _ level, s.regs.cs, hregs⟩

theorem readConfig_spends {s t : State} {o : Option Byte} (h : readConfig s = (o, t)) : Spends s t 0 0 1 1 := by
  obtain ⟨es, b, hmoves, hregs, hread, -⟩ := readConfig_spec h
  exact ⟨es, hmoves.trace, atMost_read _ hread, false, hregs⟩

theorem writeConfig_spends {b : Byte} {s t : State} {st : Status} (h : writeConfig b s = (st, t)) :
    Spends s t 0 0 0 1 := by
  obtain ⟨hmoves, hregs⟩ := writeConfig_spec h
  exact ⟨_, hmoves.trace, atMost_write _ _ b st, false, hregs⟩

theorem finish_spends (err : Half) (ok : Bool) (d : Data) (s : State) : Spends s (finish .rtd err ok d s) 0 0 0 0 := by
  refine ⟨_, finish_trace .rtd err ok d s, ?_, s.regs.cs, finish_regs .rtd err ok d s⟩
  split
  · exact atMost_notify _ _ _
  · exact atMost_nil _

theorem readTemp_spends (s : State) : Spends s (readTemp s) 0 0 0 1 := by
  unfold readTemp
  rcases hread : regRead addrData 2 s with ⟨b, s1⟩
  obtain ⟨es, hmoves, hregs, hevents⟩ := regRead_spec hread
  have one : Spends s s1 0 0 0 1 := ⟨es, hmoves.trace, atMost_read _ hevents, false, hregs⟩
  cases b with
  | none => exact one.trans (finish_spends _ _ _ s1)
  | some bytes => exact one.trans (finish_spends _ _ _ s1)

/-- One ready test: a sample of the line where it is attached, else a read of `CONFIG`. -/
theorem readyTest_spends {s t : State} {o : Option Bool} (h : readyTest s = (o, t)) :
    Spends s t 0 (if s.regs.drdyEn then 1 else 0) (if s.regs.drdyEn then 0 else 1)
      (if s.regs.drdyEn then 0 else 1) := by
  unfold readyTest at h
  split at h
  · next hen =>
    rw [if_pos hen, if_pos hen]
    obtain ⟨-, rfl⟩ := Prod.mk.inj h
    exact drdy_spends rfl
  · next hen =>
    rw [if_neg hen, if_neg hen]
    rcases hread : readConfig s with ⟨b, s1⟩
    rw [hread] at h
    cases b <;> obtain ⟨-, rfl⟩ := Prod.mk.inj h <;> exact readConfig_spends hread

/-- The loop of R115 with `k` tests left makes at most that many, a delay only between two. -/
theorem oneShotWait_spends {k : Nat} {s t : State} {e : WaitEnd} (h : oneShotWait k s = (e, t)) :
    Spends s t (k - 1) (if s.regs.drdyEn then k else 0) (if s.regs.drdyEn then 0 else k)
      (if s.regs.drdyEn then 0 else k) := by
  induction k generalizing s with
  | zero =>
    obtain ⟨-, rfl⟩ := Prod.mk.inj h
    exact (spends_refl s).mono (by omega) (by omega) (by omega) (by omega)
  | succ k ih =>
    rcases htest : readyTest s with ⟨o, s1⟩
    have one := readyTest_spends htest
    have only : t = s1 → Spends s t (k + 1 - 1) (if s.regs.drdyEn then k + 1 else 0)
        (if s.regs.drdyEn then 0 else k + 1) (if s.regs.drdyEn then 0 else k + 1) := by
      rintro rfl
      exact one.mono (by omega) (by split <;> omega) (by split <;> omega) (by split <;> omega)
    match o with
    | some true => exact only (congrArg Prod.snd (h.symm.trans (oneShotWait_ready htest)))
    | none => exact only (congrArg Prod.snd (h.symm.trans (oneShotWait_abort htest)))
    | some false =>
      cases k with
      | zero => exact only (congrArg Prod.snd (h.symm.trans (oneShotWait_notReady_last htest)))
      | succ k =>
        rw [oneShotWait_notReady htest] at h
        have delayed := one.trans (delay_spends s1)
        have rest := ih h
        rw [delayed.drdyEn] at rest
        exact (delayed.trans rest).mono (by omega) (by split <;> omega) (by split <;> omega) (by split <;> omega)

theorem finishOneShot_spends (e : WaitEnd) (s : State) : Spends s (finishOneShot (e, s)) 0 0 0 1 := by
  have stopped (err : Half) : Spends s (finish .rtd err false 0 s) 0 0 0 1 :=
    (finish_spends err false 0 s).mono le_rfl le_rfl le_rfl (by omega)
  cases e with
  | ready => exact readTemp_spends s
  | timeout => exact stopped eFdStuck
  | abort => exact stopped eTransport

/-- The parts of `RTD.READ1`: its first read, its write, the wait, the read of the data. -/
theorem exec_rtdRead1_spends {s t : State} (h : exec .rtdRead1 s = .next t) :
    Spends s t (s.regs.osPollBound - 1) (if s.regs.drdyEn then s.regs.osPollBound else 0)
      ((if s.regs.drdyEn then 0 else s.regs.osPollBound) + 1)
      ((if s.regs.drdyEn then 0 else s.regs.osPollBound) + 3) := by
  obtain rfl := Host.Outcome.next.inj h
  have lost (u : State) : Spends u (finishTransport .rtd u) 0 0 0 0 := finish_spends _ _ _ u
  rcases hread : readConfig s with ⟨o, s1⟩
  have first := readConfig_spends hread
  cases o with
  | none => exact (first.trans (lost s1)).mono (by omega) (by omega) (by omega) (by omega)
  | some b =>
    dsimp only
    rcases hwrite : writeConfig (b ||| cfgOneshot) s1 with ⟨st, s2⟩
    have start := first.trans (writeConfig_spends hwrite)
    cases st with
    | fail => exact (start.trans (lost s2)).mono (by omega) (by omega) (by omega) (by omega)
    | ok =>
      dsimp only
      rcases hwait : oneShotWait s2.regs.osPollBound s2 with ⟨e, s3⟩
      have waited := oneShotWait_spends hwait
      rw [start.osPollBound, start.drdyEn] at waited
      exact ((start.trans waited).trans (finishOneShot_spends e s3)).mono (by omega) (by omega) (by omega) (by omega)

/-- Settles O35: the bounds of the command's parts add up to those of the statement. -/
theorem oneShotWaitIsBounded : Obligations.OneShotWaitIsBounded := by
  intro s t h
  obtain ⟨es, htrace, hmost, -⟩ := exec_rtdRead1_spends h
  exact ⟨es, htrace, hmost.delays, hmost.interval, hmost.samples, hmost.configReads, hmost.transactions⟩

end Sys2Proof.Machine
end

section
/-!
Proofs about the poll loop of the fault cycles (`43_fault_detection.md` R143) and the arming value (R142). One read of
the loop has an equation for each outcome (`fdPollLoop_lost` and those after it); reads that find a cycle bit set bring
the loop to the read after them, whose outcome ends it (`fdPollLoop_concat`).
-/

namespace Sys2Proof.Machine

/-! ## The arming value (R142) -/

theorem getLsbD_cyc (c : Byte) (code : BitVec 2) {i : Nat} (hi : i < 8) :
    (cyc c code).getLsbD i
      = ((c.getLsbD i || (0x80 : Byte).getLsbD i) && (0x91 : Byte).getLsbD i
          || !decide (i < 2) && code.getLsbD (i - 2)) := by
  have hwide : i - 2 < 8 := by omega
  rw [cyc, BitVec.getLsbD_or, BitVec.getLsbD_and, BitVec.getLsbD_or, BitVec.getLsbD_shiftLeft,
    BitVec.getLsbD_setWidth]
  simp [hi, hwide]

/-- The cycle bits of `0x91` are clear, so those of the arming value are the code. -/
theorem cyc_code (c : Byte) (code : BitVec 2) : (cyc c code).extractLsb' 2 2 = code := by
  apply BitVec.eq_of_getLsbD_eq
  intro i hi
  have hclear : (0x91 : Byte).getLsbD (2 + i) = false := by interval_cases i <;> rfl
  have hge : ¬ 2 + i < 2 := by omega
  rw [BitVec.getLsbD_extractLsb', getLsbD_cyc c code (by omega), hclear]
  simp only [hi, hge, decide_true, decide_false, Bool.and_false, Bool.not_false, Bool.true_and, Bool.false_or,
    Nat.add_sub_cancel_left]

/-- Settles O41, bit by bit. -/
theorem armingValue : Obligations.ArmingValue := by
  intro c code
  refine ⟨?_, ?_, ?_, ?_, cyc_code c code, ?_, ?_⟩ <;> rw [getLsbD_cyc _ _ (by decide)] <;> simp

/-! ## The state after polls -/

/-- The state after the events `es` of polls, the last of which is the `n`-th. -/
def afterPolls (es : List Event) (n : Nat) (s : State) : State := setFdPolls (BitVec.ofNat 16 n) (transacted es s)

@[simp] theorem afterPolls_env (es : List Event) (n : Nat) (s : State) :
    (afterPolls es n s).env = s.env.replay es := rfl

theorem afterPolls_setFdPolls (es : List Event) (n : Nat) (p : Half) (s : State) :
    afterPolls es n (setFdPolls p s) = afterPolls es n s := rfl

theorem delay_setFdPolls (ms : Nat) (p : Half) (s : State) :
    delay ms (setFdPolls p s) = setFdPolls p (delay ms s) := rfl

theorem afterPolls_delay (ms : Nat) (es fs : List Event) (n m : Nat) (s : State) :
    afterPolls fs m (delay ms (afterPolls es n s)) = afterPolls (es ++ .delay ms :: fs) m s := by
  rw [afterPolls.eq_def es, delay_setFdPolls, afterPolls_setFdPolls, delay_eq, performed_transacted, afterPolls,
    transacted_transacted, List.append_assoc, List.singleton_append, afterPolls]

/-! ## One read of the loop -/

theorem cycleDone_iff (c : Byte) : cycleDone c = true ↔ c &&& 0x0C = 0 := beq_iff_eq

section
variable {k n : Nat} {c : Byte} {s s1 : State}

theorem fdPollLoop_lost (hr : readConfig s = (none, s1)) :
    fdPollLoop (k + 1) n s = (.abort, setFdPolls (BitVec.ofNat 16 (n + 1)) s1) := by
  rw [fdPollLoop, hr]

theorem fdPollLoop_done (hr : readConfig s = (some c, s1)) (hc : c &&& 0x0C = 0) :
    fdPollLoop (k + 1) n s = (.fin, setFdPolls (BitVec.ofNat 16 (n + 1)) s1) := by
  rw [fdPollLoop, hr]
  exact if_pos ((cycleDone_iff c).mpr hc)

theorem fdPollLoop_busy_last (hr : readConfig s = (some c, s1)) (hc : c &&& 0x0C ≠ 0) :
    fdPollLoop 1 n s = (.stuck, setFdPolls (BitVec.ofNat 16 (n + 1)) s1) := by
  rw [fdPollLoop, hr]
  exact if_neg (mt (cycleDone_iff c).mp hc)

theorem fdPollLoop_busy (hr : readConfig s = (some c, s1)) (hc : c &&& 0x0C ≠ 0) :
    fdPollLoop (k + 2) n s
      = fdPollLoop (k + 1) (n + 1) (delay s1.regs.pollMs (setFdPolls (BitVec.ofNat 16 (n + 1)) s1)) := by
  rw [fdPollLoop, hr]
  exact if_neg (mt (cycleDone_iff c).mp hc)

end

/-! ## The loop -/

/-- Reads of `CONFIG` that bring the bytes `cs`. -/
abbrev configReads (cs : List Byte) : List (List Event) := cs.map fun c => readEv 0x00 [c]

theorem configReads_cons (c : Byte) (cs : List Byte) :
    configReads (c :: cs) = readEv 0x00 [c] :: configReads cs := rfl

/-- With `k + 1` reads left, a read with the events `last` ends the loop with the verdict `v`. -/
def EndsPolls (k : Nat) (v : Verdict) (last : List Event) : Prop :=
  ∀ (n : Nat) (s : State), repliesOf s.env last = true → fdPollLoop (k + 1) n s = (v, afterPolls last (n + 1) s)

theorem endsPolls_lost (k : Nat) (o : Option (List Byte)) : EndsPolls k .abort (lostReadEv 0x00 1 o) :=
  fun _ _ h => fdPollLoop_lost (readConfig_eq_lost h)

theorem endsPolls_done (k : Nat) {c : Byte} (hc : c &&& 0x0C = 0) : EndsPolls k .fin (readEv 0x00 [c]) :=
  fun _ _ h => fdPollLoop_done (readConfig_eq h) hc

theorem endsPolls_busy {c : Byte} (hc : c &&& 0x0C ≠ 0) : EndsPolls 0 .stuck (readEv 0x00 [c]) :=
  fun _ _ h => fdPollLoop_busy_last (readConfig_eq h) hc

/-- The loop at its last read, whose events `last` end it with the verdict `v` (R143). -/
theorem fdPollLoop_concat {k ms : Nat} {v : Verdict} {last : List Event} {cs : List Byte}
    (hend : EndsPolls k v last)
    (hcs : ∀ c ∈ cs, c &&& 0x0C ≠ 0) (n : Nat) {s : State} (hms : s.regs.pollMs = ms)
    (h : repliesOf s.env (spaced ms (configReads cs ++ [last])) = true) :
    fdPollLoop (cs.length + (k + 1)) n s
      = (v, afterPolls (spaced ms (configReads cs ++ [last])) (n + cs.length + 1) s) := by
  rw [spaced_concat] at h ⊢
  induction cs generalizing n s with
  | nil => simpa using hend n s h
  | cons c cs ih =>
    obtain ⟨hc, hcs⟩ := List.forall_mem_cons.mp hcs
    simp only [configReads_cons, delayedPolls_cons, List.append_assoc, List.cons_append] at h ⊢
    obtain ⟨hread, hrest⟩ := repliesOf_append_iff.mp h
    rw [repliesOf_cons, Bool.and_eq_true] at hrest
    obtain ⟨-, hrest⟩ := hrest
    subst hms
    have hfirst : fdPollLoop (cs.length + k + 2) n s = fdPollLoop (cs.length + (k + 1)) (n + 1)
        (delay s.regs.pollMs (afterPolls (readEv 0x00 [c]) (n + 1) s)) := fdPollLoop_busy (readConfig_eq hread) hc
    rw [List.length_cons, show cs.length + 1 + (k + 1) = cs.length + k + 2 by omega, hfirst,
      ih hcs (n + 1) (s := delay s.regs.pollMs (afterPolls (readEv 0x00 [c]) (n + 1) s)) rfl hrest, afterPolls_delay,
      Nat.add_right_comm n 1]
    rfl

/-- `FdPoll` that makes a read: the bound allows the reads of the bytes `cs` and the last one. -/
theorem fdPoll_concat {v : Verdict} {last : List Event} {cs : List Byte} {s : State} {k : Nat}
    (hk : s.regs.fdPollBound = cs.length + (k + 1))
    (hend : EndsPolls k v last)
    (hcs : ∀ c ∈ cs, c &&& 0x0C ≠ 0)
    (h : repliesOf s.env (spaced s.regs.pollMs (configReads cs ++ [last])) = true) :
    fdPoll s
      = (v, afterPolls (spaced s.regs.pollMs (configReads cs ++ [last])) (cs.length + 1) s) := by
  have hloop := fdPollLoop_concat hend hcs 0 (s := setFdPolls 0 s) rfl h
  rw [fdPoll, hk, hloop, Nat.zero_add]
  rfl

/-- What `FdPoll` leaves after `n` reads: with no read it does not touch the chip-select. -/
def polled (es : List Event) (n : Nat) (s : State) : State :=
  (performed es s).withRegs { s.regs with fdPolls := BitVec.ofNat 16 n, cs := s.regs.cs && n == 0 }

theorem afterPolls_eq_polled (es : List Event) (n : Nat) (s : State) :
    afterPolls es (n + 1) s = polled es (n + 1) s := by
  rw [polled, beq_false_of_ne n.succ_ne_zero, Bool.and_false]
  rfl

theorem fdPoll_eq {v : Verdict} {n : Nat} {es : List Event} {s : State} (hp : fdPolled s v n es)
    (h : repliesOf s.env es = true) : fdPoll s = (v, polled es n s) := by
  obtain ⟨cs, hcs, hv⟩ := hp
  cases v with
  | fin =>
    obtain ⟨rfl, hle, c, hc, rfl⟩ := hv
    obtain ⟨k, hk⟩ := Nat.exists_eq_add_of_lt hle
    rw [fdPoll_concat hk (endsPolls_done k hc) hcs h, afterPolls_eq_polled]
  | abort =>
    obtain ⟨rfl, hle, o, rfl⟩ := hv
    obtain ⟨k, hk⟩ := Nat.exists_eq_add_of_lt hle
    rw [fdPoll_concat hk (endsPolls_lost k o) hcs h, afterPolls_eq_polled]
  | stuck =>
    obtain ⟨rfl, hbound, rfl⟩ := hv
    rcases List.eq_nil_or_concat' cs with rfl | ⟨init, c, rfl⟩
    · have hnone : fdPoll s = (.stuck, setFdPolls 0 s) := by rw [fdPoll, ← hbound]; rfl
      rw [hnone, polled]
      simp [setFdPolls]
    · rw [List.map_append, List.map_singleton] at h ⊢
      rw [List.length_append, List.length_singleton] at hbound ⊢
      rw [fdPoll_concat hbound.symm (endsPolls_busy (hcs c (by simp))) (fun b hb => hcs b (by simp [hb])) h,
        afterPolls_eq_polled]

/-! ## Every poll loop ends -/

/-- Within `k` reads either a read finds both cycle bits clear or is lost, or all of them find a bit set. -/
theorem polls_end (ms k : Nat) (v : Env) :
    (∃ cs : List Byte, cs.length = k ∧ (∀ c ∈ cs, c &&& 0x0C ≠ 0)
        ∧ repliesOf v (delayedPolls ms (configReads cs)) = true)
      ∨ ∃ (cs : List Byte) (last : List Event), cs.length < k ∧ (∀ c ∈ cs, c &&& 0x0C ≠ 0)
          ∧ repliesOf v (delayedPolls ms (configReads cs) ++ last) = true
          ∧ ((∃ c : Byte, c &&& 0x0C = 0 ∧ last = readEv 0x00 [c]) ∨ ∃ o, last = lostReadEv 0x00 1 o) := by
  induction k generalizing v with
  | zero => exact .inl ⟨[], rfl, by simp, rfl⟩
  | succ k ih =>
    obtain ⟨b, hb, hread⟩ | ⟨o, hlost⟩ := repliesOf_read 0x00 1 v
    · obtain ⟨c, rfl⟩ := List.length_eq_one_iff.mp hb
      by_cases hc : c &&& 0x0C = 0
      · exact .inr ⟨[], _, k.succ_pos, by simp, hread, .inl ⟨c, hc, rfl⟩⟩
      · have hnext {es : List Event} (h : repliesOf (v.replay (readEv 0x00 [c])) es = true) :
            repliesOf v (readEv 0x00 [c] ++ .delay ms :: es) = true :=
          repliesOf_append_iff.mpr ⟨hread, h⟩
        obtain ⟨cs, hlen, hcs, h⟩ | ⟨cs, last, hlen, hcs, h, hlast⟩ := ih (v.replay (readEv 0x00 [c]))
        · refine .inl ⟨c :: cs, by simp [hlen], List.forall_mem_cons.mpr ⟨hc, hcs⟩, ?_⟩
          rw [configReads_cons, delayedPolls_cons]
          exact hnext h
        · refine .inr ⟨c :: cs, last, by simp [hlen], List.forall_mem_cons.mpr ⟨hc, hcs⟩, ?_, hlast⟩
          rw [configReads_cons, delayedPolls_cons, List.append_assoc, List.cons_append]
          exact hnext h
    · exact .inr ⟨[], _, k.succ_pos, by simp, hlost, .inr ⟨o, rfl⟩⟩

/-- The delay after the last poll has no reply. -/
theorem repliesOf_spaced {v : Env} {ms : Nat} {polls : List (List Event)}
    (h : repliesOf v (delayedPolls ms polls) = true) : repliesOf v (spaced ms polls) = true := by
  rcases List.eq_nil_or_concat' polls with rfl | ⟨init, last, rfl⟩
  · rfl
  · have hsplit : delayedPolls ms (init ++ [last]) = (delayedPolls ms init ++ last) ++ [.delay ms] := by
      simp [delayedPolls]
    rw [hsplit] at h
    rw [spaced_concat]
    exact (repliesOf_append_iff.mp h).1

theorem exists_fdPolled (s : State) : ∃ v n es, fdPolled s v n es ∧ repliesOf s.env es = true := by
  have hend := polls_end s.regs.pollMs s.regs.fdPollBound s.env
  obtain ⟨cs, hlen, hcs, h⟩ | ⟨cs, last, hlen, hcs, h, hlast⟩ := hend
  · exact ⟨.stuck, _, _, ⟨cs, hcs, rfl, hlen, rfl⟩, repliesOf_spaced h⟩
  · rw [← spaced_concat] at h
    obtain ⟨c, hc, rfl⟩ | ⟨o, rfl⟩ := hlast
    · exact ⟨.fin, _, _, ⟨cs, hcs, rfl, hlen, c, hc, rfl⟩, h⟩
    · exact ⟨.abort, _, _, ⟨cs, hcs, rfl, hlen, o, rfl⟩, h⟩

/-- Settles O42: the reads bring the loop to its end, and within the bound there is one. -/
theorem faultPollLoop : Obligations.FaultPollLoop :=
  ⟨fun _ _ _ _ hp h => fdPoll_eq hp h, exists_fdPolled⟩

end Sys2Proof.Machine
end

section
/-!
Proofs about the fault-detection commands (`43_fault_detection.md` R144 to R149). What a command does with the results
of its calls is one equation for each end (`exec_fdAuto_run` and those beside it); a cycle ends in the tail of R144
(`fdTail`), whatever its verdict, and the command's state is then read off the events.
-/

namespace Sys2Proof.Machine

/-! ## Events before and after -/

theorem moves_transacted (es : List Event) (s : State) : Moves s (transacted es s) es := by
  constructor <;> simp [transacted]

/-- A command that ends from `t` ends from where `t` came. -/
theorem Moves.ended {s t : State} {es : List Event} (m : Moves s t es) (fs : List Event) (r : Regs) (ok : Bool)
    (d : Data) : ended t fs r ok d = ended s (es ++ fs) r ok d := by
  simp [Machine.ended, performed, State.withRegs, respond, replay_append, m.params, m.env, m.program, m.pc, m.resets,
    m.responses, m.trace]

theorem writeConfig_eq {c : Byte} {st : Status} {s : State} (h : repliesOf s.env (writeEv 0x00 [c] st) = true) :
    writeConfig c s = (st, transacted (writeEv 0x00 [c] st) s) :=
  regWrite_eq h

/-! ## The tail of a cycle (R144) -/

theorem fdFinish_of_write {saved : Byte} {v : Verdict} {err : Half} {st : Status} {s s1 s2 : State}
    (hv : fdVerdict v s = (err, s1)) (hw : writeConfig saved s1 = (st, s2)) :
    fdFinish saved v s = (raiseFail st err, fdAfter v s2) := by
  rw [fdFinish, hv]
  dsimp only
  rw [hw]

/-- Settles O43, by the verdict: each brings its own cause, delay and `FD_STATE` to the one restore write. -/
theorem faultCycleTail : Obligations.FaultCycleTail := by
  intro saved v st s h
  cases v with
  | fin =>
    have hv : fdVerdict .fin s = (eNone, delay s.regs.settleMs (setFdState .finished s)) := rfl
    rw [fdFinish_of_write hv (writeConfig_eq (c := saved) (st := st) h), delay_eq, transacted, performed_performed]
    cases st <;> rfl
  | stuck =>
    have hv : fdVerdict .stuck s = (eFdStuck, setFdState .stuck s) := rfl
    rw [fdFinish_of_write hv (writeConfig_eq (c := saved) (st := st) h)]
    cases st <;> rfl
  | abort =>
    have hv : fdVerdict .abort s = (eTransport, s) := rfl
    rw [fdFinish_of_write hv (writeConfig_eq (c := saved) (st := st) h)]
    cases st <;> rfl

/-- The tail with the response, from the verdict and the state of the polls (R146, R148). -/
def fdTail (saved : Byte) (r : Verdict × State) : State := fdRespond (fdFinish saved r.1 r.2)

theorem fdCycle_eq_fdTail (saved : Byte) (s : State) : fdCycle saved s = fdTail saved (fdPoll s) := rfl

/-- An aborted cycle leaves `FD_STATE` at `IDLE`, so its response is `ok = 0` too. -/
theorem fdAbort_eq_fdTail (saved : Byte) (s : State) : fdAbort saved s = fdTail saved (.abort, s) := rfl

theorem fdTail_eq {saved : Byte} {v : Verdict} {st : Status} {s : State}
    (h : repliesOf s.env (tailEv s saved v st) = true) :
    fdTail saved (v, s)
      = ended s (tailEv s saved v st ++ dueEv s .rtd (cycleMask v st))
          { s.regs with fdState := verdictState v, cs := false } (v == .fin && st == .ok) 0 := by
  have hok : (verdictState v == .finished && cycleMask v st == 0) = (v == .fin && st == .ok) := by
    cases v <;> cases st <;> rfl
  rw [fdTail, faultCycleTail saved v st s h, fdRespond, withRegs_regs, hok]
  exact finish_eq .rtd (cycleMask v st) _ 0 _ _ s rfl

/-- The polls and the tail after them. -/
theorem fdTail_fdPoll_eq {saved : Byte} {v : Verdict} {n : Nat} {st : Status} {es : List Event} {s : State}
    (hp : fdPolled s v n es) (h : repliesOf s.env (es ++ tailEv s saved v st) = true) :
    fdTail saved (fdPoll s)
      = ended s (es ++ tailEv s saved v st ++ dueEv s .rtd (cycleMask v st))
          { s.regs with fdState := verdictState v, fdPolls := BitVec.ofNat 16 n, cs := false }
          (v == .fin && st == .ok) 0 := by
  obtain ⟨hpolls, htail⟩ := repliesOf_append_iff.mp h
  have moves : Moves s (polled es n s) es := by constructor <;> simp [polled]
  rw [fdPoll_eq hp hpolls, fdTail_eq (s := polled es n s) htail, moves.ended, List.append_assoc]
  rfl

theorem csrPart_eq_cycle {r r' : Regs} (h : csrPart r' = csrPart r) :
    r'.ctrl = r.ctrl ∧ r'.fdPollBound = r.fdPollBound ∧ r'.pollMs = r.pollMs ∧ r'.settleMs = r.settleMs := by
  simp only [csrPart, List.cons.injEq] at h
  obtain ⟨hctrl, hmax, hinterval, hsettle, -⟩ := h
  simp only [Regs.fdPollBound, Regs.pollMs, Regs.settleMs, hctrl, hmax, hinterval, hsettle, and_self]

theorem fdPolled_congr {s t : State} (h : csrPart t.regs = csrPart s.regs) (v : Verdict) (n : Nat)
    (es : List Event) : fdPolled t v n es = fdPolled s v n es := by
  obtain ⟨-, hmax, hinterval, -⟩ := csrPart_eq_cycle h
  simp only [fdPolled, hmax, hinterval]

theorem tailEv_congr {s t : State} (h : csrPart t.regs = csrPart s.regs) (saved : Byte) (v : Verdict) (st : Status) :
    tailEv t saved v st = tailEv s saved v st := by
  obtain ⟨-, -, -, hsettle⟩ := csrPart_eq_cycle h
  simp only [tailEv, hsettle]

theorem dueEv_congr {s t : State} (h : csrPart t.regs = csrPart s.regs) (c : Comp) (err : Half) :
    dueEv t c err = dueEv s c err := by
  obtain ⟨hctrl, -⟩ := csrPart_eq_cycle h
  have hsink : t.regs.sinkEn c = s.regs.sinkEn c := by cases c <;> simp only [Regs.sinkEn, hctrl]
  rw [dueEv, hsink, dueEv]

/-- A cycle from a state `t` that the command reached by the events `pre`, the CSRs as they were. -/
theorem Moves.cycle_ended {saved : Byte} {v : Verdict} {n : Nat} {st : Status} {pre es : List Event} {s t : State}
    (m : Moves s t pre) (hcsr : csrPart t.regs = csrPart s.regs) (hp : fdPolled s v n es)
    (h : repliesOf s.env (pre ++ es ++ tailEv s saved v st) = true) :
    fdTail saved (fdPoll t)
      = Machine.ended s (pre ++ es ++ tailEv s saved v st ++ dueEv s .rtd (cycleMask v st))
          { t.regs with fdState := verdictState v, fdPolls := BitVec.ofNat 16 n, cs := false }
          (v == .fin && st == .ok) 0 := by
  rw [← fdPolled_congr hcsr] at hp
  rw [List.append_assoc, repliesOf_append_iff, ← m.env, ← tailEv_congr hcsr] at h
  obtain ⟨-, h⟩ := h
  rw [fdTail_fdPoll_eq hp h, m.ended, tailEv_congr hcsr, dueEv_congr hcsr]
  simp only [List.append_assoc]

theorem fdTail_abort_eq {saved : Byte} {st : Status} {s : State}
    (h : repliesOf s.env (writeEv 0x00 [saved] st) = true) :
    fdTail saved (.abort, s)
      = ended s (writeEv 0x00 [saved] st ++ dueEv s .rtd 0x0001) { s.regs with fdState := .idle, cs := false }
          false 0 := by
  have hmask : cycleMask .abort st = 0x0001 := by cases st <;> rfl
  have htail := fdTail_eq (v := .abort) h
  rw [hmask] at htail
  exact htail

/-- An aborted cycle from a state `t` that the command reached by the events `pre`, the CSRs as they were. -/
theorem Moves.abort_ended {saved : Byte} {st : Status} {pre : List Event} {s t : State} (m : Moves s t pre)
    (hcsr : csrPart t.regs = csrPart s.regs) (h : repliesOf s.env (pre ++ writeEv 0x00 [saved] st) = true) :
    fdTail saved (.abort, t)
      = Machine.ended s (pre ++ writeEv 0x00 [saved] st ++ dueEv s .rtd 0x0001)
          { t.regs with fdState := .idle, cs := false } false 0 := by
  rw [repliesOf_append_iff, ← m.env] at h
  obtain ⟨-, h⟩ := h
  rw [fdTail_abort_eq h, m.ended, dueEv_congr hcsr, List.append_assoc]

/-! ## The ends of the commands, by the results of their calls -/

section
variable {c : Byte} {s s1 s2 : State}

theorem exec_fdAuto_refused (ha : s.regs.fdArmed = true) : exec .fdAuto s = .next (refuse s) := by
  show execFdAuto s = _
  rw [execFdAuto, if_pos ha]

theorem exec_fdAuto_lostRead (ha : s.regs.fdArmed = false) (hr : readConfig s = (none, s1)) :
    exec .fdAuto s = .next (finishTransport .rtd s1) := by
  show execFdAuto s = _
  rw [execFdAuto, ha, if_neg Bool.false_ne_true, hr]

theorem exec_fdAuto_lostArm (ha : s.regs.fdArmed = false) (hr : readConfig s = (some c, s1))
    (hw : writeConfig (cyc c 1) (setFdSaved c s1) = (.fail, s2)) :
    exec .fdAuto s = .next (fdTail c (.abort, s2)) := by
  show execFdAuto s = _
  rw [execFdAuto, ha, if_neg Bool.false_ne_true, hr, ← fdAbort_eq_fdTail]
  dsimp only
  rw [hw]

theorem exec_fdAuto_run (ha : s.regs.fdArmed = false) (hr : readConfig s = (some c, s1))
    (hw : writeConfig (cyc c 1) (setFdSaved c s1) = (.ok, s2)) :
    exec .fdAuto s = .next (fdTail c (fdPoll (setFdState .running s2))) := by
  show execFdAuto s = _
  rw [execFdAuto, ha, if_neg Bool.false_ne_true, hr, ← fdCycle_eq_fdTail]
  dsimp only
  rw [hw]

theorem exec_fdMstart_refused (ha : s.regs.fdArmed = true) : exec .fdMstart s = .next (refuse s) := by
  show execFdMstart s = _
  rw [execFdMstart, if_pos ha]

theorem exec_fdMstart_lostRead (ha : s.regs.fdArmed = false) (hr : readConfig s = (none, s1)) :
    exec .fdMstart s = .next (finishTransport .rtd s1) := by
  show execFdMstart s = _
  rw [execFdMstart, ha, if_neg Bool.false_ne_true, hr]

theorem exec_fdMstart_lostArm (ha : s.regs.fdArmed = false) (hr : readConfig s = (some c, s1))
    (hw : writeConfig (cyc c 2) s1 = (.fail, s2)) : exec .fdMstart s = .next (finishTransport .rtd s2) := by
  show execFdMstart s = _
  rw [execFdMstart, ha, if_neg Bool.false_ne_true, hr]
  dsimp only
  rw [hw]

theorem exec_fdMstart_armed (ha : s.regs.fdArmed = false) (hr : readConfig s = (some c, s1))
    (hw : writeConfig (cyc c 2) s1 = (.ok, s2)) :
    exec .fdMstart s
      = .next (finish .rtd eNone true 0 (setFdState .running (setFdArmed true (setFdSaved c s2)))) := by
  show execFdMstart s = _
  rw [execFdMstart, ha, if_neg Bool.false_ne_true, hr]
  dsimp only
  rw [hw]

theorem exec_fdMend_refused (ha : s.regs.fdArmed = false) : exec .fdMend s = .next (refuse s) := by
  show execFdMend s = _
  rw [execFdMend, ha, if_neg Bool.false_ne_true]

/-- The arming write leaves `FD_SAVED` alone. -/
theorem writeConfig_fdSaved {st : Status} (hw : writeConfig c s = (st, s1)) : s1.regs.fdSaved = s.regs.fdSaved := by
  rw [(writeConfig_spec hw).2]

theorem exec_fdMend_lostArm (ha : s.regs.fdArmed = true)
    (hw : writeConfig (cyc s.regs.fdSaved 3) (setFdArmed false s) = (.fail, s1)) :
    exec .fdMend s = .next (fdTail s.regs.fdSaved (.abort, s1)) := by
  have hsaved : s1.regs.fdSaved = s.regs.fdSaved := writeConfig_fdSaved (s := setFdArmed false s) hw
  show execFdMend s = _
  rw [execFdMend, if_pos ha, hw, ← fdAbort_eq_fdTail, ← hsaved]

theorem exec_fdMend_run (ha : s.regs.fdArmed = true)
    (hw : writeConfig (cyc s.regs.fdSaved 3) (setFdArmed false s) = (.ok, s1)) :
    exec .fdMend s = .next (fdTail s.regs.fdSaved (fdPoll s1)) := by
  have hsaved : s1.regs.fdSaved = s.regs.fdSaved := writeConfig_fdSaved (s := setFdArmed false s) hw
  show execFdMend s = _
  rw [execFdMend, if_pos ha, hw, ← fdCycle_eq_fdTail, ← hsaved]

theorem exec_fdRdfault_lostRead (hr : readConfig s = (none, s1)) :
    exec .fdRdfault s = .next (finishTransport .rtd s1) := by
  show execFdRdfault s = _
  rw [execFdRdfault, hr]

theorem exec_fdRdfault_busy (hr : readConfig s = (some c, s1)) (hc : c &&& 0x0C ≠ 0) :
    exec .fdRdfault s = .next (finish .rtd eNone false 0 s1) := by
  show execFdRdfault s = _
  rw [execFdRdfault, hr]
  dsimp only
  rw [if_neg (mt (cycleDone_iff c).mp hc)]

theorem exec_fdRdfault_lostStatus (hr : readConfig s = (some c, s1)) (hc : c &&& 0x0C = 0)
    (hf : regRead addrFault 1 s1 = (none, s2)) : exec .fdRdfault s = .next (finishTransport .rtd s2) := by
  show execFdRdfault s = _
  rw [execFdRdfault, hr]
  dsimp only
  rw [if_pos ((cycleDone_iff c).mpr hc), hf]

theorem exec_fdRdfault_report {f : Byte} {st : Status} {s3 : State} (hr : readConfig s = (some c, s1))
    (hc : c &&& 0x0C = 0) (hf : regRead addrFault 1 s1 = (some [f], s2))
    (hw : writeConfig (c ||| cfgFclr) s2 = (st, s3)) :
    exec .fdRdfault s
      = .next (finish .rtd (faultCauses f (raiseFail st eNone)) (faultCauses f (raiseFail st eNone) == 0) 0 s3) := by
  show execFdRdfault s = _
  rw [execFdRdfault, hr]
  dsimp only
  rw [if_pos ((cycleDone_iff c).mpr hc), hf]
  dsimp only
  rw [hw]
  rfl

end

/-! ## The arming values of the three cycles (R142) -/

theorem cyc_one (c : Byte) : cyc c 1 = ((c ||| 0x80) &&& 0x91) ||| 0x04 := rfl

theorem cyc_two (c : Byte) : cyc c 2 = ((c ||| 0x80) &&& 0x91) ||| 0x08 := rfl

theorem cyc_three (c : Byte) : cyc c 3 = ((c ||| 0x80) &&& 0x91) ||| 0x0C := rfl

/-! ## `FD.AUTO` (R146) -/

/-- The state of `FD.AUTO` after its arming write. -/
def autoArmed (c : Byte) (st : Status) (s : State) : State :=
  transacted (writeEv 0x00 [cyc c 1] st) (setFdSaved c (transacted (readEv 0x00 [c]) s))

theorem autoArmed_regs (c : Byte) (st : Status) (s : State) :
    (autoArmed c st s).regs = { s.regs with fdSaved := c, cs := false } := by
  rw [autoArmed, transacted_regs, setFdSaved_regs, transacted_regs]
  rfl

theorem moves_autoArmed (c : Byte) (st : Status) (s : State) :
    Moves s (autoArmed c st s) (readEv 0x00 [c] ++ writeEv 0x00 [cyc c 1] st) := by
  have m := ((moves_transacted (readEv 0x00 [c]) s).trans (Moves.setFdSaved c _)).trans
    (moves_transacted (writeEv 0x00 [cyc c 1] st) _)
  rwa [List.append_nil] at m

theorem fdAuto_calls {c : Byte} {st : Status} {s : State}
    (h : repliesOf s.env (readEv 0x00 [c] ++ writeEv 0x00 [cyc c 1] st) = true) :
    readConfig s = (some c, transacted (readEv 0x00 [c]) s)
      ∧ writeConfig (cyc c 1) (setFdSaved c (transacted (readEv 0x00 [c]) s)) = (st, autoArmed c st s) := by
  obtain ⟨hr, hw⟩ := repliesOf_append_iff.mp h
  exact ⟨readConfig_eq hr, writeConfig_eq (s := setFdSaved c (transacted (readEv 0x00 [c]) s)) hw⟩

/-- Settles O44: the calls before the polls bring the state `autoArmed`, and the tail ends the command. -/
theorem automaticCycle : Obligations.AutomaticCycle := by
  intro c st s ha
  rw [← cyc_one]
  refine ⟨?run, ?lostArm, ?lostRead⟩
  case run =>
    intro v n es hp h
    obtain ⟨hpolls, -⟩ := repliesOf_append_iff.mp h
    obtain ⟨hcalls, -⟩ := repliesOf_append_iff.mp hpolls
    obtain ⟨hr, hw⟩ := fdAuto_calls hcalls
    have m : Moves s (setFdState .running (autoArmed c .ok s)) (readEv 0x00 [c] ++ writeEv 0x00 [cyc c 1] .ok) :=
      List.append_nil (readEv 0x00 [c] ++ _) ▸ (moves_autoArmed c .ok s).trans (Moves.setFdState .running _)
    have hcsr : csrPart (setFdState .running (autoArmed c .ok s)).regs = csrPart s.regs := by
      rw [setFdState_regs, autoArmed_regs]
      rfl
    rw [exec_fdAuto_run ha hr hw, m.cycle_ended hcsr hp h, setFdState_regs, autoArmed_regs]
  case lostArm =>
    intro h
    obtain ⟨hcalls, -⟩ := repliesOf_append_iff.mp h
    obtain ⟨hr, hw⟩ := fdAuto_calls hcalls
    have hcsr : csrPart (autoArmed c .fail s).regs = csrPart s.regs := by
      rw [autoArmed_regs]
      rfl
    rw [exec_fdAuto_lostArm ha hr hw, (moves_autoArmed c .fail s).abort_ended hcsr h, autoArmed_regs]
  case lostRead =>
    intro o h
    rw [exec_fdAuto_lostRead ha (readConfig_eq_lost h), finishTransport_transacted]

/-! ## `FD.MSTART` (R147) -/

theorem fdMstart_calls {c : Byte} {st : Status} {s : State}
    (h : repliesOf s.env (readEv 0x00 [c] ++ writeEv 0x00 [cyc c 2] st) = true) :
    readConfig s = (some c, transacted (readEv 0x00 [c]) s)
      ∧ writeConfig (cyc c 2) (transacted (readEv 0x00 [c]) s)
          = (st, transacted (readEv 0x00 [c] ++ writeEv 0x00 [cyc c 2] st) s) := by
  obtain ⟨hr, hw⟩ := repliesOf_append_iff.mp h
  rw [← transacted_transacted]
  exact ⟨readConfig_eq hr, writeConfig_eq (s := transacted (readEv 0x00 [c]) s) hw⟩

/-- Settles O45: the two calls of each end, and `FD_STATE`, `FD_ARMED`, `FD_SAVED` set after the write. -/
theorem manualCycleStart : Obligations.ManualCycleStart := by
  intro c o s ha
  rw [← cyc_two]
  refine ⟨fun h => ?armed, fun h => ?lostArm, fun h => ?lostRead⟩
  case armed =>
    obtain ⟨hr, hw⟩ := fdMstart_calls h
    rw [exec_fdMstart_armed ha hr hw, eNone, ← respond_eq_finish]
    rfl
  case lostArm =>
    obtain ⟨hr, hw⟩ := fdMstart_calls h
    rw [exec_fdMstart_lostArm ha hr hw, finishTransport_transacted]
  case lostRead => rw [exec_fdMstart_lostRead ha (readConfig_eq_lost h), finishTransport_transacted]

/-! ## `FD.MEND` (R148) -/

/-- The state of `FD.MEND` after its arming write. -/
def mendArmed (st : Status) (s : State) : State :=
  transacted (writeEv 0x00 [cyc s.regs.fdSaved 3] st) (setFdArmed false s)

theorem mendArmed_regs (st : Status) (s : State) :
    (mendArmed st s).regs = { s.regs with fdArmed := false, cs := false } := by
  rw [mendArmed, transacted_regs, setFdArmed_regs]
  rfl

theorem moves_mendArmed (st : Status) (s : State) :
    Moves s (mendArmed st s) (writeEv 0x00 [cyc s.regs.fdSaved 3] st) :=
  (Moves.setFdArmed false s).trans (moves_transacted _ _)

theorem fdMend_calls {st : Status} {s : State} (h : repliesOf s.env (writeEv 0x00 [cyc s.regs.fdSaved 3] st) = true) :
    writeConfig (cyc s.regs.fdSaved 3) (setFdArmed false s) = (st, mendArmed st s) :=
  writeConfig_eq (s := setFdArmed false s) h

/-- Settles O46: the arming write brings the state `mendArmed`, and the tail ends the command. -/
theorem manualCycleEnd : Obligations.ManualCycleEnd := by
  intro st s ha
  have hcsr (st : Status) : csrPart (mendArmed st s).regs = csrPart s.regs := by
    rw [mendArmed_regs]
    rfl
  rw [← cyc_three]
  refine ⟨?run, ?lostArm⟩
  case run =>
    intro v n es hp h
    obtain ⟨hpolls, -⟩ := repliesOf_append_iff.mp h
    obtain ⟨hcalls, -⟩ := repliesOf_append_iff.mp hpolls
    rw [exec_fdMend_run ha (fdMend_calls hcalls), (moves_mendArmed .ok s).cycle_ended (hcsr .ok) hp h,
      mendArmed_regs]
  case lostArm =>
    intro h
    obtain ⟨hcalls, -⟩ := repliesOf_append_iff.mp h
    rw [exec_fdMend_lostArm ha (fdMend_calls hcalls), (moves_mendArmed .fail s).abort_ended (hcsr .fail) h,
      mendArmed_regs]

/-! ## `FD.RDFAULT` (R149) -/

theorem getLsbD_raiseIf (cause : Bool) (e err : Half) (i : Nat) :
    (raiseIf cause e err).getLsbD i = (err.getLsbD i || cause && e.getLsbD i) := by
  cases cause <;> simp [raiseIf]

/-- The causes of a fault report: `E_TRANSPORT` and bits 7 to 2 of the fault status, bit `i` at `8 - i` (R48, R210). -/
theorem getLsbD_faultCauses (f : Byte) (st : Status) {i : Nat} (hi : i < 16) :
    (faultCauses f (raiseFail st eNone)).getLsbD i
      = (decide (i = 0) && st == .fail || decide (1 ≤ i ∧ i ≤ 6) && f.getLsbD (8 - i)) := by
  simp only [faultCauses, raiseFail, getLsbD_raiseIf]
  interval_cases i <;> simp [eNone, eTransport, eHighThr, eLowThr, eRefinHigh, eRefinLow, eRtdinLow, eOvUv]

theorem faultCauses_high (f : Byte) (st : Status) :
    (faultCauses f (raiseFail st eNone)).extractLsb' 7 9 = 0 := by
  apply BitVec.eq_of_getLsbD_eq
  intro i hi
  rw [BitVec.getLsbD_extractLsb', getLsbD_faultCauses f st (by omega)]
  simp [show ¬ 7 + i ≤ 6 by omega]

/-- Settles O48: the calls of each end, and the bits of the mask. -/
theorem faultReport : Obligations.FaultReport := by
  intro c f st o s
  refine ⟨fun hc h => ?report, fun hc h => ?lostStatus, fun hc h => ?busy, fun h => ?lostRead⟩
  case report =>
    obtain ⟨hrf, hw⟩ := repliesOf_append_iff.mp h
    obtain ⟨hr, hf⟩ := repliesOf_append_iff.mp hrf
    have hfault : regRead addrFault 1 (transacted (readEv 0x00 [c]) s)
        = (some [f], transacted (readEv 0x00 [c] ++ readEv 0x07 [f]) s) := by
      rw [← transacted_transacted]
      exact regRead_eq (s := transacted (readEv 0x00 [c]) s) hf
    refine ⟨faultCauses f (raiseFail st eNone), ?_, ?_⟩
    · rw [exec_fdRdfault_report (readConfig_eq hr) hc hfault
          (writeConfig_eq (s := transacted (readEv 0x00 [c] ++ readEv 0x07 [f]) s) hw),
        transacted_transacted, finish_transacted]
      rfl
    · refine ⟨?_, ?_, ?_, ?_, ?_, ?_, ?_, faultCauses_high f st⟩ <;> rw [getLsbD_faultCauses _ _ (by decide)] <;>
        simp
  case lostStatus =>
    obtain ⟨hr, hf⟩ := repliesOf_append_iff.mp h
    rw [exec_fdRdfault_lostStatus (readConfig_eq hr) hc (regRead_eq_lost (s := transacted (readEv 0x00 [c]) s) hf),
      transacted_transacted, finishTransport_transacted]
    rfl
  case busy =>
    rw [exec_fdRdfault_busy (readConfig_eq h) hc]
    exact congrArg Host.Outcome.next (respond_eq_finish .rtd false 0 _).symm
  case lostRead => rw [exec_fdRdfault_lostRead (readConfig_eq_lost h), finishTransport_transacted]

/-! ## Refusals (R145) -/

theorem refuse_eq_ended (s : State) : refuse s = ended s [] s.regs false 0 := by
  rw [ended_nil, withRegs_same]
  rfl

/-- Whatever the device answers, `FD.RDFAULT` begins with a register read. -/
theorem exec_fdRdfault_selects (s : State) :
    ∃ es r ok d, exec .fdRdfault s = .next (ended s (.sel :: es) r ok d) := by
  obtain ⟨b, hb, hr⟩ | ⟨o, hlost⟩ := repliesOf_read 0x00 1 s.env
  · obtain ⟨c, rfl⟩ := List.length_eq_one_iff.mp hb
    by_cases hc : c &&& 0x0C = 0
    · obtain ⟨b, hb, hf⟩ | ⟨o, hlost⟩ := repliesOf_read 0x07 1 (s.env.replay (readEv 0x00 [c]))
      · obtain ⟨f, rfl⟩ := List.length_eq_one_iff.mp hb
        have hrf := repliesOf_append_iff.mpr ⟨hr, hf⟩
        obtain ⟨st, hw⟩ := repliesOf_write 0x00 [c ||| 0x02] (s.env.replay (readEv 0x00 [c] ++ readEv 0x07 [f]))
        obtain ⟨hreport, -⟩ := faultReport c f st none s
        obtain ⟨m, hexec, -⟩ := hreport hc (repliesOf_append_iff.mpr ⟨hrf, hw⟩)
        exact ⟨_, _, _, _, hexec⟩
      · obtain ⟨-, hstatus, -⟩ := faultReport c 0 .ok o s
        exact ⟨_, _, _, _, hstatus hc (repliesOf_append_iff.mpr ⟨hr, hlost⟩)⟩
    · obtain ⟨-, -, hbusy, -⟩ := faultReport c 0 .ok none s
      exact ⟨_, _, _, _, hbusy hc hr⟩
  · obtain ⟨-, -, -, hread⟩ := faultReport 0 0 .ok o s
    cases o <;> exact ⟨_, _, _, _, hread hlost⟩

/-- Settles O47: the guards of the three cycle commands, and the ends of `FD.RDFAULT`. -/
theorem outOfOrderCyclesRefused : Obligations.OutOfOrderCyclesRefused := by
  intro s
  rw [← refuse_eq_ended]
  refine ⟨fun ha => ⟨exec_fdAuto_refused ha, exec_fdMstart_refused ha⟩, exec_fdMend_refused, ?_⟩
  obtain ⟨es, r, ok, d, h⟩ := exec_fdRdfault_selects s
  exact ⟨_, es, h, rfl⟩

end Sys2Proof.Machine
end

section
/-!
Proof about the fault-detection state between commands (`43_fault_detection.md` R141), from what every command may do to
the fault-detection registers (`FdMoved`).
-/

namespace Sys2Proof.Machine

theorem FdMoved.of_kept {i : Instr} {r r' : Regs} (h : fdPart r' = fdPart r) (hi : partOf i ≠ .rtd) :
    FdMoved i r r' := by
  cases i
  case fdAuto | fdMstart | fdMend => exact absurd rfl hi
  all_goals exact h

theorem QuietRegs.fdPart_eq {i : Instr} {r r' : Regs} (h : QuietRegs i r r') : fdPart r' = fdPart r := by
  obtain rfl | ⟨c, v, x, -, rfl, -⟩ := h
  · rfl
  · simp [fdPart]

theorem RegsMoved.fdMoved {i : Instr} {r r' : Regs} (h : RegsMoved i r r') : FdMoved i r r' := by
  unfold RegsMoved at h
  split at h
  · next hpart => exact .of_kept h.fdPart_eq (by simp [hpart])
  · next hpart => exact .of_kept h.fdPart_eq (by simp [hpart])
  · obtain ⟨-, -, hfd⟩ := h
    exact hfd
  · next hpart => exact .of_kept (by rw [h]) (by simp [hpart])

/-- A refused or lost command keeps `FD_STATE`; the armed guard says which states a cycle command may leave. -/
theorem FdMoved.transition {i : Instr} {r r' : Regs} (h : FdMoved i r r')
    (hr : r.fdArmed = true ↔ r.fdState = .running) : fdTransition i r.fdState r'.fdState = true := by
  have not_running (ha : r.fdArmed = false) : r.fdState ≠ .running := by rwa [← Bool.not_eq_true, hr] at ha
  cases i <;> simp only [FdMoved, fdPart_eq_iff] at h
  case fdAuto =>
    obtain ⟨hstate, -⟩ | ⟨ha, -, hend⟩ := h
    · simp [fdTransition, hstate]
    · simpa [fdTransition, not_running ha, or_assoc] using .inr hend
  case fdMstart =>
    obtain ⟨hstate, -⟩ | ⟨ha, -, hrun, -⟩ := h
    · simp [fdTransition, hstate]
    · simp [fdTransition, not_running ha, hrun]
  case fdMend =>
    obtain ⟨ha, hstate, -⟩ | ⟨ha, -, -, hend⟩ := h
    · simp [fdTransition, hstate, not_running ha]
    · simpa [fdTransition, hr.mp ha, or_assoc, cycleEnd] using hend
  all_goals simp [fdTransition, h]

/-- Settles O49, by what the command may do to the fault-detection registers. -/
theorem faultStateTransitions : Obligations.FaultStateTransitions := by
  intro i s t hr h
  obtain ⟨es, -, hmoved, -⟩ := exec_cases h
  have hr : s.regs.fdArmed = true ↔ s.regs.fdState = .running := by rw [hr, beq_iff_eq]
  refine ⟨hmoved.fdMoved.transition hr, ?_⟩
  rw [Bool.eq_iff_iff, beq_iff_eq]
  exact hmoved.fdMoved.armed_iff_running hr

end Sys2Proof.Machine
end

section
/-!
Proof that the micro-states of `43_fault_detection.md` R141 and the pseudocode of R146 to R148 agree. A run that answers
within some steps with some state (`AnswersWithin`) is built backward from `S_DONE`: one lemma for each row of the
table, an induction for the poll loop, then the command's own rows.
-/

namespace Sys2Proof.Machine

/-! ## Runs that answer -/

/-- From `k` steps on the run `r` has answered, with the state `t`. -/
def AnswersWithin (k : Nat) (r : FdRun) (t : State) : Prop :=
  ∀ m, k ≤ m → (microRun m r).micro = .answered ∧ (microRun m r).state = t

theorem AnswersWithin.mono {k m : Nat} {r : FdRun} {t : State} (h : AnswersWithin k r t) (hkm : k ≤ m) :
    AnswersWithin m r t :=
  fun n hn => h n (hkm.trans hn)

theorem microRun_answered {r : FdRun} (hr : r.micro = .answered) (m : Nat) : microRun m r = r := by
  induction m with
  | zero => rfl
  | succ m ih =>
    have hstep : microStep r = r := by rw [microStep, hr]
    rw [microRun, hstep, ih]

theorem answersWithin_answered {r : FdRun} (hr : r.micro = .answered) : AnswersWithin 0 r r.state :=
  fun m _ => by rw [microRun_answered hr]; exact ⟨hr, rfl⟩

/-- One row before a run that answers. -/
theorem AnswersWithin.step {k : Nat} {r r' : FdRun} {t : State} (hstep : microStep r = r') (h : AnswersWithin k r' t) :
    AnswersWithin (k + 1) r t := by
  rintro (_ | m) hm
  · omega
  · rw [microRun, hstep]
    exact h m (by omega)

/-! ## The last rows -/

section
variable {cmd : FdCommand} {c : Byte} {n : Nat} {s s1 : State}

theorem answersWithin_done (v : Option Verdict) (err : Half) :
    AnswersWithin 1 ⟨cmd, .done, c, v, n, err, s⟩
      (finish .rtd err (microOk ⟨cmd, .done, c, v, n, err, s⟩) 0 s) :=
  (answersWithin_answered rfl).step rfl

theorem eNone_or (e : Half) : eNone ||| e = e := BitVec.zero_or

/-- Row `S_DONE` after a failed transfer answers `ok = 0`, whatever `FD_STATE` is. -/
theorem answersWithin_done_lost (v : Option Verdict) :
    AnswersWithin 1 ⟨cmd, .done, c, v, n, eNone ||| eTransport, s⟩ (finishTransport .rtd s) := by
  rw [eNone_or]
  have hok : microOk ⟨cmd, .done, c, v, n, eTransport, s⟩ = false := by
    cases cmd <;> simp [microOk, eTransport]
  have h := answersWithin_done (cmd := cmd) (c := c) (n := n) (s := s) v eTransport
  rwa [hok] at h

theorem microOk_cycle (hcmd : cmd ≠ .mstart) (m : FdMicro) (v : Option Verdict) (err : Half) :
    microOk ⟨cmd, m, c, v, n, err, s⟩ = (s.regs.fdState == .finished && err == 0) := by
  cases cmd with
  | auto | mend => rfl
  | mstart => contradiction

/-- A run about to restore `c`, with a verdict. -/
def restoring (cmd : FdCommand) (c : Byte) (v : Verdict) (n : Nat) (s : State) : FdRun :=
  ⟨cmd, .restore, c, some v, n, eNone, s⟩

/-- Rows `S_RESTORE` and `S_DONE` are the tail of R144 after its part before the restore write. -/
theorem answersWithin_restoring (hcmd : cmd ≠ .mstart) {v : Verdict} {err : Half} {u : State}
    (hv : fdVerdict v s = (err, u)) (herr : (microVerdict (restoring cmd c v n s1)).err = err)
    (hu : (microVerdict (restoring cmd c v n s1)).state = u) :
    AnswersWithin 2 (restoring cmd c v n s1) (fdTail c (v, s)) := by
  rcases hw : writeConfig c u with ⟨st, s2⟩
  have hstep : microStep (restoring cmd c v n s1)
      = ⟨cmd, .done, c, some v, n, raiseFail st err, fdAfter v s2⟩ := by
    have hwrite : writeConfig (restoring cmd c v n s1).c0 (microVerdict (restoring cmd c v n s1)).state = (st, s2) := by
      rw [hu]; exact hw
    show microRestore _ = _
    rw [microRestore, hwrite, herr]
    cases v <;> rfl
  rw [fdTail, fdFinish_of_write hv hw, fdRespond, ← microOk_cycle (c := c) (n := n) hcmd .done (some v)]
  exact (answersWithin_done (some v) _).step hstep

theorem answersWithin_restore_stuck (hcmd : cmd ≠ .mstart) :
    AnswersWithin 2 (restoring cmd c .stuck n s) (fdTail c (.stuck, s)) :=
  answersWithin_restoring hcmd rfl (eNone_or _) rfl

theorem answersWithin_restore_abort (hcmd : cmd ≠ .mstart) :
    AnswersWithin 2 (restoring cmd c .abort n s) (fdTail c (.abort, s)) :=
  answersWithin_restoring hcmd rfl (eNone_or _) rfl

theorem answersWithin_settle (hcmd : cmd ≠ .mstart) :
    AnswersWithin 3 ⟨cmd, .settle, c, some .fin, n, eNone, s⟩ (fdTail c (.fin, s)) :=
  (answersWithin_restoring (s1 := delay s.regs.settleMs (setFdState .finished s)) hcmd rfl rfl rfl).step rfl

/-! ## The poll rows -/

theorem readConfig_fdPollBound {o : Option Byte} (hr : readConfig s = (o, s1)) :
    s1.regs.fdPollBound = s.regs.fdPollBound := by
  obtain ⟨-, -, -, hregs, -⟩ := readConfig_spec hr
  rw [hregs]
  rfl

theorem microPollRd_lost (hr : readConfig s = (none, s1)) :
    microStep ⟨cmd, .pollRd, c, none, n, eNone, s⟩
      = restoring cmd c .abort (n + 1) (setFdPolls (BitVec.ofNat 16 (n + 1)) s1) := by
  show microPollRd _ = _
  rw [microPollRd, hr]
  rfl

theorem microPollRd_done {b : Byte} (hr : readConfig s = (some b, s1)) (hb : b &&& 0x0C = 0) :
    microStep ⟨cmd, .pollRd, c, none, n, eNone, s⟩
      = ⟨cmd, .settle, c, some .fin, n + 1, eNone, setFdPolls (BitVec.ofNat 16 (n + 1)) s1⟩ := by
  show microPollRd _ = _
  rw [microPollRd, hr]
  exact if_pos ((cycleDone_iff b).mpr hb)

theorem microPollRd_busy_last {b : Byte} (hr : readConfig s = (some b, s1)) (hb : b &&& 0x0C ≠ 0)
    (hn : n + 1 = s1.regs.fdPollBound) :
    microStep ⟨cmd, .pollRd, c, none, n, eNone, s⟩
      = restoring cmd c .stuck (n + 1) (setFdPolls (BitVec.ofNat 16 (n + 1)) s1) := by
  show microPollRd _ = _
  rw [microPollRd, hr]
  exact (if_neg (mt (cycleDone_iff b).mp hb)).trans (if_pos hn)

theorem microPollRd_busy {b : Byte} (hr : readConfig s = (some b, s1)) (hb : b &&& 0x0C ≠ 0)
    (hn : n + 1 ≠ s1.regs.fdPollBound) :
    microStep ⟨cmd, .pollRd, c, none, n, eNone, s⟩
      = ⟨cmd, .pollWait, c, none, n + 1, eNone, setFdPolls (BitVec.ofNat 16 (n + 1)) s1⟩ := by
  show microPollRd _ = _
  rw [microPollRd, hr]
  exact (if_neg (mt (cycleDone_iff b).mp hb)).trans (if_neg hn)

/-- Rows `S_POLL_RD` and `S_POLL_WAIT` with `k + 1` reads left are the poll loop of R143. -/
theorem answersWithin_poll (hcmd : cmd ≠ .mstart) {k : Nat} (hk : s.regs.fdPollBound = n + (k + 1)) :
    AnswersWithin (2 * k + 4) ⟨cmd, .pollRd, c, none, n, eNone, s⟩ (fdTail c (fdPollLoop (k + 1) n s)) := by
  induction k generalizing n s with
  | zero =>
    rcases hr : readConfig s with ⟨_ | b, s1⟩
    · rw [fdPollLoop_lost hr]
      exact ((answersWithin_restore_abort hcmd).step (microPollRd_lost hr)).mono (by omega)
    · by_cases hb : b &&& 0x0C = 0
      · rw [fdPollLoop_done hr hb]
        exact (answersWithin_settle hcmd).step (microPollRd_done hr hb)
      · rw [fdPollLoop_busy_last hr hb]
        have hn : n + 1 = s1.regs.fdPollBound := by rw [readConfig_fdPollBound hr, hk]
        exact ((answersWithin_restore_stuck hcmd).step (microPollRd_busy_last hr hb hn)).mono (by omega)
  | succ k ih =>
    rcases hr : readConfig s with ⟨_ | b, s1⟩
    · rw [fdPollLoop_lost hr]
      exact ((answersWithin_restore_abort hcmd).step (microPollRd_lost hr)).mono (by omega)
    · by_cases hb : b &&& 0x0C = 0
      · rw [fdPollLoop_done hr hb]
        exact ((answersWithin_settle hcmd).step (microPollRd_done hr hb)).mono (by omega)
      · rw [fdPollLoop_busy hr hb]
        have hbound := readConfig_fdPollBound hr
        have hrest := ih (n := n + 1) (s := delay s1.regs.pollMs (setFdPolls (BitVec.ofNat 16 (n + 1)) s1))
          (by show s1.regs.fdPollBound = _; omega)
        exact ((hrest.step rfl).step (microPollRd_busy hr hb (by omega))).mono (by omega)

/-! ## The rows before the polls -/

theorem answersWithin_save_lost (hr : readConfig s = (none, s1)) :
    AnswersWithin 2 ⟨cmd, .save, c, none, n, eNone, s⟩ (finishTransport .rtd s1) := by
  refine (answersWithin_done_lost (cmd := cmd) (c := c) (n := n) none).step ?_
  show microSave _ = _
  rw [microSave, hr]

theorem answersWithin_arm_lost (hcmd : cmd ≠ .mstart) (hw : writeConfig (cyc c (fdCode cmd)) s = (.fail, s1)) :
    AnswersWithin 3 ⟨cmd, .arm, c, none, n, eNone, s⟩ (fdTail c (.abort, s1)) := by
  refine (answersWithin_restore_abort (n := n) hcmd).step ?_
  show microArm _ = _
  rw [microArm, hw]
  exact if_neg hcmd

theorem answersWithin_arm_poll (hcmd : cmd ≠ .mstart) (hw : writeConfig (cyc c (fdCode cmd)) s = (.ok, s1)) :
    AnswersWithin (2 * s1.regs.fdPollBound + 4) ⟨cmd, .arm, c, none, n, eNone, s⟩
      (fdTail c (fdPoll (setFdState .running s1))) := by
  have harm : microStep ⟨cmd, .arm, c, none, n, eNone, s⟩
      = if 0 < s1.regs.fdPollBound then ⟨cmd, .pollRd, c, none, 0, eNone, setFdPolls 0 (setFdState .running s1)⟩
        else restoring cmd c .stuck 0 (setFdPolls 0 (setFdState .running s1)) := by
    show microArm _ = _
    rw [microArm, hw]
    cases cmd with
    | auto | mend => rfl
    | mstart => contradiction
  have hpoll : fdPoll (setFdState .running s1)
      = fdPollLoop s1.regs.fdPollBound 0 (setFdPolls 0 (setFdState .running s1)) := rfl
  rcases hbound : s1.regs.fdPollBound with _ | k
  · rw [hbound, if_neg (by omega)] at harm
    rw [hpoll, hbound]
    exact ((answersWithin_restore_stuck hcmd).step harm).mono (by omega)
  · rw [hbound, if_pos (by omega)] at harm
    rw [hpoll, hbound]
    have hk : (setFdPolls 0 (setFdState .running s1)).regs.fdPollBound = 0 + (k + 1) := by
      rw [Nat.zero_add]; exact hbound
    exact ((answersWithin_poll hcmd hk).step harm).mono (by omega)

end

/-! ## The commands -/

/-- A cycle does not depend on the `FD_STATE` it starts from, which its verdict replaces (R144). -/
theorem fdTail_fdPoll_setFdState (c : Byte) (f : FdState) (s : State) :
    fdTail c (fdPoll (setFdState f s)) = fdTail c (fdPoll s) := by
  obtain ⟨v, n, es, hp, hpolls⟩ := exists_fdPolled s
  obtain ⟨st, htail⟩ : ∃ st, repliesOf (s.env.replay es) (tailEv s c v st) = true := by
    cases v <;> exact repliesOf_write 0x00 [c] (s.env.replay es)
  have h := repliesOf_append_iff.mpr ⟨hpolls, htail⟩
  rw [fdTail_fdPoll_eq hp h, fdTail_fdPoll_eq (s := setFdState f s) hp h]
  rfl

theorem writeConfig_fdPollBound {c : Byte} {st : Status} {s s1 : State} (hw : writeConfig c s = (st, s1)) :
    s1.regs.fdPollBound = s.regs.fdPollBound := by
  rw [(writeConfig_spec hw).2]
  rfl

/-- The micro-states and the command's meaning give one state. -/
def MicroAgrees (c : FdCommand) (i : Instr) (s : State) : Prop :=
  ∃ t, AnswersWithin (2 * s.regs.fdPollBound + 6) (fdBegin c s) t ∧ exec i s = .next t

theorem microAgrees_auto (s : State) : MicroAgrees .auto .fdAuto s := by
  cases ha : s.regs.fdArmed with
  | true =>
    have hbegin : fdBegin .auto s = ⟨.auto, .answered, 0, none, 0, eNone, refuse s⟩ := by simp [fdBegin, ha]
    rw [MicroAgrees, hbegin]
    exact ⟨_, (answersWithin_answered rfl).mono (by omega), exec_fdAuto_refused ha⟩
  | false =>
    have hbegin : fdBegin .auto s = ⟨.auto, .save, 0, none, 0, eNone, s⟩ := by simp [fdBegin, ha]
    rw [MicroAgrees, hbegin]
    rcases hr : readConfig s with ⟨_ | c, s1⟩
    · exact ⟨_, (answersWithin_save_lost hr).mono (by omega), exec_fdAuto_lostRead ha hr⟩
    · have hsave : microStep ⟨.auto, .save, 0, none, 0, eNone, s⟩
          = ⟨.auto, .arm, c, none, 0, eNone, setFdSaved c s1⟩ := by
        show microSave _ = _
        rw [microSave, hr]
        rfl
      rcases hw : writeConfig (cyc c 1) (setFdSaved c s1) with ⟨_ | _, s2⟩
      · have hread := readConfig_fdPollBound hr
        have hwrite : s2.regs.fdPollBound = s1.regs.fdPollBound :=
          writeConfig_fdPollBound (s := setFdSaved c s1) hw
        exact ⟨_, ((answersWithin_arm_poll (cmd := .auto) (by decide) hw).step hsave).mono (by omega),
          exec_fdAuto_run ha hr hw⟩
      · exact ⟨_, ((answersWithin_arm_lost (cmd := .auto) (by decide) hw).step hsave).mono (by omega),
          exec_fdAuto_lostArm ha hr hw⟩

theorem microAgrees_mstart (s : State) : MicroAgrees .mstart .fdMstart s := by
  cases ha : s.regs.fdArmed with
  | true =>
    have hbegin : fdBegin .mstart s = ⟨.mstart, .answered, 0, none, 0, eNone, refuse s⟩ := by simp [fdBegin, ha]
    rw [MicroAgrees, hbegin]
    exact ⟨_, (answersWithin_answered rfl).mono (by omega), exec_fdMstart_refused ha⟩
  | false =>
    have hbegin : fdBegin .mstart s = ⟨.mstart, .save, 0, none, 0, eNone, s⟩ := by simp [fdBegin, ha]
    rw [MicroAgrees, hbegin]
    rcases hr : readConfig s with ⟨_ | c, s1⟩
    · exact ⟨_, (answersWithin_save_lost hr).mono (by omega), exec_fdMstart_lostRead ha hr⟩
    · have hsave : microStep ⟨.mstart, .save, 0, none, 0, eNone, s⟩
          = ⟨.mstart, .arm, c, none, 0, eNone, s1⟩ := by
        show microSave _ = _
        rw [microSave, hr]
        rfl
      rcases hw : writeConfig (cyc c 2) s1 with ⟨_ | _, s2⟩
      · have harm : microStep ⟨.mstart, .arm, c, none, 0, eNone, s1⟩ = ⟨.mstart, .done, c, none, 0, eNone,
            setFdState .running (setFdArmed true (setFdSaved c s2))⟩ := by
          show microArm _ = _
          rw [microArm, fdCode, hw]
          rfl
        exact ⟨_, (((answersWithin_done none eNone).step harm).step hsave).mono (by omega),
          exec_fdMstart_armed ha hr hw⟩
      · have harm : microStep ⟨.mstart, .arm, c, none, 0, eNone, s1⟩
            = ⟨.mstart, .done, c, none, 0, eNone ||| eTransport, s2⟩ := by
          show microArm _ = _
          rw [microArm, fdCode, hw]
          rfl
        exact ⟨_, (((answersWithin_done_lost none).step harm).step hsave).mono (by omega),
          exec_fdMstart_lostArm ha hr hw⟩

theorem microAgrees_mend (s : State) : MicroAgrees .mend .fdMend s := by
  cases ha : s.regs.fdArmed with
  | false =>
    have hbegin : fdBegin .mend s = ⟨.mend, .answered, s.regs.fdSaved, none, 0, eNone, refuse s⟩ := by
      simp [fdBegin, ha]
    rw [MicroAgrees, hbegin]
    exact ⟨_, (answersWithin_answered rfl).mono (by omega), exec_fdMend_refused ha⟩
  | true =>
    have hbegin : fdBegin .mend s = ⟨.mend, .arm, s.regs.fdSaved, none, 0, eNone, setFdArmed false s⟩ := by
      simp [fdBegin, ha]
    rw [MicroAgrees, hbegin]
    rcases hw : writeConfig (cyc s.regs.fdSaved 3) (setFdArmed false s) with ⟨_ | _, s1⟩
    · have hbound : s1.regs.fdPollBound = s.regs.fdPollBound :=
        writeConfig_fdPollBound (s := setFdArmed false s) hw
      have hrun := answersWithin_arm_poll (cmd := .mend) (n := 0) (by decide) hw
      rw [fdTail_fdPoll_setFdState] at hrun
      exact ⟨_, hrun.mono (by omega), exec_fdMend_run ha hw⟩
    · exact ⟨_, (answersWithin_arm_lost (cmd := .mend) (by decide) hw).mono (by omega), exec_fdMend_lostArm ha hw⟩

/-- Settles O50, by the command: the rows it walks are the calls of its meaning, in the same order. -/
theorem microStepsAgreeWithCommand : Obligations.MicroStepsAgreeWithCommand := by
  have agree {c : FdCommand} {i : Instr} {s : State} {k : Nat} (h : MicroAgrees c i s)
      (hk : 2 * s.regs.fdPollBound + 6 ≤ k) :
      (microRun k (fdBegin c s)).micro = .answered ∧ exec i s = .next (microRun k (fdBegin c s)).state := by
    obtain ⟨t, hwithin, hexec⟩ := h
    obtain ⟨hmicro, hstate⟩ := hwithin k hk
    exact ⟨hmicro, by rw [hexec, hstate]⟩
  intro c s k hk
  cases c with
  | auto => exact agree (microAgrees_auto s) hk
  | mstart => exact agree (microAgrees_mstart s) hk
  | mend => exact agree (microAgrees_mend s) hk

end Sys2Proof.Machine
end

section
/-!
Proofs about the retrying NVM primitives (`44_paged_writer.md` R171 to R173). `MemWrite` and `MemRead` are one loop over
their attempt (`retryLoop`); what it does is said once, for the events of R171 and R172.
-/

namespace Sys2Proof.Machine

/-! ## The ready wait (R173) -/

/-- A ready poll that answers 0. -/
def notReady (s : State) : Event := .blkReady s.params.nvmDev false

theorem readyWaitLoop_notReady {j k : Nat} {s : State}
    (h : repliesOf s.env (List.replicate j (notReady s)) = true) :
    readyWaitLoop (j + k) s = readyWaitLoop k (performed (List.replicate j (notReady s)) s) := by
  induction j generalizing s with
  | zero => simp
  | succ j ih =>
    rw [List.replicate_succ, repliesOf_cons, Bool.and_eq_true] at h
    obtain ⟨hpoll, hrest⟩ := h
    have hnext := ih (s := performed [notReady s] s) hrest
    rw [performed_performed] at hnext
    rw [Nat.add_right_comm, readyWaitLoop, blkReady_eq hpoll]
    exact hnext

theorem readyWait_eq_ready {k : Nat} {s : State} (hk : k < s.regs.readyBound)
    (h : repliesOf s.env (readyAfter s k) = true) : readyWait s = (true, performed (readyAfter s k) s) := by
  obtain ⟨hpolls, hready⟩ := repliesOf_append_iff.mp h
  rw [repliesOf_cons, Bool.and_eq_true] at hready
  obtain ⟨m, hm⟩ := Nat.exists_eq_add_of_lt hk
  rw [readyWait, hm, Nat.add_assoc, readyWaitLoop_notReady hpolls, readyWaitLoop,
    blkReady_eq (s := performed (List.replicate k (notReady s)) s) hready.1, performed_performed]
  rfl

theorem readyWait_eq_never {s : State} (h : repliesOf s.env (neverReady s) = true) :
    readyWait s = (false, performed (neverReady s) s) := by
  rw [readyWait]
  exact readyWaitLoop_notReady (j := s.regs.readyBound) (k := 0) h

/-- The ready wait in a run from `s`, once the events `fs` are performed. -/
theorem readyWait_performed {k : Nat} {fs : List Event} {s : State} (hk : k < s.regs.readyBound)
    (h : repliesOf (s.env.replay fs) (readyAfter s k) = true) :
    readyWait (performed fs s) = (true, performed (fs ++ readyAfter s k) s) := by
  rw [readyWait_eq_ready (s := performed fs s) hk h, performed_performed]
  rfl

theorem readyWait_performed_never {fs : List Event} {s : State}
    (h : repliesOf (s.env.replay fs) (neverReady s) = true) :
    readyWait (performed fs s) = (false, performed (fs ++ neverReady s) s) := by
  rw [readyWait_eq_never (s := performed fs s) h, performed_performed]
  rfl

theorem polls_ready_or_never (s : State) (k : Nat) (v : Env) :
    (∃ j, j < k ∧ repliesOf v (readyAfter s j) = true)
      ∨ repliesOf v (List.replicate k (notReady s)) = true := by
  induction k generalizing v with
  | zero => exact .inr rfl
  | succ k ih =>
    cases hbit : v.takeBlkReady.1 with
    | true => exact .inl ⟨0, k.succ_pos, by simp [readyAfter, replyOf, hbit]⟩
    | false =>
      have hpoll : replyOf v (notReady s) = true := by simp [replyOf, notReady, hbit]
      have hnext {es : List Event} (h : repliesOf (v.apply (notReady s)) es = true) :
          repliesOf v (notReady s :: es) = true := by rw [repliesOf_cons, hpoll, h]; rfl
      obtain ⟨j, hj, h⟩ | h := ih (v.apply (notReady s))
      · exact .inl ⟨j + 1, by omega, hnext h⟩
      · exact .inr (hnext h)

theorem exists_readyWait (s : State) (v : Env) :
    (∃ k, k < s.regs.readyBound ∧ repliesOf v (readyAfter s k) = true) ∨ repliesOf v (neverReady s) = true :=
  polls_ready_or_never s s.regs.readyBound v

/-! ## One loop for both primitives -/

/-- The loop of R171 and R172 around an attempt, whose result is `none` where the transfer failed. -/
def retryLoop {α : Type} (lost : α) (attempt : State → Option α × State) (k : Nat) (s : State) : α × State :=
  match k with
  | 0 => (lost, s)
  | k + 1 =>
    match attempt s with
    | (some x, s1) => (x, s1)
    | (none, s1) =>
      if k = 0 then (lost, s1)
      else
        match readyWait s1 with
        | (true, s2) => retryLoop lost attempt k s2
        | (false, s2) => (lost, s2)

/-- One attempt of `MemWrite`. -/
def putAttempt (a : Nat) (v : List Byte) (s : State) : Option Status × State :=
  match blkWrite a v s with
  | (.ok, s1) => (some .ok, s1)
  | (.fail, s1) => (none, s1)

/-- One attempt of `MemRead`. -/
def getAttempt (a n : Nat) (s : State) : Option (Option (List Byte)) × State :=
  match blkRead a n s with
  | ((b, .ok), s1) => (some (some b), s1)
  | ((_, .fail), s1) => (none, s1)

theorem memWriteLoop_eq_retryLoop (k a : Nat) (v : List Byte) (s : State) :
    memWriteLoop k a v s = retryLoop .fail (putAttempt a v) k s := by
  induction k generalizing s with
  | zero => rfl
  | succ k ih =>
    rw [memWriteLoop, retryLoop, putAttempt]
    rcases blkWrite a v s with ⟨_ | _, s1⟩
    · rfl
    · dsimp only
      split
      · rfl
      · rcases readyWait s1 with ⟨_ | _, s2⟩
        · rfl
        · exact ih s2

theorem memReadLoop_eq_retryLoop (k a n : Nat) (s : State) :
    memReadLoop k a n s = retryLoop none (getAttempt a n) k s := by
  induction k generalizing s with
  | zero => rfl
  | succ k ih =>
    rw [memReadLoop, retryLoop, getAttempt]
    rcases blkRead a n s with ⟨⟨b, _ | _⟩, s1⟩
    · rfl
    · dsimp only
      split
      · rfl
      · rcases readyWait s1 with ⟨_ | _, s2⟩
        · rfl
        · exact ih s2

/-! ## What the loop does -/

/-- In a run from `s` the attempt answers `x` where the environment's reply is that of `e`. -/
def Answers {α : Type} (attempt : State → Option α × State) (e : Event) (x : Option α) (s : State) : Prop :=
  ∀ fs, replyOf (s.env.replay fs) e = true → attempt (performed fs s) = (x, performed (fs ++ [e]) s)

theorem putAttempt_ok (a : Nat) (v : List Byte) (s : State) :
    Answers (putAttempt a v) (putEv s a v .ok) (some .ok) s := by
  intro fs h
  rw [putAttempt, blkWrite_eq (s := performed fs s) h, performed_performed]
  rfl

theorem putAttempt_fail (a : Nat) (v : List Byte) (s : State) :
    Answers (putAttempt a v) (putEv s a v .fail) none s := by
  intro fs h
  rw [putAttempt, blkWrite_eq (s := performed fs s) h, performed_performed]
  rfl

theorem getAttempt_ok (a : Nat) (b : List Byte) (s : State) :
    Answers (getAttempt a b.length) (getEv s a b.length b .ok) (some (some b)) s := by
  intro fs h
  rw [getAttempt, blkRead_eq (s := performed fs s) h, performed_performed]
  rfl

theorem getAttempt_fail (a n : Nat) (b : List Byte) (s : State) :
    Answers (getAttempt a n) (getEv s a n b .fail) none s := by
  intro fs h
  rw [getAttempt, blkRead_eq (s := performed fs s) h, performed_performed]
  rfl

section
variable {α : Type} {x lost : α} {attempt : State → Option α × State} {isLost : Event → Prop} {s : State}

theorem attemptsEv_cons (l : Event × Nat) (ls : List (Event × Nat)) :
    attemptsEv s (l :: ls) = (l.1 :: readyAfter s l.2) ++ attemptsEv s ls := rfl

theorem retryLoop_ok {fs : List Event} {e : Event} (k : Nat) (hok : Answers attempt e (some x) s)
    (h : replyOf (s.env.replay fs) e = true) :
    retryLoop lost attempt (k + 1) (performed fs s) = (x, performed (fs ++ [e]) s) := by
  rw [retryLoop, hok fs h]

theorem retryLoop_last {fs : List Event} {e : Event} (hfail : Answers attempt e none s)
    (h : replyOf (s.env.replay fs) e = true) :
    retryLoop lost attempt 1 (performed fs s) = (lost, performed (fs ++ [e]) s) := by
  rw [retryLoop, hfail fs h]
  rfl

theorem retryLoop_again {fs : List Event} {e : Event} {j : Nat} (k : Nat) (hfail : Answers attempt e none s)
    (hj : j < s.regs.readyBound) (h : repliesOf (s.env.replay fs) (e :: readyAfter s j) = true) :
    retryLoop lost attempt (k + 2) (performed fs s)
      = retryLoop lost attempt (k + 1) (performed (fs ++ e :: readyAfter s j) s) := by
  obtain ⟨he, hready⟩ := Bool.and_eq_true_iff.mp h
  have hwait := readyWait_performed (fs := fs ++ [e]) hj (by rw [replay_append]; exact hready)
  rw [retryLoop, hfail fs he]
  simp only [hwait, Nat.succ_ne_zero, if_false, List.append_assoc, List.singleton_append]

theorem retryLoop_neverReady {fs : List Event} {e : Event} (k : Nat) (hfail : Answers attempt e none s)
    (h : repliesOf (s.env.replay fs) (e :: neverReady s) = true) :
    retryLoop lost attempt (k + 2) (performed fs s) = (lost, performed (fs ++ e :: neverReady s) s) := by
  obtain ⟨he, hnever⟩ := Bool.and_eq_true_iff.mp h
  have hwait := readyWait_performed_never (fs := fs ++ [e]) (by rw [replay_append]; exact hnever)
  rw [retryLoop, hfail fs he]
  simp only [hwait, Nat.succ_ne_zero, if_false, List.append_assoc, List.singleton_append]

/-- Failed attempts, each with a ready wait that succeeds, take the loop to its next attempt. -/
theorem retryLoop_attempts {ls : List (Event × Nat)} {fs : List Event} (k : Nat)
    (hfail : ∀ e, isLost e → Answers attempt e none s) (hls : lostAttempts s isLost ls)
    (h : repliesOf (s.env.replay fs) (attemptsEv s ls) = true) :
    retryLoop lost attempt (ls.length + (k + 1)) (performed fs s)
      = retryLoop lost attempt (k + 1) (performed (fs ++ attemptsEv s ls) s) := by
  induction ls generalizing fs with
  | nil => simp [attemptsEv]
  | cons l ls ih =>
    obtain ⟨⟨hl, hj⟩, hls⟩ := List.forall_mem_cons.mp hls
    rw [attemptsEv_cons] at h
    obtain ⟨hone, hrest⟩ := repliesOf_append_iff.mp h
    rw [← replay_append] at hrest
    calc retryLoop lost attempt ((l :: ls).length + (k + 1)) (performed fs s)
        = retryLoop lost attempt (ls.length + k + 2) (performed fs s) := by
          rw [List.length_cons]; congr 1; omega
      _ = retryLoop lost attempt (ls.length + (k + 1)) (performed (fs ++ (l.1 :: readyAfter s l.2)) s) :=
          retryLoop_again _ (hfail l.1 hl) hj hone
      _ = retryLoop lost attempt (k + 1) (performed (fs ++ attemptsEv s (l :: ls)) s) := by
          rw [ih hls hrest, attemptsEv_cons, List.append_assoc]

theorem retryLoop_eq_retried {e : Event} {es : List Event} (hfail : ∀ e, isLost e → Answers attempt e none s)
    (hok : Answers attempt e (some x) s) (hes : retried s isLost e es) (h : repliesOf s.env es = true) :
    retryLoop lost attempt s.regs.attemptBound s = (x, performed es s) := by
  obtain ⟨ls, hls, hlen, rfl⟩ := hes
  obtain ⟨hlost, hlast⟩ := repliesOf_append_iff.mp h
  rw [repliesOf_cons, Bool.and_eq_true] at hlast
  obtain ⟨k, hk⟩ := Nat.exists_eq_add_of_lt hlen
  have hattempts := retryLoop_attempts (lost := lost) (fs := []) k hfail hls hlost
  rw [performed_nil, List.nil_append] at hattempts
  rw [hk, Nat.add_assoc, hattempts, retryLoop_ok k hok hlast.1]

theorem retryLoop_eq_gaveUp {es : List Event} (hfail : ∀ e, isLost e → Answers attempt e none s)
    (hes : gaveUp s isLost es) (h : repliesOf s.env es = true) :
    retryLoop lost attempt s.regs.attemptBound s = (lost, performed es s) := by
  obtain ⟨hbound, rfl⟩ | ⟨ls, e, hls, he, ⟨hlen, rfl⟩ | ⟨hlen, rfl⟩⟩ := hes
  case inl =>
    rw [hbound, performed_nil]
    rfl
  all_goals
    obtain ⟨hlost, hlast⟩ := repliesOf_append_iff.mp h
    have hattempts (k : Nat) := retryLoop_attempts (lost := lost) (fs := []) k hfail hls hlost
    simp only [performed_nil, List.nil_append] at hattempts
  case inr.inl =>
    rw [repliesOf_cons, Bool.and_eq_true] at hlast
    rw [← hlen, hattempts 0, retryLoop_last (hfail e he) hlast.1]
  case inr.inr =>
    obtain ⟨k, hk⟩ := Nat.exists_eq_add_of_lt hlen
    rw [hk, show ls.length + 1 + k + 1 = ls.length + (k + 1 + 1) by omega, hattempts (k + 1),
      retryLoop_neverReady k (hfail e he) hlast]

/-- Where each attempt succeeds or fails, some attempt of the bound `k + 1` ends the loop. -/
theorem attempts_end {isDone : Event → Prop} (hreply : ∀ v, ∃ e, replyOf v e = true ∧ (isDone e ∨ isLost e))
    (k : Nat) (v : Env) :
    ∃ ls e, lostAttempts s isLost ls ∧ ls.length ≤ k
      ∧ (isDone e ∧ repliesOf v (attemptsEv s ls ++ [e]) = true
        ∨ isLost e ∧ (ls.length = k ∧ repliesOf v (attemptsEv s ls ++ [e]) = true
          ∨ ls.length < k ∧ repliesOf v (attemptsEv s ls ++ e :: neverReady s) = true)) := by
  have hnone : lostAttempts s isLost [] := by simp [lostAttempts]
  induction k generalizing v with
  | zero =>
    obtain ⟨e, he, hend⟩ := hreply v
    have hone : repliesOf v (attemptsEv s [] ++ [e]) = true := by simpa [attemptsEv] using he
    exact ⟨[], e, hnone, Nat.le_refl _, hend.imp (⟨·, hone⟩) (⟨·, .inl ⟨rfl, hone⟩⟩)⟩
  | succ k ih =>
    obtain ⟨e, he, hdone | hlost⟩ := hreply v
    · exact ⟨[], e, hnone, Nat.zero_le _, .inl ⟨hdone, by simpa [attemptsEv] using he⟩⟩
    obtain ⟨j, hj, hready⟩ | hnever := exists_readyWait s (v.apply e)
    · have hone : repliesOf v (e :: readyAfter s j) = true := Bool.and_eq_true_iff.mpr ⟨he, hready⟩
      have hnext {ls : List (Event × Nat)} {es : List Event}
          (h : repliesOf (v.replay (e :: readyAfter s j)) (attemptsEv s ls ++ es) = true) :
          repliesOf v (attemptsEv s ((e, j) :: ls) ++ es) = true := by
        rw [attemptsEv_cons, List.append_assoc]
        exact repliesOf_append_iff.mpr ⟨hone, h⟩
      obtain ⟨ls, f, hls, hlen, hend⟩ := ih (v.replay (e :: readyAfter s j))
      refine ⟨(e, j) :: ls, f, List.forall_mem_cons.mpr ⟨⟨hlost, hj⟩, hls⟩, Nat.succ_le_succ hlen, ?_⟩
      exact hend.imp (fun ⟨hf, h⟩ => ⟨hf, hnext h⟩) fun ⟨hf, h⟩ => ⟨hf,
        h.imp (fun ⟨hl, h⟩ => ⟨congrArg (· + 1) hl, hnext h⟩) fun ⟨hl, h⟩ => ⟨Nat.succ_lt_succ hl, hnext h⟩⟩
    · have hall : repliesOf v (attemptsEv s [] ++ e :: neverReady s) = true := Bool.and_eq_true_iff.mpr ⟨he, hnever⟩
      exact ⟨[], e, hnone, Nat.zero_le _, .inr ⟨hlost, .inr ⟨k.succ_pos, hall⟩⟩⟩

theorem exists_retried_or_gaveUp {isDone : Event → Prop}
    (hreply : ∀ v, ∃ e, replyOf v e = true ∧ (isDone e ∨ isLost e)) :
    ∃ es, ((∃ e, isDone e ∧ retried s isLost e es) ∨ gaveUp s isLost es) ∧ repliesOf s.env es = true := by
  rcases hbound : s.regs.attemptBound with _ | k
  · exact ⟨[], .inr (.inl ⟨hbound, rfl⟩), rfl⟩
  obtain ⟨ls, e, hls, hlen, ⟨he, h⟩ | ⟨he, ⟨hk, h⟩ | ⟨hk, h⟩⟩⟩ := attempts_end (s := s) hreply k s.env
  · exact ⟨_, .inl ⟨e, he, ls, hls, by omega, rfl⟩, h⟩
  · exact ⟨_, .inr (.inr ⟨ls, e, hls, he, .inl ⟨by omega, rfl⟩⟩), h⟩
  · exact ⟨_, .inr (.inr ⟨ls, e, hls, he, .inr ⟨by omega, rfl⟩⟩), h⟩

end

/-! ## The primitives (R171, R172) -/

theorem memWrite_eq {a : Nat} {v : List Byte} {es : List Event} {s : State} (hes : putDone s a v es)
    (h : repliesOf s.env es = true) : memWrite a v s = (.ok, performed es s) := by
  rw [memWrite, memWriteLoop_eq_retryLoop]
  exact retryLoop_eq_retried (by rintro _ rfl; exact putAttempt_fail a v s) (putAttempt_ok a v s) hes h

theorem memWrite_eq_lost {a : Nat} {v : List Byte} {es : List Event} {s : State} (hes : putLost s a v es)
    (h : repliesOf s.env es = true) : memWrite a v s = (.fail, performed es s) := by
  rw [memWrite, memWriteLoop_eq_retryLoop]
  exact retryLoop_eq_gaveUp (by rintro _ rfl; exact putAttempt_fail a v s) hes h

theorem memRead_eq {a : Nat} {b : List Byte} {es : List Event} {s : State} (hes : getDone s a b es)
    (h : repliesOf s.env es = true) : memRead a b.length s = (some b, performed es s) := by
  rw [memRead, memReadLoop_eq_retryLoop]
  exact retryLoop_eq_retried (by rintro _ ⟨x, rfl⟩; exact getAttempt_fail a b.length x s) (getAttempt_ok a b s) hes h

theorem memRead_eq_lost {a n : Nat} {es : List Event} {s : State} (hes : getLost s a n es)
    (h : repliesOf s.env es = true) : memRead a n s = (none, performed es s) := by
  rw [memRead, memReadLoop_eq_retryLoop]
  exact retryLoop_eq_gaveUp (by rintro _ ⟨x, rfl⟩; exact getAttempt_fail a n x s) hes h

theorem exists_memWrite (a : Nat) (v : List Byte) (s : State) :
    ∃ es, (putDone s a v es ∨ putLost s a v es) ∧ repliesOf s.env es = true := by
  have hreply (u : Env) : ∃ e, replyOf u e = true ∧ (e = putEv s a v .ok ∨ e = putEv s a v .fail) := by
    rcases hst : (u.blkWrite a v).1 with _ | _
    · exact ⟨putEv s a v .ok, decide_eq_true hst, .inl rfl⟩
    · exact ⟨putEv s a v .fail, decide_eq_true hst, .inr rfl⟩
  obtain ⟨es, ⟨e, rfl, hdone⟩ | hlost, h⟩ := exists_retried_or_gaveUp (s := s) hreply
  · exact ⟨es, .inl hdone, h⟩
  · exact ⟨es, .inr hlost, h⟩

theorem exists_memRead (a n : Nat) (s : State) :
    ∃ es, ((∃ b, b.length = n ∧ getDone s a b es) ∨ getLost s a n es) ∧ repliesOf s.env es = true := by
  have hreply (u : Env) : ∃ e, replyOf u e = true
      ∧ ((∃ b, b.length = n ∧ e = getEv s a n b .ok) ∨ ∃ b, e = getEv s a n b .fail) := by
    have hlen := env_blkRead_length u a n
    rcases hrd : (u.blkRead a n).1 with ⟨b, _ | _⟩
    · rw [hrd] at hlen
      exact ⟨getEv s a n b .ok, decide_eq_true hrd, .inl ⟨b, hlen, rfl⟩⟩
    · exact ⟨getEv s a n b .fail, decide_eq_true hrd, .inr ⟨b, rfl⟩⟩
  obtain ⟨es, ⟨e, ⟨b, rfl, rfl⟩, hdone⟩ | hlost, h⟩ := exists_retried_or_gaveUp (s := s) hreply
  · exact ⟨es, .inl ⟨b, rfl, hdone⟩, h⟩
  · exact ⟨es, .inr hlost, h⟩

/-- Settles O51: the loops along the listed runs, and the reply there is at each transfer. -/
theorem retryPrimitives : Obligations.RetryPrimitives :=
  fun s => ⟨fun _ hk h => readyWait_eq_ready hk h, readyWait_eq_never, fun _ _ _ hes h => memWrite_eq hes h,
    fun _ _ _ hes h => memWrite_eq_lost hes h, fun _ _ _ hes h => memRead_eq hes h,
    fun _ _ _ hes h => memRead_eq_lost hes h, fun a v => exists_memWrite a v s, fun a n => exists_memRead a n s⟩

end Sys2Proof.Machine
end

section
/-!
Proofs about the chunks of `44_paged_writer.md` R174 and R175. The chunks of a region are its first chunk and those of
the rest (`pieces_cons`), and every fact about them is an induction over that recursion (`chunk_induction`).
-/

namespace Sys2Proof.Machine

section
variable {pageLen : Nat}

/-! ## The length of a chunk -/

theorem chunkLen_pos (hp : 1 ≤ pageLen) (a : Nat) {n : Nat} (hn : 0 < n) : 0 < chunkLen pageLen a n := by
  have hmod := Nat.mod_lt a hp
  unfold chunkLen
  omega

theorem chunkLen_le (pageLen a n : Nat) : chunkLen pageLen a n ≤ n := Nat.min_le_right _ _

theorem chunkLen_of_lt {a n : Nat} (h : chunkLen pageLen a n < n) :
    chunkLen pageLen a n = pageLen - a % pageLen := by
  unfold chunkLen at h ⊢
  omega

theorem chunkLen_within_page (hp : 1 ≤ pageLen) (a : Nat) {n : Nat} (hn : 0 < n) :
    (a + chunkLen pageLen a n - 1) / pageLen = a / pageLen := by
  have hmod := Nat.mod_lt a hp
  have hpos := chunkLen_pos hp a hn
  have hle : chunkLen pageLen a n ≤ pageLen - a % pageLen := Nat.min_le_left _ _
  have hsplit := Nat.div_add_mod a pageLen
  have hlast : a + chunkLen pageLen a n - 1
      = pageLen * (a / pageLen) + (a % pageLen + chunkLen pageLen a n - 1) := by omega
  have hin : a % pageLen + chunkLen pageLen a n - 1 < pageLen := by omega
  rw [hlast, Nat.mul_add_div hp, Nat.div_eq_of_lt hin, Nat.add_zero]

/-- Where data remains, the next chunk starts at the next page. -/
theorem add_chunkLen_of_lt (hp : 1 ≤ pageLen) {a n : Nat} (h : chunkLen pageLen a n < n) :
    a + chunkLen pageLen a n = pageLen * (a / pageLen + 1) := by
  have hmod := Nat.mod_lt a hp
  have hsplit := Nat.div_add_mod a pageLen
  rw [chunkLen_of_lt h, Nat.mul_add]
  omega

/-! ## The first chunk and the others -/

/-- The fuel does not matter where there is enough: a chunk is never empty. -/
theorem chunks_fuel {f g a n : Nat} (hp : 1 ≤ pageLen) (hf : n ≤ f) (hg : n ≤ g) :
    chunks f pageLen a n = chunks g pageLen a n := by
  induction f generalizing g a n with
  | zero =>
    obtain rfl := Nat.le_zero.mp hf
    cases g <;> rfl
  | succ f ih =>
    rcases Nat.eq_zero_or_pos n with rfl | hn
    · cases g <;> rfl
    obtain ⟨g, rfl⟩ := Nat.exists_eq_add_one.mpr (hn.trans_le hg)
    have hpos := chunkLen_pos hp a hn
    rw [chunks, chunks, ih (g := g) (by omega) (by omega)]

theorem chunks_succ {a n : Nat} (hp : 1 ≤ pageLen) (hn : 0 < n) :
    chunks n pageLen a n = (a, chunkLen pageLen a n)
      :: chunks (n - chunkLen pageLen a n) pageLen (a + chunkLen pageLen a n) (n - chunkLen pageLen a n) := by
  obtain ⟨n, rfl⟩ := Nat.exists_eq_add_one.mpr hn
  have hpos := chunkLen_pos hp a hn
  rw [chunks, if_neg (Nat.succ_ne_zero n), chunks_fuel hp (by omega) (Nat.le_refl _)]

theorem chunks_start_le {fuel a n : Nat} : ∀ c ∈ chunks fuel pageLen a n, a ≤ c.1 := by
  induction fuel generalizing a n with
  | zero => simp [chunks]
  | succ fuel ih =>
    rw [chunks]
    split
    · simp
    · exact List.forall_mem_cons.mpr ⟨Nat.le_refl _, fun c hc => (Nat.le_add_right _ _).trans (ih c hc)⟩

@[simp] theorem pieces_nil (pageLen a : Nat) : pieces pageLen a [] = [] := rfl

/-- The bytes of the next chunk (R174). -/
def firstBytes (pageLen a : Nat) (data : List Byte) : List Byte := data.take (chunkLen pageLen a data.length)

/-- The bytes after the next chunk. -/
def restBytes (pageLen a : Nat) (data : List Byte) : List Byte := data.drop (chunkLen pageLen a data.length)

@[simp] theorem firstBytes_length (pageLen a : Nat) (data : List Byte) :
    (firstBytes pageLen a data).length = chunkLen pageLen a data.length := by
  rw [firstBytes, List.length_take, Nat.min_eq_left (chunkLen_le _ _ _)]

@[simp] theorem restBytes_length (pageLen a : Nat) (data : List Byte) :
    (restBytes pageLen a data).length = data.length - chunkLen pageLen a data.length :=
  List.length_drop

theorem firstBytes_append_restBytes (pageLen a : Nat) (data : List Byte) :
    firstBytes pageLen a data ++ restBytes pageLen a data = data :=
  List.take_append_drop _ _

theorem chunkLen_lt_of_restBytes {a : Nat} {data : List Byte} (h : restBytes pageLen a data ≠ []) :
    chunkLen pageLen a data.length < data.length := by
  have hpos := List.length_pos_iff.mpr h
  rw [restBytes_length] at hpos
  omega

theorem pieces_cons (hp : 1 ≤ pageLen) (a : Nat) {data : List Byte} (hd : data ≠ []) :
    pieces pageLen a data = (a, firstBytes pageLen a data)
      :: pieces pageLen (a + chunkLen pageLen a data.length) (restBytes pageLen a data) := by
  rw [pieces, chunks_succ hp (List.length_pos_iff.mpr hd), List.map_cons, Nat.sub_self, List.drop_zero, pieces,
    restBytes_length, firstBytes]
  refine congrArg _ (List.map_congr_left fun c hc => ?_)
  have hstart := chunks_start_le c hc
  rw [restBytes, List.drop_drop, show chunkLen pageLen a data.length + (c.1 - (a + chunkLen pageLen a data.length))
    = c.1 - a by omega]

theorem pieces_ne_nil (hp : 1 ≤ pageLen) (a : Nat) {data : List Byte} (hd : data ≠ []) :
    pieces pageLen a data ≠ [] := by
  rw [pieces_cons hp a hd]
  exact List.cons_ne_nil _ _

/-- Induction over the chunks of a region: nothing left, or a chunk and then the rest. -/
theorem chunk_induction (hp : 1 ≤ pageLen) {motive : Nat → List Byte → Prop} (nil : ∀ a, motive a [])
    (cons : ∀ a data, data ≠ [] → motive (a + chunkLen pageLen a data.length) (restBytes pageLen a data) →
      motive a data) (a : Nat) (data : List Byte) : motive a data := by
  induction hn : data.length using Nat.strong_induction_on generalizing a data with
  | _ n ih =>
    by_cases hd : data = []
    · rw [hd]
      exact nil a
    · have hpos := List.length_pos_iff.mpr hd
      have hchunk := chunkLen_pos hp a hpos
      exact cons a data hd (ih _ (by rw [restBytes_length]; omega) _ _ rfl)

/-! ## R175 -/

theorem pieces_within_page (hp : 1 ≤ pageLen) (a : Nat) (data : List Byte) :
    ∀ c ∈ pieces pageLen a data, 1 ≤ c.2.length ∧ c.1 / pageLen = (c.1 + c.2.length - 1) / pageLen := by
  induction a, data using chunk_induction hp with
  | nil a => simp
  | cons a data hd ih =>
    have hpos := List.length_pos_iff.mpr hd
    rw [pieces_cons hp a hd]
    refine List.forall_mem_cons.mpr ⟨?_, ih⟩
    rw [firstBytes_length]
    exact ⟨chunkLen_pos hp a hpos, (chunkLen_within_page hp a hpos).symm⟩

theorem pieces_addresses (hp : 1 ≤ pageLen) (a : Nat) (data : List Byte) :
    ((pieces pageLen a data).flatMap fun c => (List.range c.2.length).map fun i => c.1 + i)
      = (List.range data.length).map fun i => a + i := by
  induction a, data using chunk_induction hp with
  | nil a => rfl
  | cons a data hd ih =>
    have hlen : data.length = chunkLen pageLen a data.length + (restBytes pageLen a data).length := by
      have hle := chunkLen_le pageLen a data.length
      rw [restBytes_length]
      omega
    rw [pieces_cons hp a hd, List.flatMap_cons, ih, firstBytes_length]
    conv_rhs => rw [hlen, List.range_add, List.map_append, List.map_map]
    simp only [Function.comp_def, Nat.add_assoc]

theorem pieces_bytes (hp : 1 ≤ pageLen) (a : Nat) (data : List Byte) :
    ((pieces pageLen a data).flatMap fun c => c.2) = data := by
  induction a, data using chunk_induction hp with
  | nil a => rfl
  | cons a data hd ih => rw [pieces_cons hp a hd, List.flatMap_cons, ih, firstBytes_append_restBytes]

/-- From a page's start on, every chunk starts a page, and every chunk but the last fills one. -/
theorem pieces_aligned (hp : 1 ≤ pageLen) (a : Nat) (data : List Byte) (ha : a % pageLen = 0) :
    (∀ c ∈ pieces pageLen a data, c.1 % pageLen = 0)
      ∧ ∀ c ∈ (pieces pageLen a data).dropLast, c.2.length = pageLen := by
  induction a, data using chunk_induction hp with
  | nil a => simp
  | cons a data hd ih =>
    rw [pieces_cons hp a hd]
    by_cases hrest : restBytes pageLen a data = []
    · simp [hrest, ha]
    have hlt := chunkLen_lt_of_restBytes hrest
    obtain ⟨hstarts, hfull⟩ := ih (by rw [add_chunkLen_of_lt hp hlt, Nat.mul_mod_right])
    rw [List.dropLast_cons_of_ne_nil (pieces_ne_nil hp _ hrest)]
    refine ⟨List.forall_mem_cons.mpr ⟨ha, hstarts⟩, List.forall_mem_cons.mpr ⟨?_, hfull⟩⟩
    rw [firstBytes_length, chunkLen_of_lt hlt, ha, Nat.sub_zero]

theorem pieces_first_and_rest (hp : 1 ≤ pageLen) {a : Nat} {data : List Byte} {c : Nat × List Byte}
    {rest : List (Nat × List Byte)} (h : pieces pageLen a data = c :: rest) :
    c.2.length = min (pageLen - a % pageLen) data.length
      ∧ (∀ d ∈ rest, d.1 % pageLen = 0) ∧ ∀ d ∈ rest.dropLast, d.2.length = pageLen := by
  by_cases hd : data = []
  · simp [hd] at h
  rw [pieces_cons hp a hd] at h
  obtain ⟨rfl, rfl⟩ := List.cons.inj h
  refine ⟨firstBytes_length _ _ _, ?_⟩
  by_cases hrest : restBytes pageLen a data = []
  · simp [hrest]
  · exact pieces_aligned hp _ _ (by rw [add_chunkLen_of_lt hp (chunkLen_lt_of_restBytes hrest), Nat.mul_mod_right])

theorem pieces_length (hp : 1 ≤ pageLen) (a : Nat) (data : List Byte) :
    (pieces pageLen a data).length
      = if data = [] then 0 else (a + data.length - 1) / pageLen - a / pageLen + 1 := by
  induction a, data using chunk_induction hp with
  | nil a => rfl
  | cons a data hd ih =>
    have hpos := List.length_pos_iff.mpr hd
    rw [pieces_cons hp a hd, List.length_cons, ih, if_neg hd]
    by_cases hrest : restBytes pageLen a data = []
    · have hall : chunkLen pageLen a data.length = data.length := by
        have hle := chunkLen_le pageLen a data.length
        have hnone := restBytes_length pageLen a data
        rw [hrest, List.length_nil] at hnone
        omega
      have hpage := chunkLen_within_page hp a hpos
      rw [hall] at hpage
      rw [if_pos hrest, hpage, Nat.sub_self]
    · have hlt := chunkLen_lt_of_restBytes hrest
      have hnext := add_chunkLen_of_lt hp hlt
      have hpage : (a + chunkLen pageLen a data.length) / pageLen = a / pageLen + 1 := by
        rw [hnext, Nat.mul_div_cancel_left _ hp]
      have hend : a + chunkLen pageLen a data.length + (data.length - chunkLen pageLen a data.length) - 1
          = a + data.length - 1 := by omega
      have hafter : a / pageLen + 1 ≤ (a + data.length - 1) / pageLen := by
        rw [← hpage]
        exact Nat.div_le_div_right (by omega)
      rw [if_neg hrest, restBytes_length, hend, hpage]
      omega

end

/-- Settles O53, by induction over the chunks. -/
theorem chunksPartitionRegion : Obligations.ChunksPartitionRegion :=
  fun _ start data hp => ⟨pieces_within_page hp start data, pieces_addresses hp start data, pieces_bytes hp start data,
    fun _ _ h => pieces_first_and_rest hp h, pieces_length hp start data⟩

end Sys2Proof.Machine
end

section
/-!
Proofs about `WriteSpanning` and `LOG.ERASE` (`44_paged_writer.md` R174, R176). The loop of R174 is a walk over the
chunks of R175 (`writeSpanning_eq_writePieces`), and its runs follow that list.
-/

namespace Sys2Proof.Machine

/-! ## The writer is a walk over the chunks -/

/-- Chunk after chunk, with a ready wait between two (R174). -/
def writePieces (cs : List (Nat × List Byte)) (s : State) : Status × State :=
  match cs with
  | [] => (.ok, s)
  | c :: rest =>
    match memWrite c.1 c.2 s with
    | (.fail, s1) => (.fail, s1)
    | (.ok, s1) =>
      if rest = [] then (.ok, s1)
      else
        match readyWait s1 with
        | (false, s2) => (.fail, s2)
        | (true, s2) => writePieces rest s2

theorem memWrite_params {a : Nat} {v : List Byte} {s t : State} {st : Status} (h : memWrite a v s = (st, t)) :
    t.params = s.params :=
  (memWrite_ran (r := fun _ _ => True) (w := fun _ _ => True) trivial h).params

theorem readyWait_params {s t : State} {o : Bool} (h : readyWait s = (o, t)) : t.params = s.params :=
  (readyWait_ran (r := fun _ _ => True) (w := fun _ _ => True) h).params

theorem writeSpanningLoop_nil (fuel a : Nat) (s : State) : writeSpanningLoop fuel a [] s = (.ok, s) := by
  cases fuel <;> rfl

theorem writeSpanningLoop_eq_writePieces {pageLen : Nat} (hp : 1 ≤ pageLen) (a : Nat) (data : List Byte) :
    ∀ (fuel : Nat) (s : State), s.params.pageLen = pageLen → data.length ≤ fuel →
      writeSpanningLoop fuel a data s = writePieces (pieces pageLen a data) s := by
  induction a, data using chunk_induction hp with
  | nil a => exact fun fuel s _ _ => writeSpanningLoop_nil fuel a s
  | cons a data hd ih =>
    intro fuel s hs hfuel
    have hpos := List.length_pos_iff.mpr hd
    have hchunk := chunkLen_pos hp a hpos
    obtain ⟨fuel, rfl⟩ := Nat.exists_eq_add_one.mpr (hpos.trans_le hfuel)
    have hleft : (data.drop (chunkLen pageLen a data.length)).length ≤ fuel := by
      rw [List.length_drop]
      omega
    obtain ⟨b, bs, hdata⟩ := List.exists_cons_of_ne_nil hd
    conv_lhs => rw [hdata, writeSpanningLoop, ← hdata, hs]
    rw [pieces_cons hp a hd, writePieces, firstBytes]
    rw [restBytes] at ih ⊢
    rcases hwrite : memWrite a (data.take (chunkLen pageLen a data.length)) s with ⟨_ | _, s1⟩
    case fail => rfl
    case ok =>
      rcases hrest : data.drop (chunkLen pageLen a data.length) with _ | ⟨c, rest⟩
      · rfl
      rw [hrest] at ih hleft
      dsimp only
      rw [if_neg (pieces_ne_nil hp _ (List.cons_ne_nil c rest))]
      rcases hwait : readyWait s1 with ⟨_ | _, s2⟩
      · rfl
      · exact ih fuel s2 (by rw [readyWait_params hwait, memWrite_params hwrite, hs]) hleft

theorem writeSpanning_eq_writePieces {start : Nat} {data : List Byte} {s : State} (hp : 1 ≤ s.params.pageLen) :
    writeSpanning start data s = writePieces (pieces s.params.pageLen start data) s :=
  writeSpanningLoop_eq_writePieces hp start data _ s rfl (Nat.le_refl _)

/-! ## Its runs (R174) -/

/-- The walk in a run from `s`, once the events `fs` are performed. -/
theorem writePieces_eq {cs : List (Nat × List Byte)} {fs es : List Event} {s : State} (hes : spanDone s cs es)
    (h : repliesOf (s.env.replay fs) es = true) :
    writePieces cs (performed fs s) = (.ok, performed (fs ++ es) s) := by
  induction cs generalizing fs es with
  | nil =>
    obtain rfl : es = [] := hes
    rw [List.append_nil]
    rfl
  | cons c rest ih =>
    rcases rest with _ | ⟨d, rest⟩
    · rw [writePieces, memWrite_eq (s := performed fs s) hes h, performed_performed]
      rfl
    · obtain ⟨e1, k, e2, hput, hk, hrest, rfl⟩ := hes
      obtain ⟨hreply, h⟩ := repliesOf_append_iff.mp h
      obtain ⟨hready, h⟩ := repliesOf_append_iff.mp h
      simp only [← replay_append] at hready h
      rw [writePieces, memWrite_eq (s := performed fs s) hput hreply, performed_performed]
      dsimp only
      rw [if_neg (List.cons_ne_nil d rest), readyWait_performed hk hready, ← List.append_assoc, ← List.append_assoc]
      exact ih hrest h

theorem writePieces_eq_lost {cs : List (Nat × List Byte)} {fs es : List Event} {s : State} (hes : spanLost s cs es)
    (h : repliesOf (s.env.replay fs) es = true) :
    writePieces cs (performed fs s) = (.fail, performed (fs ++ es) s) := by
  induction cs generalizing fs es with
  | nil => exact hes.elim
  | cons c rest ih =>
    obtain hlost | ⟨hne, e1, hput, hend⟩ := hes
    · rw [writePieces, memWrite_eq_lost (s := performed fs s) hlost h, performed_performed]
    have hreply : repliesOf (s.env.replay fs) e1 = true := by
      obtain rfl | ⟨k, e2, -, -, rfl⟩ := hend <;> exact (repliesOf_append_iff.mp h).1
    rw [writePieces, memWrite_eq (s := performed fs s) hput hreply, performed_performed]
    dsimp only
    rw [if_neg hne]
    obtain rfl | ⟨k, e2, hk, hrest, rfl⟩ := hend
    · obtain ⟨-, hnever⟩ := repliesOf_append_iff.mp h
      rw [← replay_append] at hnever
      rw [readyWait_performed_never hnever, List.append_assoc]
    · obtain ⟨-, h⟩ := repliesOf_append_iff.mp h
      obtain ⟨hready, h⟩ := repliesOf_append_iff.mp h
      simp only [← replay_append] at hready h
      rw [readyWait_performed hk hready, ← List.append_assoc, ← List.append_assoc]
      exact ih hrest h

/-- Settles O52, by the walk over the chunks. -/
theorem spanningWrite : Obligations.SpanningWrite := by
  intro start data es s hp h
  rw [writeSpanning_eq_writePieces hp]
  exact ⟨fun hes => by simpa using writePieces_eq (fs := []) hes h,
    fun hes => by simpa using writePieces_eq_lost (fs := []) hes h⟩

/-! ## `LOG.ERASE` (R176) -/

theorem exec_logErase {start length : Nat} {s : State} (h : start + length ≤ 4294967296) :
    exec (.logErase start length) s
      = .next (finishLogWrite (writeSpanning start (List.replicate length 0xFF) s)) :=
  congrArg Host.Outcome.next (if_neg (Nat.not_lt.mpr h))

theorem finishLogWrite_ok (es : List Event) (s : State) :
    finishLogWrite (.ok, performed es s) = ended s es s.regs true 0 := by
  have hend := finish_eq .log eNone true 0 es s.regs s rfl
  rwa [dueEv_eNone, List.append_nil] at hend

theorem finishLogWrite_fail (es : List Event) (s : State) :
    finishLogWrite (.fail, performed es s) = ended s (es ++ dueEv s .log 0x0001) s.regs false 0 :=
  finish_eq .log eTransport false 0 es s.regs s rfl

/-- Settles O54: the end of `LOG.ERASE` after each end of the writer. -/
theorem regionErase : Obligations.RegionErase := by
  intro start length es s hp hfits h
  obtain ⟨hdone, hlost⟩ := spanningWrite start (List.replicate length 0xFF) es s hp h
  rw [exec_logErase hfits]
  exact ⟨fun hes => by rw [hdone hes, finishLogWrite_ok], fun hes => by rw [hlost hes, finishLogWrite_fail]⟩

end Sys2Proof.Machine
end

section
/-!
Proofs about the measurement log (`45_measurement_log.md` R190 to R199). The NVM fields are numbers written byte by
byte (R42), so a field is its bytes and the bytes are the field (`ube_be16`, `ube_be64`, `ube_serRecord`, `ube_inj`).
-/

namespace Sys2Proof.Machine

/-! ## Numbers and their bytes (R42, R53) -/

theorem toNat_append_add {m n : Nat} (x : BitVec m) (y : BitVec n) : (x ++ y).toNat = x.toNat * 2 ^ n + y.toNat := by
  rw [BitVec.toNat_append, ← Nat.shiftLeft_add_eq_or_of_lt y.isLt, Nat.shiftLeft_eq]

theorem ube_append_byte (bs : List Byte) (b : Byte) : ube (bs ++ [b]) = ube bs * 256 + b.toNat := by
  simp [ube]

/-- A number of a given length is written in one way. -/
theorem ube_inj {bs cs : List Byte} (hlen : bs.length = cs.length) (h : ube bs = ube cs) : bs = cs := by
  induction bs using List.reverseRecOn generalizing cs with
  | nil => exact (List.length_eq_zero_iff.mp hlen.symm).symm
  | append_singleton bs b ih =>
    obtain rfl | ⟨cs, c, rfl⟩ := List.eq_nil_or_concat' cs
    · simp at hlen
    simp only [List.length_append, List.length_singleton, Nat.add_right_cancel_iff] at hlen
    rw [ube_append_byte, ube_append_byte] at h
    have hb := b.isLt
    have hc := c.isLt
    rw [ih hlen (by omega), BitVec.eq_of_toNat_eq (x := b) (y := c) (by omega)]

theorem ube_be16 (v : Half) : ube (be16 v) = v.toNat := by
  have hv := v.isLt
  simp [ube, be16, Nat.shiftRight_eq_div_pow]
  omega

theorem ube_be64 (v : Data) : ube (be64 v) = v.toNat := by
  have hv := v.isLt
  simp [ube, be64, Nat.shiftRight_eq_div_pow]
  omega

theorem ube_serRecord (r : BitVec 56) : ube (serRecord r) = r.toNat := by
  have hr := r.isLt
  simp [ube, serRecord, Nat.shiftRight_eq_div_pow]
  omega

theorem ube_pair (hi lo : Byte) : ube [hi, lo] = (hi ++ lo : Half).toNat := by
  simp [ube, toNat_append_byte]

theorem be16_append (hi lo : Byte) : be16 (hi ++ lo) = [hi, lo] := bytesOfRaw_append hi lo

theorem be64_append (t7 t6 t5 t4 t3 t2 t1 t0 : Byte) :
    be64 (t7 ++ t6 ++ t5 ++ t4 ++ t3 ++ t2 ++ t1 ++ t0) = [t7, t6, t5, t4, t3, t2, t1, t0] := by
  have hnumber : ube [t7, t6, t5, t4, t3, t2, t1, t0] = (t7 ++ t6 ++ t5 ++ t4 ++ t3 ++ t2 ++ t1 ++ t0).toNat := by
    simp [ube, toNat_append_add, -BitVec.toNat_append, -Nat.reduceAdd]
  exact ube_inj rfl ((ube_be64 _).trans hnumber.symm)

theorem serRecord_append (id dHi dLo p3 p2 p1 p0 : Byte) :
    serRecord (recordNumber id (dHi ++ dLo) (p3 ++ p2 ++ p1 ++ p0)) = [id, dHi, dLo, p3, p2, p1, p0] := by
  have hnumber : ube [id, dHi, dLo, p3, p2, p1, p0] = (id ++ (dHi ++ dLo) ++ (p3 ++ p2 ++ p1 ++ p0)).toNat := by
    simp [ube, toNat_append_add, -BitVec.toNat_append, -Nat.reduceAdd]
    omega
  exact ube_inj rfl ((ube_serRecord _).trans hnumber.symm)

/-- A response carries the number of the bytes read (R72, R195 to R198). -/
theorem bytesData_eq {bs : List Byte} {x : Data} (h : ube bs = x.toNat) : bytesData bs = x := by
  rw [bytesData, h, BitVec.ofNat_toNat, BitVec.setWidth_eq]

theorem bytesData_pair (b0 b1 : Byte) : bytesData [b0, b1] = 0#48 ++ b0 ++ b1 := by
  have hnumber : ube [b0, b1] = (0#48 ++ b0 ++ b1).toNat := by
    simp [ube, toNat_append_add, -BitVec.toNat_append, -Nat.reduceAdd]
  exact bytesData_eq hnumber

theorem bytesData_seven (b0 b1 b2 b3 b4 b5 b6 : Byte) :
    bytesData [b0, b1, b2, b3, b4, b5, b6] = 0#8 ++ b0 ++ b1 ++ b2 ++ b3 ++ b4 ++ b5 ++ b6 := by
  have hnumber : ube [b0, b1, b2, b3, b4, b5, b6] = (0#8 ++ b0 ++ b1 ++ b2 ++ b3 ++ b4 ++ b5 ++ b6).toNat := by
    simp [ube, toNat_append_add, -BitVec.toNat_append, -Nat.reduceAdd]
  exact bytesData_eq hnumber

theorem bytesData_serRecord (id : Byte) (deltaT : Half) (payload : Word) :
    bytesData (serRecord (recordNumber id deltaT payload)) = 0#8 ++ id ++ deltaT ++ payload := by
  have hnumber : (id ++ deltaT ++ payload).toNat = (0#8 ++ id ++ deltaT ++ payload).toNat := by
    simp [toNat_append_add, -BitVec.toNat_append, -Nat.reduceAdd]
  exact bytesData_eq ((ube_serRecord _).trans hnumber)

theorem bytesData_be64 (v : Data) : bytesData (be64 v) = v := bytesData_eq (ube_be64 v)

theorem bytesData_eight (b0 b1 b2 b3 b4 b5 b6 b7 : Byte) :
    bytesData [b0, b1, b2, b3, b4, b5, b6, b7] = b0 ++ b1 ++ b2 ++ b3 ++ b4 ++ b5 ++ b6 ++ b7 := by
  rw [← be64_append, bytesData_be64]

end Sys2Proof.Machine
end

section
/-!
Proofs about the commands of the measurement log (`45_measurement_log.md` R192 to R198). Each command has an equation
for each of its ends, in terms of what its primitives answer; a run of the command is the runs of these primitives one
after another.
-/

namespace Sys2Proof.Machine

@[simp] theorem dueEv_performed (es : List Event) (s : State) (c : Comp) (err : Half) :
    dueEv (performed es s) c err = dueEv s c err := rfl

@[simp] theorem ended_performed (es fs : List Event) (s : State) (r : Regs) (ok : Bool) (d : Data) :
    ended (performed es s) fs r ok d = ended s (es ++ fs) r ok d := by
  rw [ended, performed_performed, ended]

/-! ## A header field lies in the first page (R52, R191) -/

theorem pieces_of_fits {pageLen a : Nat} {data : List Byte} (hd : data ≠ []) (hfits : a + data.length ≤ pageLen) :
    pieces pageLen a data = [(a, data)] := by
  have hpos := List.length_pos_iff.mpr hd
  have hlen : chunkLen pageLen a data.length = data.length := by
    rw [chunkLen, Nat.mod_eq_of_lt (by omega)]
    omega
  rw [pieces_cons (by omega) a hd, firstBytes, restBytes, hlen, List.take_length, List.drop_length, pieces_nil]

/-! ## The writer in a run from `s` (R174) -/

section
variable {a : Nat} {data : List Byte} {fs es : List Event} {s : State}

theorem writeSpanning_performed (hp : 1 ≤ s.params.pageLen) (hes : spanDone s (pieces s.params.pageLen a data) es)
    (h : repliesOf (s.env.replay fs) es = true) :
    writeSpanning a data (performed fs s) = (.ok, performed (fs ++ es) s) := by
  rw [writeSpanning_eq_writePieces (s := performed fs s) hp]
  exact writePieces_eq hes h

theorem writeSpanning_performed_lost (hp : 1 ≤ s.params.pageLen)
    (hes : spanLost s (pieces s.params.pageLen a data) es) (h : repliesOf (s.env.replay fs) es = true) :
    writeSpanning a data (performed fs s) = (.fail, performed (fs ++ es) s) := by
  rw [writeSpanning_eq_writePieces (s := performed fs s) hp]
  exact writePieces_eq_lost hes h

theorem writeHeader_performed (hd : data ≠ []) (hfits : a + data.length ≤ s.params.pageLen)
    (hes : putDone s a data es) (h : repliesOf (s.env.replay fs) es = true) :
    writeSpanning a data (performed fs s) = (.ok, performed (fs ++ es) s) := by
  have hpos := List.length_pos_iff.mpr hd
  refine writeSpanning_performed (by omega) ?_ h
  rw [pieces_of_fits hd hfits]
  exact hes

theorem writeHeader_performed_lost (hd : data ≠ []) (hfits : a + data.length ≤ s.params.pageLen)
    (hes : putLost s a data es) (h : repliesOf (s.env.replay fs) es = true) :
    writeSpanning a data (performed fs s) = (.fail, performed (fs ++ es) s) := by
  have hpos := List.length_pos_iff.mpr hd
  refine writeSpanning_performed_lost (by omega) ?_ h
  rw [pieces_of_fits hd hfits]
  exact .inl hes

end

/-! ## The ends of the log commands (R213) -/

theorem finish_log_performed (err : Half) (ok : Bool) (d : Data) (es : List Event) (s : State) :
    finish .log err ok d (performed es s) = ended s (es ++ dueEv s .log err) s.regs ok d :=
  finish_eq .log err ok d es s.regs s rfl

theorem finishTransport_log_performed (es : List Event) (s : State) :
    finishTransport .log (performed es s) = ended s (es ++ dueEv s .log 0x0001) s.regs false 0 :=
  finish_log_performed eTransport false 0 es s

/-! ## The header accessors (R196 to R198) -/

theorem readField_eq {a : Nat} {b : List Byte} {es : List Event} {s : State} (hes : getDone s a b es)
    (h : repliesOf s.env es = true) : readField a b.length s = ended s es s.regs true (bytesData b) := by
  rw [readField, memRead_eq hes h]
  dsimp only
  rw [finish_log_performed, dueEv_eNone, List.append_nil]

theorem readField_eq_lost {a n : Nat} {es : List Event} {s : State} (hes : getLost s a n es)
    (h : repliesOf s.env es = true) : readField a n s = ended s (es ++ dueEv s .log 0x0001) s.regs false 0 := by
  rw [readField, memRead_eq_lost hes h]
  exact finishTransport_log_performed es s

/-- Settles O58: each accessor is one `readField`. -/
theorem headerAccessors : Obligations.HeaderAccessors := by
  intro b0 b1 b2 b3 b4 b5 b6 b7 es s h
  refine ⟨fun hes => ?cnt, fun hes => ?cap, fun hes => ?ts, fun hes => ?cntLost, fun hes => ?capLost,
    fun hes => ?tsLost⟩
  case cnt | cap =>
    rw [← bytesData_pair]
    exact congrArg Host.Outcome.next (readField_eq hes h)
  case ts =>
    rw [← bytesData_eight]
    exact congrArg Host.Outcome.next (readField_eq hes h)
  case cntLost | capLost | tsLost => exact congrArg Host.Outcome.next (readField_eq_lost hes h)

/-! ## `LOG.INIT` (R193) -/

section
variable {ts : Data} {s t u : State}

theorem exec_logInit_of_stamp_lost (h : writeSpanning 0 (be64 ts) s = (.fail, t)) :
    exec (.logInit ts) s = .next (finishTransport .log t) := by
  rw [exec, execLogInit, tsOffset, h]

theorem exec_logInit_of_counter_lost (hts : writeSpanning 0 (be64 ts) s = (.ok, t))
    (hcnt : writeSpanning 8 [0x00, 0x00] t = (.fail, u)) :
    exec (.logInit ts) s = .next (finishTransport .log u) := by
  rw [exec, execLogInit, tsOffset, hts]
  dsimp only
  rw [cntOffset, hcnt]

theorem exec_logInit_of_counter (hts : writeSpanning 0 (be64 ts) s = (.ok, t))
    (hcnt : writeSpanning 8 [0x00, 0x00] t = (.ok, u)) :
    exec (.logInit ts) s = .next (finishLogWrite (writeSpanning 10 (be16 (BitVec.ofNat 16 u.params.cap)) u)) := by
  rw [exec, execLogInit, tsOffset, hts]
  dsimp only
  rw [cntOffset, hcnt]
  rfl

end

/-- Settles O55: the ends of the three writes, each of one chunk. -/
theorem logFormat : Obligations.LogFormat := by
  intro ts t7 t6 t5 t4 t3 t2 t1 t0 hi lo e1 e2 e3 s hp hts hcap
  have hstampBytes : be64 ts = [t7, t6, t5, t4, t3, t2, t1, t0] := by rw [hts, be64_append]
  have hcapBytes : be16 (BitVec.ofNat 16 s.params.cap) = [hi, lo] := by
    rw [Params.cap, ← hcap, BitVec.ofNat_toNat, BitVec.setWidth_eq, be16_append]
  have stampFits : 0 + [t7, t6, t5, t4, t3, t2, t1, t0].length ≤ s.params.pageLen :=
    (show 8 ≤ 12 by decide).trans hp
  have counterFits : 8 + [0x00, (0x00 : Byte)].length ≤ s.params.pageLen := (show 10 ≤ 12 by decide).trans hp
  have capFits : 10 + [hi, lo].length ≤ s.params.pageLen := hp
  have stamp (h1 : putDone s 0 [t7, t6, t5, t4, t3, t2, t1, t0] e1) (h : repliesOf s.env e1 = true) :
      writeSpanning 0 (be64 ts) s = (.ok, performed e1 s) := by
    simpa [hstampBytes] using writeHeader_performed (fs := []) (List.cons_ne_nil _ _) stampFits h1 h
  have counter (h2 : putDone s 8 [0x00, 0x00] e2) (h : repliesOf (s.env.replay e1) e2 = true) :=
    writeHeader_performed (List.cons_ne_nil _ _) counterFits h2 h
  refine ⟨fun h1 h2 h3 h => ?done, fun h1 h => ?stampLost, fun h1 h2 h => ?counterLost, fun h1 h2 h3 h => ?capLost⟩
  case stampLost =>
    have hlost : writeSpanning 0 (be64 ts) s = (.fail, performed e1 s) := by
      simpa [hstampBytes] using writeHeader_performed_lost (fs := []) (List.cons_ne_nil _ _) stampFits h1 h
    rw [exec_logInit_of_stamp_lost hlost, finishTransport_log_performed]
  case counterLost =>
    obtain ⟨hr1, hr2⟩ := repliesOf_append_iff.mp h
    have hlost := writeHeader_performed_lost (List.cons_ne_nil _ _) counterFits h2 hr2
    rw [exec_logInit_of_counter_lost (stamp h1 hr1) hlost, finishTransport_log_performed]
  case done =>
    obtain ⟨h12, hr3⟩ := repliesOf_append_iff.mp h
    obtain ⟨hr1, hr2⟩ := repliesOf_append_iff.mp h12
    rw [exec_logInit_of_counter (stamp h1 hr1) (counter h2 hr2), performed_params, hcapBytes,
      writeHeader_performed (List.cons_ne_nil _ _) capFits h3 hr3, finishLogWrite_ok]
  case capLost =>
    obtain ⟨h12, hr3⟩ := repliesOf_append_iff.mp h
    obtain ⟨hr1, hr2⟩ := repliesOf_append_iff.mp h12
    rw [exec_logInit_of_counter (stamp h1 hr1) (counter h2 hr2), performed_params, hcapBytes,
      writeHeader_performed_lost (List.cons_ne_nil _ _) capFits h3 hr3, finishLogWrite_fail]

/-! ## `ReadHeader` (R192) -/

section
variable {a b c d : Byte} {e1 e2 : List Event} {s : State}

theorem readHeader_eq (hcnt : getDone s 8 [a, b] e1) (hcap : getDone s 10 [c, d] e2)
    (h : repliesOf s.env (e1 ++ e2) = true) :
    readHeader s
      = (some ((a ++ b : Half).toNat, (c ++ d : Half).toNat), performed (e1 ++ e2) s) := by
  obtain ⟨hr1, hr2⟩ := repliesOf_append_iff.mp h
  have hread : memRead cntOffset 2 s = (some [a, b], performed e1 s) := memRead_eq hcnt hr1
  have hread' : memRead capOffset 2 (performed e1 s) = (some [c, d], _) := memRead_eq (s := performed e1 s) hcap hr2
  rw [readHeader, hread]
  dsimp only
  rw [hread', performed_performed]
  dsimp only
  rw [ube_pair, ube_pair]

theorem readHeader_eq_lost_counter (hcnt : getLost s 8 2 e1) (h : repliesOf s.env e1 = true) :
    readHeader s = (none, performed e1 s) := by
  rw [readHeader, cntOffset, memRead_eq_lost hcnt h]

theorem readHeader_eq_lost_capacity (hcnt : getDone s 8 [a, b] e1) (hcap : getLost s 10 2 e2)
    (h : repliesOf s.env (e1 ++ e2) = true) : readHeader s = (none, performed (e1 ++ e2) s) := by
  obtain ⟨hr1, hr2⟩ := repliesOf_append_iff.mp h
  have hread : memRead cntOffset 2 s = (some [a, b], performed e1 s) := memRead_eq hcnt hr1
  rw [readHeader, hread]
  dsimp only
  rw [capOffset, memRead_eq_lost (s := performed e1 s) hcap hr2, performed_performed]

end

/-! ## `LOG.GET` (R195) -/

theorem getCause_empty (cap index : Nat) : getCause 0 cap index = 0x0400 := rfl

theorem getCause_bounds {cnt cap index : Nat} (hcnt : cnt ≠ 0) (h : cap ≤ index ∨ cap < cnt) :
    getCause cnt cap index = 0x0800 := by
  rw [getCause, if_neg hcnt, if_pos h]
  rfl

theorem getCause_overflowRead {cnt cap index : Nat} (hcnt : cnt ≠ 0) (hin : index < cap) (hcap : cnt ≤ cap)
    (h : cnt ≤ index) : getCause cnt cap index = 0x1000 := by
  rw [getCause, if_neg hcnt, if_neg (by omega), if_pos h]
  rfl

theorem getCause_none {cnt cap index : Nat} (hin : index < cnt) (hcap : cnt ≤ cap) : getCause cnt cap index = 0 := by
  rw [getCause, if_neg (by omega), if_neg (by omega), if_neg (by omega)]
  rfl

section
variable {index cnt cap : Nat} {es : List Event} {s t : State}

theorem exec_logGet_of_lost (h : readHeader s = (none, performed es s)) :
    exec (.logGet index) s = .next (ended s (es ++ dueEv s .log 0x0001) s.regs false 0) := by
  rw [exec, execLogGet, h]
  exact congrArg Host.Outcome.next (finishTransport_log_performed es s)

theorem exec_logGet_of_cause {err : Half} (h : readHeader s = (some (cnt, cap), performed es s))
    (hcause : getCause cnt cap index = err) (herr : err ≠ 0) :
    exec (.logGet index) s = .next (ended s (es ++ dueEv s .log err) s.regs false 0) := by
  rw [exec, execLogGet, h]
  dsimp only
  rw [hcause, if_neg herr, finish_log_performed]

theorem exec_logGet_of_written (h : readHeader s = (some (cnt, cap), t)) (hin : index < cnt) (hcap : cnt ≤ cap) :
    exec (.logGet index) s = .next (readField (t.params.pageLen + 7 * index) 7 t) := by
  rw [exec, execLogGet, h]
  dsimp only
  rw [getCause_none hin hcap, if_pos rfl, recordAddr]

end

/-- Settles O57: the ends of the header reads, the checks in their order, the ends of the record's read. -/
theorem logGetRecord : Obligations.LogGetRecord := by
  intro index a b c d b0 b1 b2 b3 b4 b5 b6 e1 e2 e3 s
  refine ⟨fun h1 h => ?counterLost, fun h1 h2 h => ?capacityLost, fun h1 h2 => ⟨fun h => ⟨fun hzero => ?empty,
    fun hcnt hout => ?bounds, fun hcnt hin hcap hindex => ?overflowRead⟩, fun hin hcap => ⟨fun h3 h => ?recordLost,
    fun h3 h => ?done⟩⟩⟩
  case counterLost => exact exec_logGet_of_lost (readHeader_eq_lost_counter h1 h)
  case capacityLost => exact exec_logGet_of_lost (readHeader_eq_lost_capacity h1 h2 h)
  case empty =>
    exact exec_logGet_of_cause (readHeader_eq h1 h2 h) (by rw [hzero, getCause_empty]) (by decide)
  case bounds => exact exec_logGet_of_cause (readHeader_eq h1 h2 h) (getCause_bounds hcnt hout) (by decide)
  case overflowRead =>
    exact exec_logGet_of_cause (readHeader_eq h1 h2 h) (getCause_overflowRead hcnt hin hcap hindex) (by decide)
  case recordLost =>
    obtain ⟨h12, hr3⟩ := repliesOf_append_iff.mp h
    have hread := readField_eq_lost (s := performed (e1 ++ e2) s) h3 hr3
    rw [ended_performed, dueEv_performed, ← List.append_assoc] at hread
    rw [exec_logGet_of_written (readHeader_eq h1 h2 h12) hin hcap]
    exact congrArg Host.Outcome.next hread
  case done =>
    obtain ⟨h12, hr3⟩ := repliesOf_append_iff.mp h
    have hread := readField_eq (s := performed (e1 ++ e2) s) h3 hr3
    rw [ended_performed, bytesData_seven] at hread
    rw [exec_logGet_of_written (readHeader_eq h1 h2 h12) hin hcap]
    exact congrArg Host.Outcome.next hread

/-! ## `LOG.APPEND` (R194) -/

section
variable {id : Byte} {deltaT : Half} {payload : Word} {cnt cap : Nat} {es : List Event} {s t u : State}

theorem exec_logAppend_of_lost (h : readHeader s = (none, performed es s)) :
    exec (.logAppend id deltaT payload) s = .next (ended s (es ++ dueEv s .log 0x0001) s.regs false 0) := by
  rw [exec, execLogAppend, h]
  exact congrArg Host.Outcome.next (finishTransport_log_performed es s)

theorem exec_logAppend_of_record_lost (h : readHeader s = (some (cnt, cap), t)) (hcnt : cnt ≠ 0xFFFF)
    (hrecord : writeSpanning (t.params.pageLen + 7 * cnt) (serRecord (recordNumber id deltaT payload)) t
      = (.fail, u)) :
    exec (.logAppend id deltaT payload) s = .next (finishTransport .log u) := by
  rw [exec, execLogAppend, h]
  dsimp only
  rw [if_neg hcnt, recordAddr, hrecord]

theorem exec_logAppend_of_record (h : readHeader s = (some (cnt, cap), t)) (hcnt : cnt ≠ 0xFFFF)
    (hrecord : writeSpanning (t.params.pageLen + 7 * cnt) (serRecord (recordNumber id deltaT payload)) t = (.ok, u)) :
    exec (.logAppend id deltaT payload) s = .next (appendCounter cnt cap u) := by
  rw [exec, execLogAppend, h]
  dsimp only
  rw [if_neg hcnt, recordAddr, hrecord]

theorem appendCounter_eq_lost (h : writeSpanning 8 (be16 (BitVec.ofNat 16 (cnt + 1))) s = (.fail, t)) :
    appendCounter cnt cap s = finishTransport .log t := by
  rw [appendCounter, cntOffset, h]

/-- The append that fills the last slot, and every later one, signals (R194). -/
theorem appendCounter_eq (h : writeSpanning 8 (be16 (BitVec.ofNat 16 (cnt + 1))) s = (.ok, t)) :
    appendCounter cnt cap s = finish .log (if cap ≤ cnt + 1 then 0x0200 else 0) true 0 t := by
  rw [appendCounter, cntOffset, h]
  by_cases hfull : cap ≤ cnt + 1 <;> simp [raiseIf, hfull, eNone, eStorageOverflow]

end

theorem be16_succ {x : Half} {hi lo : Byte} (h : (hi ++ lo : Half) = x + 1) :
    be16 (BitVec.ofNat 16 (x.toNat + 1)) = [hi, lo] := by
  rw [BitVec.ofNat_add, BitVec.ofNat_toNat, BitVec.setWidth_eq, ← be16_append, h]
  rfl

/-- Settles O56: the ends of the header reads, of the record's write and of the counter's. -/
theorem logAppendRecord : Obligations.LogAppendRecord := by
  intro id dHi dLo p3 p2 p1 p0 a b c d nHi nLo e1 e2 e3 e4 s hp hcnt hnext
  have hpage : 1 ≤ s.params.pageLen := by omega
  have counterFits : 8 + [nHi, nLo].length ≤ s.params.pageLen := (show 10 ≤ 12 by decide).trans hp
  refine ⟨fun h1 h => ?counterLost, fun h1 h2 h => ?capacityLost,
    fun h1 h2 => ⟨fun h3 h => ?recordLost, fun h3 => ?recordDone⟩⟩
  case counterLost => exact exec_logAppend_of_lost (readHeader_eq_lost_counter h1 h)
  case capacityLost => exact exec_logAppend_of_lost (readHeader_eq_lost_capacity h1 h2 h)
  case recordLost =>
    obtain ⟨h12, hr3⟩ := repliesOf_append_iff.mp h
    have hlost := writeSpanning_performed_lost hpage h3 hr3
    rw [← serRecord_append] at hlost
    rw [exec_logAppend_of_record_lost (readHeader_eq h1 h2 h12) hcnt hlost, finishTransport_log_performed]
  case recordDone =>
    have record (h : repliesOf s.env (e1 ++ e2 ++ e3) = true) :
        exec (.logAppend id (dHi ++ dLo) (p3 ++ p2 ++ p1 ++ p0)) s
          = .next (appendCounter (a ++ b : Half).toNat (c ++ d : Half).toNat (performed (e1 ++ e2 ++ e3) s)) := by
      obtain ⟨h12, hr3⟩ := repliesOf_append_iff.mp h
      have hdone := writeSpanning_performed hpage h3 hr3
      rw [← serRecord_append] at hdone
      exact exec_logAppend_of_record (readHeader_eq h1 h2 h12) hcnt hdone
    refine ⟨fun h4 h => ?nextLost, fun h4 h => ?done⟩
    case nextLost =>
      obtain ⟨h123, hr4⟩ := repliesOf_append_iff.mp h
      have hlost := writeHeader_performed_lost (List.cons_ne_nil _ _) counterFits h4 hr4
      rw [← be16_succ hnext] at hlost
      rw [record h123, appendCounter_eq_lost hlost, finishTransport_log_performed]
    case done =>
      obtain ⟨h123, hr4⟩ := repliesOf_append_iff.mp h
      have hdone := writeHeader_performed (List.cons_ne_nil _ _) counterFits h4 hr4
      rw [← be16_succ hnext] at hdone
      rw [record h123, appendCounter_eq hdone, finish_log_performed]

end Sys2Proof.Machine
end

section
/-!
Proofs about the log on an NVM that stores what is written, with transports that succeed (`45_measurement_log.md` R199).
Each call there has one outcome: its result and what it leaves of the NVM's side of the environment (`After`). The
outcome of a command is that of its calls one after another, and what it reads back is what the NVM holds
(`Memory.heldBytes`).
-/

namespace Sys2Proof.Machine

/-! ## What the NVM holds (R52, U5) -/

/-- The `n` bytes held from address `a` on. -/
def Memory.heldBytes (m : Memory) (a n : Nat) : List Byte :=
  (List.range n).map fun i => (m.read (a + i)).getD (Config.nvmContent (a + i))

@[simp] theorem Memory.heldBytes_length (m : Memory) (a n : Nat) : (m.heldBytes a n).length = n := by
  simp [Memory.heldBytes]

theorem heldCounter_eq (s : State) : heldCounter s = ube (s.env.nvm.heldBytes 8 2) := rfl

theorem heldCapacity_eq (s : State) : heldCapacity s = ube (s.env.nvm.heldBytes 10 2) := rfl

theorem heldBytes_store_same (m : Memory) (a : Nat) (b : List Byte) :
    (m.store a b [] true).heldBytes a b.length = b := by
  refine List.ext_getElem (by simp) fun i _ hi => ?_
  simp [Memory.heldBytes, Memory.read_store_inside b m a i hi]

theorem heldBytes_store_other {a n x : Nat} {b : List Byte} (m : Memory) (h : a + n ≤ x ∨ x + b.length ≤ a) :
    (m.store x b [] true).heldBytes a n = m.heldBytes a n := by
  refine List.map_congr_left fun i hi => ?_
  have hin := List.mem_range.mp hi
  rw [Memory.read_store_outside b m x (a + i) [] true (by omega)]

/-- Two transfers to one region, one after the other, store what one transfer does. -/
theorem store_append (m : Memory) (a : Nat) (b c : List Byte) :
    m.store a (b ++ c) [] true = (m.store a b [] true).store (a + b.length) c [] true := by
  induction b generalizing m a with
  | nil => rfl
  | cons x b ih =>
    have htail := ih (m.write a x) (a + 1)
    rw [Nat.add_assoc, Nat.add_comm 1] at htail
    exact htail

/-- The NVM after `LOG.INIT ts` (R193). -/
def formatted (p : Params) (ts : Data) (m : Memory) : Memory :=
  ((m.store 0 (be64 ts) [] true).store 8 [0x00, 0x00] [] true).store 10 (be16 (BitVec.ofNat 16 p.cap)) [] true

/-- The NVM after `LOG.APPEND` of the record `r` at the counter `cnt` (R194). -/
def appended (p : Params) (cnt : Nat) (r : BitVec 56) (m : Memory) : Memory :=
  (m.store (p.pageLen + 7 * cnt) (serRecord r) [] true).store 8 (be16 (BitVec.ofNat 16 (cnt + 1))) [] true

/-- A number below `2^16` is what its two bytes say. -/
theorem ube_be16_ofNat {n : Nat} (h : n < 65536) : ube (be16 (BitVec.ofNat 16 n)) = n := by
  rw [ube_be16, BitVec.toNat_ofNat, Nat.mod_eq_of_lt h]

section
variable (p : Params) (ts : Data) (m : Memory) {cnt : Nat} {r : BitVec 56}

theorem formatted_stamp : (formatted p ts m).heldBytes 0 8 = be64 ts := by
  rw [formatted, heldBytes_store_other _ (.inl (by decide)), heldBytes_store_other _ (.inl (by decide))]
  exact heldBytes_store_same m 0 (be64 ts)

theorem formatted_counter : (formatted p ts m).heldBytes 8 2 = [0x00, 0x00] := by
  rw [formatted, heldBytes_store_other _ (.inl (by decide))]
  exact heldBytes_store_same _ 8 [0x00, 0x00]

theorem formatted_capacity : (formatted p ts m).heldBytes 10 2 = be16 (BitVec.ofNat 16 p.cap) :=
  heldBytes_store_same _ 10 (be16 (BitVec.ofNat 16 p.cap))

theorem appended_counter : (appended p cnt r m).heldBytes 8 2 = be16 (BitVec.ofNat 16 (cnt + 1)) :=
  heldBytes_store_same _ 8 (be16 (BitVec.ofNat 16 (cnt + 1)))

/-- The log's records start above the header (R52, R191). -/
theorem appended_capacity (hp : 12 ≤ p.pageLen) : (appended p cnt r m).heldBytes 10 2 = m.heldBytes 10 2 := by
  rw [appended, heldBytes_store_other _ (.inr (by simp [be16])), heldBytes_store_other _ (.inl (by omega))]

theorem appended_record (hp : 12 ≤ p.pageLen) :
    (appended p cnt r m).heldBytes (p.pageLen + 7 * cnt) 7 = serRecord r := by
  rw [appended, heldBytes_store_other _ (.inr (by simp [be16]; omega))]
  exact heldBytes_store_same m _ (serRecord r)

end

/-! ## What a call leaves -/

/-- The NVM's side of the environment: the answers to come and the bytes held (R31, R52). -/
structure NvmSide where
  writes : List PutReply
  reads : List GetReply
  polls : List Bool
  mem : Memory

/-- The NVM's side of a state's environment. -/
def State.nvmSide (s : State) : NvmSide := ⟨s.env.blkWriteQ, s.env.blkReadQ, s.env.blkReadyQ, s.env.nvm⟩

/-- From `s` to `t` the parameters and registers are kept, the responses `rs` are given, and the NVM's side is left
as `d`. -/
structure After (s t : State) (d : NvmSide) (rs : List Response) : Prop where
  params : t.params = s.params
  regs : t.regs = s.regs
  side : t.nvmSide = d
  responses : t.responses = s.responses ++ rs

theorem After.refl (s : State) : After s s s.nvmSide [] := ⟨rfl, rfl, rfl, (List.append_nil _).symm⟩

theorem After.trans {s t u : State} {d d' : NvmSide} {rs rs' : List Response} (h : After s t d rs)
    (g : After t u d' rs') : After s u d' (rs ++ rs') :=
  ⟨g.params.trans h.params, g.regs.trans h.regs, g.side, by rw [g.responses, h.responses, List.append_assoc]⟩

theorem finish_after (c : Comp) (err : Half) (ok : Bool) (data : Data) (s : State) :
    After s (finish c err ok data s) s.nvmSide [{ ok := ok, data := data }] := by
  rw [finish, notifyIfDue]
  split <;> exact ⟨rfl, rfl, rfl, rfl⟩

/-! ## The primitives (R171 to R173) -/

section
variable {a n : Nat} {b : List Byte} {s : State} {puts : List PutReply} {gets : List GetReply} {polls : List Bool}
  {m : Memory}

theorem memWrite_taken (hattempt : 1 ≤ s.regs.attemptBound) (h : s.nvmSide = ⟨taken :: puts, gets, polls, m⟩) :
    ∃ t, memWrite a b s = (.ok, t) ∧ After s t ⟨puts, gets, polls, m.store a b [] true⟩ [] := by
  obtain ⟨hputs, rfl, rfl, rfl⟩ := NvmSide.mk.inj h
  obtain ⟨k, hk⟩ := Nat.exists_eq_add_one.mpr hattempt
  rw [memWrite, hk, memWriteLoop, blkWrite, Env.blkWrite, takeBlkWrite_cons _ _ _ hputs]
  exact ⟨_, rfl, rfl, rfl, rfl, (List.append_nil _).symm⟩

theorem memRead_held (hattempt : 1 ≤ s.regs.attemptBound) (h : s.nvmSide = ⟨puts, held :: gets, polls, m⟩) :
    ∃ t, memRead a n s = (some (m.heldBytes a n), t) ∧ After s t ⟨puts, gets, polls, m⟩ [] := by
  obtain ⟨rfl, hgets, rfl, rfl⟩ := NvmSide.mk.inj h
  obtain ⟨k, hk⟩ := Nat.exists_eq_add_one.mpr hattempt
  rw [memRead, hk, memReadLoop, blkRead, Env.blkRead, takeBlkRead_cons _ _ _ hgets]
  exact ⟨_, rfl, rfl, rfl, rfl, (List.append_nil _).symm⟩

theorem readyWait_ready (hready : 1 ≤ s.regs.readyBound) (h : s.nvmSide = ⟨puts, gets, true :: polls, m⟩) :
    ∃ t, readyWait s = (true, t) ∧ After s t ⟨puts, gets, polls, m⟩ [] := by
  obtain ⟨rfl, rfl, hpolls, rfl⟩ := NvmSide.mk.inj h
  obtain ⟨k, hk⟩ := Nat.exists_eq_add_one.mpr hready
  rw [readyWait, hk, readyWaitLoop, blkReady, takeBlkReady_cons _ _ _ hpolls]
  exact ⟨_, rfl, rfl, rfl, rfl, (List.append_nil _).symm⟩

/-! ## The writer (R174) -/

/-- The walk over the chunks of a region stores the region: a write for each chunk, a ready wait between two. -/
theorem writePieces_taken {pageLen : Nat} (hp : 1 ≤ pageLen) (a : Nat) (data : List Byte) :
    ∀ (s : State) (m : Memory), 1 ≤ s.regs.attemptBound →
      ((pieces pageLen a data).length ≤ 1 ∨ 1 ≤ s.regs.readyBound) →
      s.nvmSide = ⟨List.replicate (pieces pageLen a data).length taken ++ puts, gets,
        List.replicate ((pieces pageLen a data).length - 1) true ++ polls, m⟩ →
        ∃ t, writePieces (pieces pageLen a data) s = (.ok, t)
          ∧ After s t ⟨puts, gets, polls, m.store a data [] true⟩ [] := by
  induction a, data using chunk_induction hp with
  | nil a =>
    intro s m _ _ h
    exact ⟨s, rfl, h ▸ After.refl s⟩
  | cons a data hd ih =>
    intro s m hattempt hready h
    rw [pieces_cons hp a hd] at hready h ⊢
    obtain ⟨t, hwrite, ht⟩ := memWrite_taken (a := a) (b := firstBytes pageLen a data) hattempt h
    have hstore := store_append m a (firstBytes pageLen a data) (restBytes pageLen a data)
    rw [firstBytes_append_restBytes, firstBytes_length] at hstore
    rw [writePieces, hwrite, hstore]
    dsimp only
    by_cases hrest : restBytes pageLen a data = []
    · rw [hrest] at ht ⊢
      exact ⟨t, rfl, ht⟩
    · have hmore := List.length_pos_iff.mpr (pieces_ne_nil hp (a + chunkLen pageLen a data.length) hrest)
      have hbound : 1 ≤ t.regs.readyBound := by
        rw [ht.regs]
        exact hready.resolve_left (by rw [List.length_cons]; omega)
      obtain ⟨k, hk⟩ := Nat.exists_eq_add_one.mpr hmore
      rw [List.length_cons, hk] at ht
      obtain ⟨u, hwait, hu⟩ := readyWait_ready hbound ht.side
      obtain ⟨w, hwalk, hw⟩ := ih u _ (by rw [hu.regs, ht.regs]; exact hattempt) (.inr (by rw [hu.regs]; exact hbound))
        (by rw [hu.side, hk]; rfl)
      rw [if_neg (pieces_ne_nil hp _ hrest), hwait]
      exact ⟨w, hwalk, (ht.trans hu).trans hw⟩

theorem writeSpanning_taken {data : List Byte} (hp : 1 ≤ s.params.pageLen) (hattempt : 1 ≤ s.regs.attemptBound)
    (hready : (pieces s.params.pageLen a data).length ≤ 1 ∨ 1 ≤ s.regs.readyBound)
    (h : s.nvmSide = ⟨List.replicate (pieces s.params.pageLen a data).length taken ++ puts, gets,
      List.replicate ((pieces s.params.pageLen a data).length - 1) true ++ polls, m⟩) :
    ∃ t, writeSpanning a data s = (.ok, t) ∧ After s t ⟨puts, gets, polls, m.store a data [] true⟩ [] := by
  rw [writeSpanning_eq_writePieces hp]
  exact writePieces_taken hp a data s m hattempt hready h

theorem writeHeader_taken {data : List Byte} (hd : data ≠ []) (hfits : a + data.length ≤ s.params.pageLen)
    (hattempt : 1 ≤ s.regs.attemptBound) (h : s.nvmSide = ⟨taken :: puts, gets, polls, m⟩) :
    ∃ t, writeSpanning a data s = (.ok, t) ∧ After s t ⟨puts, gets, polls, m.store a data [] true⟩ [] := by
  have hpos := List.length_pos_iff.mpr hd
  have hone : (pieces s.params.pageLen a data).length = 1 := by rw [pieces_of_fits hd hfits]; rfl
  exact writeSpanning_taken (by omega) hattempt (.inl hone.le) (by rw [hone]; exact h)

/-- A region no longer than a page has one chunk, or two where it straddles a page. -/
theorem pieces_length_of_le_page {pageLen : Nat} {data : List Byte} (hd : data ≠ []) (hle : data.length ≤ pageLen) :
    (pieces pageLen a data).length = 1 ∨ (pieces pageLen a data).length = 2 := by
  have hpos := List.length_pos_iff.mpr hd
  have hpage : (a + data.length - 1) / pageLen ≤ (a + pageLen) / pageLen := Nat.div_le_div_right (by omega)
  rw [Nat.add_div_right a (by omega)] at hpage
  rw [pieces_length (by omega), if_neg hd]
  omega

/-- A region no longer than a page takes at most two writes. -/
theorem writeRecord_taken {data : List Byte} (hd : data ≠ []) (hle : data.length ≤ s.params.pageLen)
    (hattempt : 1 ≤ s.regs.attemptBound) (hready : 1 ≤ s.regs.readyBound)
    (h : s.nvmSide = ⟨taken :: taken :: taken :: puts, gets, true :: polls, m⟩) :
    ∃ t puts' polls', writeSpanning a data s = (.ok, t)
      ∧ After s t ⟨taken :: puts', gets, polls', m.store a data [] true⟩ [] := by
  have hpos := List.length_pos_iff.mpr hd
  have run {puts' : List PutReply} {polls' : List Bool} :=
    writeSpanning_taken (a := a) (data := data) (puts := taken :: puts') (gets := gets) (polls := polls') (m := m)
      (show 1 ≤ s.params.pageLen by omega) hattempt (.inr hready)
  rcases pieces_length_of_le_page (a := a) hd hle with hone | htwo
  · rw [hone] at run
    obtain ⟨t, ht⟩ := run h
    exact ⟨t, _, _, ht⟩
  · rw [htwo] at run
    obtain ⟨t, ht⟩ := run h
    exact ⟨t, _, _, ht⟩

/-! ## The commands -/

theorem readField_held (hattempt : 1 ≤ s.regs.attemptBound) (h : s.nvmSide = ⟨puts, held :: gets, polls, m⟩) :
    After s (readField a n s) ⟨puts, gets, polls, m⟩ [{ ok := true, data := bytesData (m.heldBytes a n) }] := by
  obtain ⟨t, hread, ht⟩ := memRead_held (a := a) (n := n) hattempt h
  rw [readField, hread]
  have hend := ht.trans (finish_after .log eNone true (bytesData (m.heldBytes a n)) t)
  rw [ht.side] at hend
  exact hend

theorem readHeader_held (hattempt : 1 ≤ s.regs.attemptBound) (h : s.nvmSide = ⟨puts, held :: held :: gets, polls, m⟩) :
    ∃ t, readHeader s = (some (heldCounter s, heldCapacity s), t) ∧ After s t ⟨puts, gets, polls, m⟩ [] := by
  have hmem : s.env.nvm = m := congrArg NvmSide.mem h
  obtain ⟨t, hcnt, ht⟩ := memRead_held (a := 8) (n := 2) hattempt h
  obtain ⟨u, hcap, hu⟩ := memRead_held (a := 10) (n := 2) (by rw [ht.regs]; exact hattempt) ht.side
  rw [readHeader, cntOffset, hcnt]
  dsimp only
  rw [capOffset, hcap, heldCounter_eq, heldCapacity_eq, hmem]
  exact ⟨u, rfl, ht.trans hu⟩

/-- `LOG.INIT` leaves the three fields in the header (R191, R193). -/
theorem exec_logInit_taken (ts : Data) (hp : 12 ≤ s.params.pageLen) (hattempt : 1 ≤ s.regs.attemptBound)
    (h : s.nvmSide = ⟨taken :: taken :: taken :: puts, gets, polls, m⟩) :
    ∃ t, exec (.logInit ts) s = .next t
      ∧ After s t ⟨puts, gets, polls, formatted s.params ts m⟩ [{ ok := true, data := 0 }] := by
  obtain ⟨t, hstamp, ht⟩ := writeHeader_taken (a := 0) (data := be64 ts) (List.cons_ne_nil _ _)
    ((show 8 ≤ 12 by decide).trans hp) hattempt h
  obtain ⟨u, hcnt, hu⟩ := writeHeader_taken (a := 8) (data := [0x00, 0x00]) (List.cons_ne_nil _ _)
    (by rw [ht.params]; exact (show 10 ≤ 12 by decide).trans hp) (by rw [ht.regs]; exact hattempt) ht.side
  have hsu := ht.trans hu
  obtain ⟨w, hcap, hw⟩ := writeHeader_taken (a := 10) (data := be16 (BitVec.ofNat 16 s.params.cap))
    (List.cons_ne_nil _ _) (by rw [hsu.params]; exact hp) (by rw [hsu.regs]; exact hattempt) hu.side
  have hend := (hsu.trans hw).trans (finish_after .log eNone true 0 w)
  rw [hw.side] at hend
  exact ⟨_, by rw [exec_logInit_of_counter hstamp hcnt, hsu.params, hcap]; rfl, hend⟩

/-- `LOG.APPEND` leaves the record at its address and the counter one higher (R194). -/
theorem exec_logAppend_taken (id : Byte) (deltaT : Half) (payload : Word) (hp : 12 ≤ s.params.pageLen)
    (hattempt : 1 ≤ s.regs.attemptBound) (hready : 1 ≤ s.regs.readyBound) (hcnt : heldCounter s ≠ 0xFFFF)
    (h : s.nvmSide = ⟨taken :: taken :: taken :: puts, held :: held :: gets, true :: polls, m⟩) :
    ∃ t puts' polls', exec (.logAppend id deltaT payload) s = .next t
      ∧ After s t ⟨puts', gets, polls', appended s.params (heldCounter s) (recordNumber id deltaT payload) m⟩
          [{ ok := true, data := 0 }] := by
  obtain ⟨t, hheader, ht⟩ := readHeader_held hattempt h
  obtain ⟨u, puts', polls', hrecord, hu⟩ := writeRecord_taken (a := t.params.pageLen + 7 * heldCounter s)
    (data := serRecord (recordNumber id deltaT payload)) (List.cons_ne_nil _ _)
    (by rw [ht.params]; exact (show 7 ≤ 12 by decide).trans hp)
    (by rw [ht.regs]; exact hattempt) (by rw [ht.regs]; exact hready) ht.side
  have hsu := ht.trans hu
  obtain ⟨w, hnext, hw⟩ := writeHeader_taken (a := 8) (data := be16 (BitVec.ofNat 16 (heldCounter s + 1)))
    (List.cons_ne_nil _ _) (by rw [hsu.params]; exact (show 10 ≤ 12 by decide).trans hp)
    (by rw [hsu.regs]; exact hattempt) hu.side
  have hend := (hsu.trans hw).trans
    (finish_after .log (if heldCapacity s ≤ heldCounter s + 1 then 0x0200 else 0) true 0 w)
  rw [hw.side, ht.params] at hend
  exact ⟨_, puts', polls', by rw [exec_logAppend_of_record hheader hcnt hrecord, appendCounter_eq hnext], hend⟩

/-- `LOG.GET` of a written index answers the seven bytes held at the record's address (R195). -/
theorem exec_logGet_held {index : Nat} (hattempt : 1 ≤ s.regs.attemptBound) (hin : index < heldCounter s)
    (hcap : heldCounter s ≤ heldCapacity s)
    (h : s.nvmSide = ⟨puts, held :: held :: held :: gets, polls, m⟩) :
    ∃ t, exec (.logGet index) s = .next t
      ∧ After s t ⟨puts, gets, polls, m⟩
          [{ ok := true, data := bytesData (m.heldBytes (s.params.pageLen + 7 * index) 7) }] := by
  obtain ⟨t, hheader, ht⟩ := readHeader_held hattempt h
  have hread := readField_held (a := t.params.pageLen + 7 * index) (n := 7) (by rw [ht.regs]; exact hattempt) ht.side
  rw [exec_logGet_of_written hheader hin hcap]
  rw [ht.params] at hread ⊢
  exact ⟨_, rfl, ht.trans hread⟩

end

/-! ## What comes back (R199) -/

/-- Settles O60: each accessor answers the bytes its field was written with. -/
theorem formatThenReadHeader : Obligations.FormatThenReadHeader := by
  intro ts s puts gets hp hfits hattempt hputs hgets
  have hside : s.nvmSide
      = ⟨taken :: taken :: taken :: puts, held :: held :: held :: gets, s.env.blkReadyQ, s.env.nvm⟩ := by
    rw [State.nvmSide, hputs, hgets]
  have hcap : ube (be16 (BitVec.ofNat 16 s.params.cap)) = s.params.cap := ube_be16_ofNat (Nat.lt_succ_of_le hfits)
  obtain ⟨t, hinit, ht⟩ := exec_logInit_taken ts hp hattempt hside
  have hu := readField_held (a := 0) (n := 8) (by rw [ht.regs]; exact hattempt) ht.side
  have hsu := ht.trans hu
  have hv := readField_held (a := 8) (n := 2) (by rw [hsu.regs]; exact hattempt) hu.side
  have hsv := hsu.trans hv
  have hw := readField_held (a := 10) (n := 2) (by rw [hsv.regs]; exact hattempt) hv.side
  refine ⟨t, _, _, _, hinit, rfl, rfl, rfl, (hsv.trans hw).responses.trans ?_⟩
  rw [formatted_stamp, bytesData_be64, formatted_counter, formatted_capacity, bytesData, bytesData, hcap]
  rfl

/-- Settles O59: the record comes back from its address, which the counter's write does not touch. -/
theorem appendThenGet : Obligations.AppendThenGet := by
  intro id deltaT payload s puts gets polls hp hattempt hready hputs hpolls hgets hbelow
  have hside : s.nvmSide = ⟨taken :: taken :: taken :: puts, held :: held :: held :: held :: held :: gets,
      true :: polls, s.env.nvm⟩ := by rw [State.nvmSide, hputs, hgets, hpolls]
  have hcap : heldCapacity s < 65536 := ube_two_lt _ rfl
  obtain ⟨t, puts', polls', happend, ht⟩ := exec_logAppend_taken id deltaT payload hp hattempt hready (by omega) hside
  have hmem : t.env.nvm = appended s.params (heldCounter s) (recordNumber id deltaT payload) s.env.nvm :=
    congrArg NvmSide.mem ht.side
  have hcounter : heldCounter t = heldCounter s + 1 := by
    rw [heldCounter_eq t, hmem, appended_counter, ube_be16_ofNat (by omega)]
  have hcapacity : heldCapacity t = heldCapacity s := by
    rw [heldCapacity_eq t, hmem, appended_capacity _ _ hp, heldCapacity_eq]
  obtain ⟨u, hget, hu⟩ := exec_logGet_held (by rw [ht.regs]; exact hattempt)
    (show heldCounter s < heldCounter t by omega) (by omega) ht.side
  rw [ht.params, appended_record _ _ hp, bytesData_serRecord] at hu
  exact ⟨t, u, happend, hget, hcounter, hcapacity, (ht.trans hu).responses⟩

end Sys2Proof.Machine
end

section
/-!
Proofs about reporting and stopping (`60_exceptions.md`). The block's one form of reporting is the end of a command: the
trace is the command's own events and then the notification, where one is due (`Moves.finish_trace`), and no event
either unit performs is itself a notification. Nothing stops the machine, because every command answers (`step_next`);
with no command pending a step is idle or takes a reset (`step_of_no_command`).
-/

namespace Sys2Proof.Machine

/-! ## The notification (R210, R212, R213) -/

theorem isNotify_of_isRtdSide {e : Event} (h : isRtdSide e = true) : isNotify e = false := by
  cases e with
  | notify => exact absurd h Bool.false_ne_true
  | sel | desel | tx | rx | drdy | delay | blkWrite | blkRead | blkReady => rfl

theorem isNotify_of_isNvmSide {e : Event} (h : isNvmSide e = true) : isNotify e = false := by
  cases e with
  | notify => exact absurd h Bool.false_ne_true
  | sel | desel | tx | rx | drdy | delay | blkWrite | blkRead | blkReady => rfl

/-- A command that kept the CSRs ends with the notification its first state makes due: the sinks are bits of `CTRL`. -/
theorem Moves.finish_trace {s s1 : State} {es : List Event} (m : Moves s s1 es)
    (hcsr : csrPart s1.regs = csrPart s.regs) (c : Comp) (err : Half) (ok : Bool) (d : Data) :
    (finish c err ok d s1).trace = s.trace ++ es ++ dueEv s c err :=
  calc (finish c err ok d s1).trace
      _ = s1.trace ++ dueEv s1 c err := Machine.finish_trace c err ok d s1
      _ = s.trace ++ es ++ dueEv s c err := by rw [m.trace, dueEv_congr hcsr]

theorem exec_quiet_trace {i : Instr} {s t : State} (hpart : partOf i = .csr ∨ partOf i = .converter)
    (h : exec i s = .next t) : t.trace = s.trace := by
  obtain ⟨ok, d, r, hexec, -⟩ := exec_quiet i s hpart
  obtain rfl := Host.Outcome.next.inj (hexec.symm.trans h)
  rfl

theorem exec_rtd_trace {i : Instr} {s t : State} (hpart : partOf i = .rtd) (h : exec i s = .next t) :
    ∃ es err, t.trace = s.trace ++ es ++ dueEv s .rtd err ∧ (∀ e ∈ es, isNotify e = false) ∧ err &&& 0xFE00 = 0 := by
  obtain ⟨err, ok, d, s1, hexec, ⟨items, hitems, m, -, hcsr, -⟩, hmask, -⟩ := exec_rtd_done i s hpart
  obtain rfl := Host.Outcome.next.inj (hexec.symm.trans h)
  refine ⟨items.flatten, err, m.finish_trace hcsr .rtd err ok d, fun e he => ?_, hmask⟩
  obtain ⟨item, hitem, he⟩ := List.mem_flatten.mp he
  exact isNotify_of_isRtdSide ((hitems item hitem).events e he).isRtdSide

theorem exec_log_trace {i : Instr} {s t : State} (hpart : partOf i = .log) (h : exec i s = .next t) :
    ∃ es err, t.trace = s.trace ++ es ++ dueEv s .log err ∧ (∀ e ∈ es, isNotify e = false) ∧ err &&& 0xE1FE = 0 := by
  obtain ⟨err, ok, d, s1, hexec, ⟨es, hes, m, -, hregs⟩, hmask⟩ := exec_log_done i s hpart
  obtain rfl := Host.Outcome.next.inj (hexec.symm.trans h)
  exact ⟨es, err, m.finish_trace (congrArg csrPart hregs) .log err ok d,
    fun e he => isNotify_of_isNvmSide (hes e he).isNvmSide, hmask⟩

/-- Settles O19, by the unit of the command. -/
theorem notificationIsLastAndSingle : Obligations.NotificationIsLastAndSingle := by
  intro i s t h
  cases hpart : partOf i with
  | csr => exact exec_quiet_trace (.inl hpart) h
  | converter => exact exec_quiet_trace (.inr hpart) h
  | rtd => exact exec_rtd_trace hpart h
  | log => exact exec_log_trace hpart h

/-! ## The machine runs on (R215, R216) -/

theorem step_of_no_command {s : State} (hn : nextCommand s = none) : step s = .next (idle s) := by
  simp only [step, hn]

theorem step_next (s : State) : ∃ t, step s = .next t := by
  cases hn : nextCommand s with
  | none => exact ⟨_, step_of_no_command hn⟩
  | some w =>
    cases hd : decode w with
    | error e => exact ⟨_, step_of_decode_error hn hd⟩
    | ok i =>
      obtain ⟨u, hexec, -⟩ := exec_next i s
      exact ⟨_, step_of_decode hn hd hexec⟩

/-- Settles O10, by induction on the number of steps. -/
theorem machineNeverStops : Obligations.MachineNeverStops := by
  intro k
  induction k with
  | zero => exact fun _ => trivial
  | succ k ih =>
    intro s
    obtain ⟨t, hstep⟩ := step_next s
    exact ⟨t, hstep, ih t⟩

/-! ## A step with no command pending (R237, R240) -/

theorem idle_of_no_reset {s : State} (h : resetInput s = none) : idle s = { s with resets := s.resets.tail } := by
  simp only [idle, h]

theorem idle_of_reset {s : State} {k : Nat} (h : resetInput s = some k) :
    idle s = hardReset { s with resets := s.resets.tail } := by
  simp only [idle, h]

/-- Settles O7: the two cases of the reset input during an idle step. -/
theorem stepIdleWithoutCommand : Obligations.StepIdleWithoutCommand := by
  intro s hn
  rw [step_of_no_command hn]
  exact ⟨fun h => congrArg Host.Outcome.next (idle_of_no_reset h),
    fun _ h => congrArg Host.Outcome.next (idle_of_reset h)⟩

end Sys2Proof.Machine
end

section
/-!
Proofs about the reset input during and after a command (`70_reset_and_hazards.md` R240, R241). A step that performs the
events `es` ends in one of two ways, by the place of the reset: cut within the events (`Answered.commit_cut`) or whole
(`Answered.commit_late`). An illegal word is the command of no events (R76), so the same two ways are all it has.
-/

namespace Sys2Proof.Machine

/-- R241: a reset no later than the last event leaves the first `k` events performed and the registers reset. -/
theorem Answered.commit_cut {s t : State} {es : List Event} {k : Nat} (h : Answered s t es)
    (hreset : resetInput s = some k) (hk : k ≤ es.length) :
    commit s t = advance (hardReset (performed (es.take k) s)) := by
  simp only [commit, hreset, cutShort, h.newEvents, if_neg hk.not_gt]

/-- Log 11: a reset after the last event comes after the response as well, so the whole command stands. -/
theorem Answered.commit_late {s t : State} {es : List Event} {k : Nat} (h : Answered s t es)
    (hreset : resetInput s = some k) (hk : es.length < k) : commit s t = hardReset (advance t) := by
  simp only [commit, hreset, h.newEvents, if_pos hk]

theorem refuse_answered (s : State) : Answered s (refuse s) [] :=
  (Moves.refl s).answered_respond false 0

/-- The events of a command are those its trace gained. -/
theorem answered_of_exec {i : Instr} {s t : State} {es : List Event} (h : exec i s = .next t)
    (htrace : t.trace = s.trace ++ es) : Answered s t es := by
  obtain ⟨fs, hans, -⟩ := exec_cases h
  obtain rfl : fs = es := List.append_cancel_left (hans.trace.symm.trans htrace)
  exact hans

/-- A word that is no command has no event to cut after: the reset comes before its response or after it. -/
theorem commit_refuse_of_reset {s : State} {k : Nat} (hreset : resetInput s = some k) :
    commit s (refuse s) =
      { s with
        regs := Regs.reset s.params, pc := s.pc + 1, resets := s.resets.tail
        responses := s.responses ++ (if k = 0 then [] else [{ ok := false, data := 0 }]) } := by
  cases k with
  | zero =>
    rw [(refuse_answered s).commit_cut hreset (Nat.le_refl 0)]
    simp [advance, hardReset, performed, State.withRegs]
  | succ k =>
    rw [(refuse_answered s).commit_late hreset (Nat.succ_pos k)]
    rfl

/-- Settles O9: by the place of the reset, within the events of the command or after its response. -/
theorem resetCutsCommand : Obligations.ResetCutsCommand := by
  refine ⟨fun s t w i es k hn hd hexec htrace hreset => ?_, fun s w e k hn hd hreset => ?_⟩
  · have hans := answered_of_exec hexec htrace
    refine ⟨_, step_of_decode hn hd hexec, ?_⟩
    rcases Nat.lt_or_ge es.length k with hlate | hcut
    · rw [hans.commit_late hreset hlate]
      exact ⟨congrArg Regs.reset hans.params, hans.params, hans.program, congrArg (· + 1) hans.pc,
        congrArg List.tail hans.resets, fun hcut => absurd hlate hcut.not_gt, fun _ => ⟨rfl, rfl, rfl⟩⟩
    · rw [hans.commit_cut hreset hcut]
      exact ⟨rfl, rfl, rfl, rfl, rfl, fun _ => ⟨rfl, rfl, rfl⟩, fun hlate => absurd hlate hcut.not_gt⟩
  · rw [step_of_decode_error hn hd, commit_refuse_of_reset hreset]

end Sys2Proof.Machine
end
